-- ==== Sys2Proof/Word.lean ====
section
/-! DEFINITION. The word types of the frame block (00_scope R7): a byte, the 16-bit and 32-bit fields of
frames and payloads, and byte strings. -/

namespace Sys2Proof

/-- A byte: 8 bits, bit 0 the least significant (00_scope R7). -/
abbrev Byte := BitVec 8

/-- A 16-bit field: `hdata`, a sequence number, a temperature, a revision. -/
abbrev Half := BitVec 16

/-- A 32-bit field: a nonce, a serial number, an integer field of a job. -/
abbrev Word := BitVec 32

/-- A byte string; index 0 is the first byte on the wire (20_memory R40). -/
abbrev Bytes := List Byte

end Sys2Proof
end

