-- ==== Sys2Proof/Syntax.lean ====
section
/-! DEFINITION. The data types of the block (10_state R11 to R17, R28) and its syntax: one constructor of
`Instr` for each row of spec/opcode_table.json, 37 frame rows and 33 operations. -/

namespace Sys2Proof

/-- A frame, "immutable once built" (10_state R11). `crc8` is the check byte as it stood on the wire. -/
structure Frame where
  opcode : Byte
  chip   : Byte
  core   : Byte
  hdata  : Half
  data   : Bytes
  crc8   : Byte
  deriving DecidableEq, Repr

/-- What a frame carries besides its opcode: the fields of the field dictionary of 30_encoding R67, with the
defaults it gives them. -/
structure FrameBody where
  chip  : Byte := 0
  core  : Byte := 0
  hdata : Half := 0
  data  : Bytes := []
  deriving DecidableEq, Repr

/-- The six header bytes under the check byte, frame bytes 1 to 6 (30_encoding R62). -/
structure Header where
  opcode  : Byte
  chip    : Byte
  core    : Byte
  hdataLo : Byte
  hdataHi : Byte
  len     : Byte
  deriving DecidableEq, Repr

/-- The direction of a frame (30_encoding R65): received from the device, or handed to the transport. The wire
format is the same both ways and does not carry it. -/
inductive Dir where
  /-- received: the bytes arrive at the parser -/
  | rx
  /-- transmitted: `tx(f)` of 45_transport R231 -/
  | tx
  deriving DecidableEq, Repr

/-- One record of a nonce report (10_state R14). -/
structure CandidateNonce where
  nonce         : Word
  sequence      : Half
  ntimeOffset   : BitVec 12
  searchForward : Bool
  deriving DecidableEq, Repr

/-- A hash job, its eleven fields in the source's order (10_state R13). -/
structure HashJob where
  midstate         : Vector Byte 32
  merkleResidual   : Vector Byte 4
  timestamp        : Word
  bits             : Word
  startingNonce    : Word
  nonceLoops       : Word
  ntimeLoops       : Half
  searchDifficulty : Byte
  option           : Byte
  group            : Byte
  spare            : Vector Byte 3
  deriving DecidableEq, Repr

/-- The scheduler's record of an issued job (10_state R15). -/
structure WorkRecord where
  issueTime        : Nat
  job              : HashJob
  searchDifficulty : Byte
  die              : Byte
  core             : Byte
  deriving DecidableEq, Repr

/-- A monitor sample: die temperature and six voltage rails (10_state R16). -/
structure Monitor where
  temperature : Half
  voltage     : Vector Byte 6
  deriving DecidableEq, Repr

/-- The nonce-report variant (10_state R12, 40_crc8_codec R113). -/
structure NonceReport where
  base   : Frame
  nonces : List CandidateNonce
  deriving DecidableEq, Repr

/-- The status-report variant (10_state R12, 40_crc8_codec R114). -/
structure StatusReport where
  base    : Frame
  thermal : Bool
  tach    : Byte
  lastSeq : Half
  monitor : Monitor
  bitmap  : Bytes
  deriving DecidableEq, Repr

/-- The initialization-acknowledgement variant (10_state R12, 40_crc8_codec R115). -/
structure InitAck where
  base       : Frame
  dies       : Byte
  cores      : Byte
  fwRev      : Half
  hwRev      : Half
  serial     : Word
  opStatus   : Byte
  coreBitmap : Bytes
  deriving DecidableEq, Repr

/-- The notice variant (10_state R12, 40_crc8_codec R116). -/
structure Notice where
  base    : Frame
  code    : Half
  extra   : Option Word
  message : Option Bytes
  deriving DecidableEq, Repr

/-- A decoded frame: the closed set of variants of 10_state R12 (Garbage is a token kind, 90_conflicts C8). -/
inductive Variant where
  | generic (f : Frame)
  | nonceReport (r : NonceReport)
  | statusReport (r : StatusReport)
  | initAck (r : InitAck)
  | notice (r : Notice)
  deriving DecidableEq, Repr

/-- Why `DECODE_BASE` rejects a buffer, in the order it tests (60_exceptions R242). -/
inductive FramingReason where
  | short
  | badMarker
  | badCrc
  | badLength
  deriving DecidableEq, Repr

/-- Protocol-error codes P1 to P4 (60_exceptions R243). -/
inductive ProtoCode where
  /-- P1: nonce-report payload not a multiple of 8 -/
  | nonceLen
  /-- P2: status payload shorter than the monitor block -/
  | statusShort
  /-- P3: acknowledgement payload shorter than its fixed part -/
  | initAckShort
  /-- P4: the notice message is not NUL-terminated -/
  | noticeNoNul
  deriving DecidableEq, Repr

/-- Why `ENCODE` rejects its fields, in the order it tests (60_exceptions R244). -/
inductive ValidationReason where
  | badOpcode
  | badChip
  | badCore
  | badHdata
  | badDataAlign
  | badDataLen
  deriving DecidableEq, Repr

/-- One element of the parser's output queue (10_state R17). -/
inductive Token where
  | frame (v : Variant)
  | garbage (b : Bytes)
  | protoErr (code : ProtoCode) (base : Frame)
  deriving DecidableEq, Repr

/-- The codes of a `Fault` termination, T3 to T5 (60_exceptions R241). -/
inductive FaultCode where
  /-- T3, from a failed send or receive -/
  | transport
  /-- T4, an acknowledgement with non-zero operation-status -/
  | initFailed
  /-- T5, from an internal-consistency failure or any unexpected error -/
  | internal
  deriving DecidableEq, Repr

/-- Termination reasons (10_state R28, 60_exceptions R241): T1, T2, and T3 to T5. -/
inductive TermReason where
  | thermal (d : Byte)
  | cancelled
  | fault (c : FaultCode)
  deriving DecidableEq, Repr

/-- What the transport's `receive` calls yield in one cycle (44_scheduler R186). -/
inductive Rx where
  | bytes (b : Bytes)
  | transportError
  deriving DecidableEq, Repr

/-- What VERIFY makes its header of: a work record, to which the candidate's nonce is added (43_pow_clz R175, R177), or
an assembled 80-byte header, the input of 30_encoding R90. DEDUCED: one operation with the inputs of both rules
(log 40). -/
inductive HeaderSource where
  | record (w : WorkRecord)
  | header (h : Vector Byte 80)
  deriving DecidableEq, Repr

/-- The instructions of the block: one constructor per row of spec/opcode_table.json. Only the frame rows have a
binary encoding (30_encoding R90). -/
inductive Instr where
  /-- FRAME: any frame, its opcode an operand (30_encoding R60, R67). -/
  | frame (d : Dir) (op : Byte) (b : FrameBody)
  /-- FRAME.OP_NULL: a frame whose opcode byte is 0 (30_encoding R64, R112). -/
  | opNull (d : Dir) (b : FrameBody)
  /-- FRAME.OP_ROOT: a frame whose opcode byte is 1 (30_encoding R64, R112). -/
  | opRoot (d : Dir) (b : FrameBody)
  /-- FRAME.OP_RESET: a frame whose opcode byte is 2 (30_encoding R64, R112). -/
  | opReset (d : Dir) (b : FrameBody)
  /-- FRAME.OP_PLL_CONFIG: a frame whose opcode byte is 3 (30_encoding R64, R112). -/
  | opPllConfig (d : Dir) (b : FrameBody)
  /-- FRAME.OP_ADDRESS: a frame whose opcode byte is 4 (30_encoding R64, R112). -/
  | opAddress (d : Dir) (b : FrameBody)
  /-- FRAME.OP_READDRESS: a frame whose opcode byte is 5 (30_encoding R64, R112). -/
  | opReaddress (d : Dir) (b : FrameBody)
  /-- FRAME.OP_HIGHEST: a frame whose opcode byte is 6 (30_encoding R64, R112). -/
  | opHighest (d : Dir) (b : FrameBody)
  /-- FRAME.OP_BAUD: a frame whose opcode byte is 7 (30_encoding R64, R112). -/
  | opBaud (d : Dir) (b : FrameBody)
  /-- FRAME.OP_UNROOT: a frame whose opcode byte is 8 (30_encoding R64, R112). -/
  | opUnroot (d : Dir) (b : FrameBody)
  /-- FRAME.OP_HASH: a frame whose opcode byte is 9 (R71). -/
  | opHash (d : Dir) (b : FrameBody)
  /-- FRAME.OP_NONCE: a frame whose opcode byte is 10 (R113). -/
  | opNonce (d : Dir) (b : FrameBody)
  /-- FRAME.OP_ABORT: a frame whose opcode byte is 11 (30_encoding R64, R112). -/
  | opAbort (d : Dir) (b : FrameBody)
  /-- FRAME.OP_STATUS: a frame whose opcode byte is 12 (R114). -/
  | opStatus (d : Dir) (b : FrameBody)
  /-- FRAME.OP_GPIO: a frame whose opcode byte is 13 (30_encoding R64, R112). -/
  | opGpio (d : Dir) (b : FrameBody)
  /-- FRAME.OP_CONFIG: a frame whose opcode byte is 14 (30_encoding R64, R112). -/
  | opConfig (d : Dir) (b : FrameBody)
  /-- FRAME.OP_STATISTICS: a frame whose opcode byte is 15 (30_encoding R64, R112). -/
  | opStatistics (d : Dir) (b : FrameBody)
  /-- FRAME.OP_GROUP: a frame whose opcode byte is 16 (30_encoding R64, R112). -/
  | opGroup (d : Dir) (b : FrameBody)
  /-- FRAME.OP_CLOCKGATE: a frame whose opcode byte is 17 (30_encoding R64, R112). -/
  | opClockgate (d : Dir) (b : FrameBody)
  /-- FRAME.OP_INIT: a frame whose opcode byte is 128 (R115, R80). -/
  | opInit (d : Dir) (b : FrameBody)
  /-- FRAME.OP_GET_TRACE: a frame whose opcode byte is 129 (30_encoding R64, R112). -/
  | opGetTrace (d : Dir) (b : FrameBody)
  /-- FRAME.OP_LOOPBACK_USB: a frame whose opcode byte is 130 (30_encoding R64, R112). -/
  | opLoopbackUsb (d : Dir) (b : FrameBody)
  /-- FRAME.OP_LOOPBACK_UART: a frame whose opcode byte is 131 (30_encoding R64, R112). -/
  | opLoopbackUart (d : Dir) (b : FrameBody)
  /-- FRAME.OP_DFU: a frame whose opcode byte is 132 (30_encoding R64, R112). -/
  | opDfu (d : Dir) (b : FrameBody)
  /-- FRAME.OP_SHUTDOWN: a frame whose opcode byte is 133 (R81). -/
  | opShutdown (d : Dir) (b : FrameBody)
  /-- FRAME.OP_DIE_STATUS: a frame whose opcode byte is 134 (30_encoding R64, R112). -/
  | opDieStatus (d : Dir) (b : FrameBody)
  /-- FRAME.OP_GWQ_STATUS: a frame whose opcode byte is 135 (30_encoding R64, R112). -/
  | opGwqStatus (d : Dir) (b : FrameBody)
  /-- FRAME.OP_WORK_RESTART: a frame whose opcode byte is 136 (30_encoding R64, R112). -/
  | opWorkRestart (d : Dir) (b : FrameBody)
  /-- FRAME.OP_USB_STATS1: a frame whose opcode byte is 137 (30_encoding R64, R112). -/
  | opUsbStats1 (d : Dir) (b : FrameBody)
  /-- FRAME.OP_USB_GWQSTATS: a frame whose opcode byte is 138 (30_encoding R64, R112). -/
  | opUsbGwqstats (d : Dir) (b : FrameBody)
  /-- FRAME.OP_NOTICE: a frame whose opcode byte is 139 (R116). -/
  | opNotice (d : Dir) (b : FrameBody)
  /-- FRAME.OP_PING: a frame whose opcode byte is 140 (30_encoding R64, R112). -/
  | opPing (d : Dir) (b : FrameBody)
  /-- FRAME.OP_CORE_MAP: a frame whose opcode byte is 141 (30_encoding R64, R112). -/
  | opCoreMap (d : Dir) (b : FrameBody)
  /-- FRAME.OP_VERSION: a frame whose opcode byte is 142 (30_encoding R64, R112). -/
  | opVersion (d : Dir) (b : FrameBody)
  /-- FRAME.OP_FAN: a frame whose opcode byte is 143 (30_encoding R64, R112). -/
  | opFan (d : Dir) (b : FrameBody)
  /-- FRAME.OP_NAME: a frame whose opcode byte is 144 (30_encoding R64, R112). -/
  | opName (d : Dir) (b : FrameBody)
  /-- FRAME.UNKNOWN: a frame whose opcode byte is in no row of the table (30_encoding R66, R112). -/
  | frameUnknown (d : Dir) (op : Byte) (b : FrameBody)
  /-- CRC8 (40_crc8_codec R100). -/
  | crc8 (h : Header)
  /-- ENCODE (40_crc8_codec R105); the number operands are integers, so that out-of-range ones can be given. -/
  | encode (opcode chip core hdata : Int) (data : Bytes)
  /-- DECODE (40_crc8_codec R110). -/
  | decode (b : Bytes)
  /-- DECODE_BASE (40_crc8_codec R111). -/
  | decodeBase (b : Bytes)
  /-- DECORATE (40_crc8_codec R112). -/
  | decorate (f : Frame)
  /-- FEED (41_stream_parser R138). -/
  | feed (b : Bytes)
  /-- FEED_BYTE.OutOfSync (41_stream_parser R132). -/
  | feedByteOutOfSync (x : Byte)
  /-- FEED_BYTE.ParsingHeader.body (41_stream_parser R133). -/
  | feedByteHeaderBody (x : Byte)
  /-- FEED_BYTE.ParsingHeader.crc_fail (41_stream_parser R134). -/
  | feedByteHeaderCrcFail (x : Byte)
  /-- FEED_BYTE.ParsingHeader.crc_ok (41_stream_parser R135). -/
  | feedByteHeaderCrcOk (x : Byte)
  /-- FEED_BYTE.ParsingData (41_stream_parser R136). -/
  | feedByteData (x : Byte)
  /-- FEED_BYTE.NextFrame (41_stream_parser R137). -/
  | feedByteNextFrame (x : Byte)
  /-- HAS_TOKEN (41_stream_parser R140). -/
  | hasToken
  /-- TAKE_TOKEN (41_stream_parser R141). -/
  | takeToken
  /-- SEQ_LE (42_seqcmp R160). -/
  | seqLe (a b : Half)
  /-- SEQ_LT (42_seqcmp R161). -/
  | seqLt (a b : Half)
  /-- SEQ_NEXT (42_seqcmp R165). -/
  | seqNext (d : Byte)
  /-- CLZ256 (43_pow_clz R170). -/
  | clz256 (digest : Bytes)
  /-- VERIFY (43_pow_clz R175, 30_encoding R90); an assembled header holds its nonce, so no candidate is read for it. -/
  | verify (w : HeaderSource) (cand : CandidateNonce)
  /-- CLASSIFY (43_pow_clz R178). -/
  | classify (zeroBits : Nat) (difficulty : Byte)
  /-- CYCLE (44_scheduler R190); its draws stand in the state. -/
  | cycle (now throttle : Nat) (cancel : Bool) (rx : Rx)
  /-- CYCLE.INIT_TICK (44_scheduler R191). -/
  | cycleInitTick (now : Nat)
  /-- CYCLE.INITACK_OK (44_scheduler R195). -/
  | cycleInitAckOk (ia : InitAck)
  /-- CYCLE.INITACK_FAIL (44_scheduler R196). -/
  | cycleInitAckFail (ia : InitAck)
  /-- CYCLE.NONCE_REPORT (44_scheduler R199). -/
  | cycleNonceReport (nr : NonceReport) (now : Nat)
  /-- CYCLE.STATUS_THERMAL (44_scheduler R205). -/
  | cycleStatusThermal (st : StatusReport)
  /-- CYCLE.STATUS_RECONCILE (44_scheduler R207). -/
  | cycleStatusReconcile (st : StatusReport)
  /-- CYCLE.ISSUE_ALL (44_scheduler R211). -/
  | cycleIssueAll (now throttle : Nat)
  /-- CYCLE.ISSUE_ONE (44_scheduler R213). -/
  | cycleIssueOne (d c : Byte) (now : Nat)
  /-- CYCLE.REPORT_TICK (44_scheduler R216). -/
  | cycleReportTick (now : Nat)
  /-- CYCLE.TERMINATE (44_scheduler R219). -/
  | cycleTerminate (reason : TermReason)
  /-- SESSION_RESET (70_reset_and_hazards R271). -/
  | sessionReset
  /-- SEND (45_transport R232). -/
  | send (b : Bytes)
  deriving DecidableEq, Repr

end Sys2Proof
end

