-- ==== Sys2Proof/Config.lean ====
section
/-! DEFINITION. What an implementation fixes: the configuration record `CFG` of 00_scope R5, and the functions of which
nothing is known: the two external ones of 43_pow_clz R176 and R177, and the check-byte functions that are no CRC-8.

The parameters of R5 that the source fixes (`MARKER`, the intervals) are plain definitions in Decode.lean and
Machine/Ops.lean. The record itself stands in the state (`State.cfg`), so that a claim about every state is a claim
about every configuration; the default values of R5 are `defaultCfg` in Decode.lean, the constraints of R6 `Cfg.wf`
there. -/

namespace Sys2Proof

/-- The open points of a CRC-8 (91_not_in_source N1): polynomial, initial value, bit order, reflection, final XOR. -/
structure CrcParams where
  poly   : Byte
  init   : Byte
  refIn  : Bool
  refOut : Bool
  xorOut : Byte
  deriving DecidableEq, Repr

/-- `CFG.crc8`, "function from 6 bytes to 1 byte" (00_scope R5), named by plain data: a CRC-8, or any other function,
of which nothing but its number is known (`Config.otherCrc8`). DESIGN CHOICE: the naming (log 4). -/
inductive Crc8Fn where
  | family (k : CrcParams)
  | other (n : Nat)
  deriving DecidableEq, Repr

/-- The two readings of the throttle number (44_scheduler R212). -/
inductive ThrottleMode where
  | keepFirst
  | dropLast
  deriving DecidableEq, Repr

/-- The configuration record of 00_scope R5, its fields in the rule's order. `none` in a bound or a width is
"unbounded". -/
structure Cfg where
  crc            : Crc8Fn
  opHash         : Byte
  opNonce        : Byte
  opStatus       : Byte
  opInit         : Byte
  opInitAck      : Byte
  opShutdown     : Byte
  opNotice       : Byte
  knownOpcodes   : List Byte
  broadcastAddr  : Byte
  stThermalBit   : Nat
  stTachLo       : Nat
  stTachW        : Nat
  monLen         : Nat
  monTempOff     : Nat
  monVOff        : Nat
  stBitmapOff    : Nat
  iaFwOff        : Nat
  iaHwOff        : Nat
  iaSerialOff    : Nat
  iaStatusOff    : Nat
  iaFixedLen     : Nat
  iaBitmapOff    : Nat
  ntOffMask      : Half
  ntSearchBit    : Nat
  jobPad         : Nat
  testDifficulty : Byte
  maxSendSize    : Nat
  maxRecvSize    : Nat
  garbageCap     : Option Nat
  tokenFifoDepth : Option Nat
  throttleMode   : ThrottleMode
  ctrW           : Option Nat
  initFields     : FrameBody
  shutdownFields : FrameBody
  deriving DecidableEq, Repr

/-- A payload a frame can carry: a multiple of 4 bytes, at most 1020 (10_state R11). -/
def payloadOk (data : Bytes) : Bool :=
  data.length % 4 == 0 && decide (data.length ≤ 1020)

/-- The check-byte functions that are no CRC-8, by number (00_scope R5, 40_crc8_codec R100): nothing is known of them,
so that a claim over every number is one over every function. -/
opaque Config.otherCrc8 : Nat → Bytes → Byte

/-- `regen_hash`, the external hash of an 80-byte header (43_pow_clz R176): a function and nothing more. -/
opaque Config.regenHash : Bytes → Vector Byte 32

/-- Bytes 0 to 75 of `header_of(rec, cand)` (43_pow_clz R177): the source does not say how they are made. -/
opaque Config.headerFirst76 : WorkRecord → CandidateNonce → Vector Byte 76

end Sys2Proof
end

