-- ==== Sys2Proof/WellFormed.lean ====
section
/-! DEFINITION. Which terms of the syntax are well-formed: the operand values the spec gives each row. A check a
type already makes (a field's width) does not stand here. -/

namespace Sys2Proof

/-- The opcode bytes that name a row of spec/opcode_table.json (30_encoding R64). -/
def tableOpcodes : List Byte :=
  [0, 1, 2, 3, 4, 5, 6, 7, 8, 9, 10, 11, 12, 13, 14, 15, 16, 17,
   128, 129, 130, 131, 132, 133, 134, 135, 136, 137, 138, 139, 140, 141, 142, 143, 144]

/-- The frame a frame row stands for: its direction, opcode byte and body; `none` for an operation. -/
def Instr.frameParts : Instr → Option (Dir × Byte × FrameBody)
  | .frame d op b => some (d, op, b)
  | .opNull d b => some (d, 0, b)
  | .opRoot d b => some (d, 1, b)
  | .opReset d b => some (d, 2, b)
  | .opPllConfig d b => some (d, 3, b)
  | .opAddress d b => some (d, 4, b)
  | .opReaddress d b => some (d, 5, b)
  | .opHighest d b => some (d, 6, b)
  | .opBaud d b => some (d, 7, b)
  | .opUnroot d b => some (d, 8, b)
  | .opHash d b => some (d, 9, b)
  | .opNonce d b => some (d, 10, b)
  | .opAbort d b => some (d, 11, b)
  | .opStatus d b => some (d, 12, b)
  | .opGpio d b => some (d, 13, b)
  | .opConfig d b => some (d, 14, b)
  | .opStatistics d b => some (d, 15, b)
  | .opGroup d b => some (d, 16, b)
  | .opClockgate d b => some (d, 17, b)
  | .opInit d b => some (d, 128, b)
  | .opGetTrace d b => some (d, 129, b)
  | .opLoopbackUsb d b => some (d, 130, b)
  | .opLoopbackUart d b => some (d, 131, b)
  | .opDfu d b => some (d, 132, b)
  | .opShutdown d b => some (d, 133, b)
  | .opDieStatus d b => some (d, 134, b)
  | .opGwqStatus d b => some (d, 135, b)
  | .opWorkRestart d b => some (d, 136, b)
  | .opUsbStats1 d b => some (d, 137, b)
  | .opUsbGwqstats d b => some (d, 138, b)
  | .opNotice d b => some (d, 139, b)
  | .opPing d b => some (d, 140, b)
  | .opCoreMap d b => some (d, 141, b)
  | .opVersion d b => some (d, 142, b)
  | .opFan d b => some (d, 143, b)
  | .opName d b => some (d, 144, b)
  | .frameUnknown d op b => some (d, op, b)
  | .crc8 _ => none
  | .encode _ _ _ _ _ => none
  | .decode _ => none
  | .decodeBase _ => none
  | .decorate _ => none
  | .feed _ => none
  | .feedByteOutOfSync _ => none
  | .feedByteHeaderBody _ => none
  | .feedByteHeaderCrcFail _ => none
  | .feedByteHeaderCrcOk _ => none
  | .feedByteData _ => none
  | .feedByteNextFrame _ => none
  | .hasToken => none
  | .takeToken => none
  | .seqLe _ _ => none
  | .seqLt _ _ => none
  | .seqNext _ => none
  | .clz256 _ => none
  | .verify _ _ => none
  | .classify _ _ => none
  | .cycle _ _ _ _ => none
  | .cycleInitTick _ => none
  | .cycleInitAckOk _ => none
  | .cycleInitAckFail _ => none
  | .cycleNonceReport _ _ => none
  | .cycleStatusThermal _ => none
  | .cycleStatusReconcile _ => none
  | .cycleIssueAll _ _ => none
  | .cycleIssueOne _ _ _ => none
  | .cycleReportTick _ => none
  | .cycleTerminate _ => none
  | .sessionReset => none
  | .send _ => none

/-- The payload of a frame operand fits a frame (10_state R11). -/
def bodyOk (b : FrameBody) : Bool := payloadOk b.data

/-- Well-formedness, every constructor named. Frames: a payload of 0 to 1020 bytes, a multiple of 4 (10_state
R11); FRAME.UNKNOWN: an opcode of no other row (30_encoding R66); DECORATE: a frame's payload; CLZ256: 32 bytes
(43_pow_clz R170); CLASSIFY: a count of 0 to 256 (R178); the acknowledgement and status rows: the case their rule is
for (44_scheduler R195, R196, R205, R206). -/
def Instr.wf : Instr → Bool
  | .frame _ _ b => bodyOk b
  | .opNull _ b => bodyOk b
  | .opRoot _ b => bodyOk b
  | .opReset _ b => bodyOk b
  | .opPllConfig _ b => bodyOk b
  | .opAddress _ b => bodyOk b
  | .opReaddress _ b => bodyOk b
  | .opHighest _ b => bodyOk b
  | .opBaud _ b => bodyOk b
  | .opUnroot _ b => bodyOk b
  | .opHash _ b => bodyOk b
  | .opNonce _ b => bodyOk b
  | .opAbort _ b => bodyOk b
  | .opStatus _ b => bodyOk b
  | .opGpio _ b => bodyOk b
  | .opConfig _ b => bodyOk b
  | .opStatistics _ b => bodyOk b
  | .opGroup _ b => bodyOk b
  | .opClockgate _ b => bodyOk b
  | .opInit _ b => bodyOk b
  | .opGetTrace _ b => bodyOk b
  | .opLoopbackUsb _ b => bodyOk b
  | .opLoopbackUart _ b => bodyOk b
  | .opDfu _ b => bodyOk b
  | .opShutdown _ b => bodyOk b
  | .opDieStatus _ b => bodyOk b
  | .opGwqStatus _ b => bodyOk b
  | .opWorkRestart _ b => bodyOk b
  | .opUsbStats1 _ b => bodyOk b
  | .opUsbGwqstats _ b => bodyOk b
  | .opNotice _ b => bodyOk b
  | .opPing _ b => bodyOk b
  | .opCoreMap _ b => bodyOk b
  | .opVersion _ b => bodyOk b
  | .opFan _ b => bodyOk b
  | .opName _ b => bodyOk b
  | .frameUnknown _ op b => !tableOpcodes.contains op && bodyOk b
  | .crc8 _ => true
  | .encode _ _ _ _ _ => true
  | .decode _ => true
  | .decodeBase _ => true
  | .decorate f => payloadOk f.data
  | .feed _ => true
  | .feedByteOutOfSync _ => true
  | .feedByteHeaderBody _ => true
  | .feedByteHeaderCrcFail _ => true
  | .feedByteHeaderCrcOk _ => true
  | .feedByteData _ => true
  | .feedByteNextFrame _ => true
  | .hasToken => true
  | .takeToken => true
  | .seqLe _ _ => true
  | .seqLt _ _ => true
  | .seqNext _ => true
  | .clz256 digest => digest.length == 32
  | .verify _ _ => true
  | .classify z _ => decide (z ≤ 256)
  | .cycle _ _ _ _ => true
  | .cycleInitTick _ => true
  | .cycleInitAckOk ia => ia.opStatus == 0
  | .cycleInitAckFail ia => ia.opStatus != 0
  | .cycleNonceReport _ _ => true
  | .cycleStatusThermal st => st.thermal
  | .cycleStatusReconcile st => !st.thermal
  | .cycleIssueAll _ _ => true
  | .cycleIssueOne _ _ _ => true
  | .cycleReportTick _ => true
  | .cycleTerminate _ => true
  | .sessionReset => true
  | .send _ => true

end Sys2Proof
end

