-- ==== Sys2Proof/Decode.lean ====
section
/-! DEFINITION. Bytes to instructions and back: byte order (20_memory R41), the check byte (40_crc8_codec R100), the
wire form of a frame (30_encoding R60), `DECODE_BASE` (R111), `ENCODE` (R105), the decoder of frame rows, total on any
bytes and rejecting by name, and its encoder. The defaults of the configuration record stand here too.

The operations have no binary encoding (30_encoding R90): `encode` answers `none` for them, and no byte string
decodes to one. -/

namespace Sys2Proof

/-! ## Byte order -/

/-- Byte `i` of a byte string; `0x00` beyond its end, which no rule reads but for bitmaps (30_encoding R76, R78). -/
def byteAt (b : Bytes) (i : Nat) : Byte := b.getD i 0

/-- `le16(b, i)` (00_scope R7). -/
def le16 (b : Bytes) (i : Nat) : Half := byteAt b (i + 1) ++ byteAt b i

/-- `le32(b, i)` (00_scope R7). -/
def le32 (b : Bytes) (i : Nat) : Word := byteAt b (i + 3) ++ byteAt b (i + 2) ++ byteAt b (i + 1) ++ byteAt b i

/-- `to_le16(v)` (00_scope R7). -/
def toLe16 (v : Half) : Bytes := [v.extractLsb' 0 8, v.extractLsb' 8 8]

/-- `to_le32(v)` (00_scope R7). -/
def toLe32 (v : Word) : Bytes := [v.extractLsb' 0 8, v.extractLsb' 8 8, v.extractLsb' 16 8, v.extractLsb' 24 8]

/-- Bit `k` of a packed bitmap: bit `k mod 8` of byte `k div 8`, least significant first (20_memory R42); a bit whose
byte lies beyond the end reads 0 (30_encoding R76, R78). -/
def bitAt (m : Bytes) (k : Nat) : Bool := (byteAt m (k / 8)).getLsbD (k % 8)

/-! ## The check byte -/

/-- `MARKER`, the first wire byte of every frame (00_scope R5). -/
def marker : Byte := 0xAA

/-- One shift of the CRC register (40_crc8_codec R100). -/
def crcShift (poly c : Byte) : Byte := if c.getLsbD 7 then (c <<< 1) ^^^ poly else c <<< 1

/-- `crcShift` taken `n` times. -/
def crcShifts (poly : Byte) : Nat → Byte → Byte
  | 0, c => c
  | n + 1, c => crcShifts poly n (crcShift poly c)

/-- The bits of a byte in the other order. -/
def reflect (b : Byte) : Byte :=
  (List.range 8).foldl (fun acc i => (acc <<< 1) ||| (if b.getLsbD i then 1 else 0)) 0

/-- The CRC register after the bytes `h`, from the register `c`. -/
def crcRegister (k : CrcParams) (c : Byte) (h : Bytes) : Byte :=
  h.foldl (fun c x => crcShifts k.poly 8 (c ^^^ (if k.refIn then reflect x else x))) c

/-- The CRC-8 with the given parameters (40_crc8_codec R100). -/
def crcFamily (k : CrcParams) (h : Bytes) : Byte :=
  let r := crcRegister k k.init h
  (if k.refOut then reflect r else r) ^^^ k.xorOut

/-- `CRC8(h)`, the function `CFG.crc8` (40_crc8_codec R100). -/
def crc8 (f : Crc8Fn) (h : Bytes) : Byte :=
  match f with
  | .family k => crcFamily k h
  | .other n => Config.otherCrc8 n h

/-- The six bytes of a header under the check, in wire order (30_encoding R62). -/
def headerBytes (h : Header) : Bytes := [h.opcode, h.chip, h.core, h.hdataLo, h.hdataHi, h.len]

/-! ## The wire form of a frame -/

/-- `length_field` of a payload, `len(data)/4` in one byte (30_encoding R61). -/
def lengthField (data : Bytes) : Byte := BitVec.ofNat 8 (data.length / 4)

/-- Bytes 1 to 6 of the frame with opcode `op` and body `b` (30_encoding R60). -/
def coveredBytes (op : Byte) (b : FrameBody) : Bytes :=
  [op, b.chip, b.core] ++ toLe16 b.hdata ++ [lengthField b.data]

/-- The wire bytes of a frame: marker, the six covered bytes, the check byte, the payload (30_encoding R60). -/
def wireBytes (k : Crc8Fn) (op : Byte) (b : FrameBody) : Bytes :=
  marker :: coveredBytes op b ++ crc8 k (coveredBytes op b) :: b.data

/-- The fields of a frame held in `b`, read by position and checked by nothing (30_encoding R63). -/
def frameOfBytes (b : Bytes) : Frame where
  opcode := byteAt b 1
  chip   := byteAt b 2
  core   := byteAt b 3
  hdata  := le16 b 4
  data   := b.drop 8
  crc8   := byteAt b 7

/-- Bytes 1 to 6 of a buffer, `b[1..7]`. -/
def bytes1to6 (b : Bytes) : Bytes := (b.drop 1).take 6

/-- `DECODE_BASE(b)` (40_crc8_codec R111), its four tests in the order of 60_exceptions R242. -/
def frameDecode (k : Crc8Fn) (b : Bytes) : Except FramingReason Frame :=
  if b.length < 8 then .error .short
  else if byteAt b 0 ≠ marker then .error .badMarker
  else if crc8 k (bytes1to6 b) ≠ byteAt b 7 then .error .badCrc
  else if b.length ≠ 8 + 4 * (byteAt b 6).toNat then .error .badLength
  else .ok (frameOfBytes b)

/-- `ENCODE(opcode, chip, core, hdata, data)` (40_crc8_codec R105), its six tests in the order of 60_exceptions
R244. -/
def frameEncode (c : Cfg) (opcode chip core hdata : Int) (data : Bytes) : Except ValidationReason Bytes :=
  if ¬ ∃ o ∈ c.knownOpcodes, (o.toNat : Int) = opcode then .error .badOpcode
  else if chip < 0 ∨ 255 < chip then .error .badChip
  else if core < 0 ∨ 255 < core then .error .badCore
  else if hdata < 0 ∨ 65535 < hdata then .error .badHdata
  else if data.length % 4 ≠ 0 then .error .badDataAlign
  else if 1020 < data.length then .error .badDataLen
  else .ok (wireBytes c.crc (BitVec.ofInt 8 opcode)
    { chip := BitVec.ofInt 8 chip, core := BitVec.ofInt 8 core, hdata := BitVec.ofInt 16 hdata, data := data })

/-! ## Frame rows -/

/-- The row of spec/opcode_table.json that an opcode byte names (30_encoding R64); a byte that names none is
FRAME.UNKNOWN (R66). -/
def frameInstr (d : Dir) (op : Byte) (b : FrameBody) : Instr :=
  match op.toNat with
  | 0 => .opNull d b
  | 1 => .opRoot d b
  | 2 => .opReset d b
  | 3 => .opPllConfig d b
  | 4 => .opAddress d b
  | 5 => .opReaddress d b
  | 6 => .opHighest d b
  | 7 => .opBaud d b
  | 8 => .opUnroot d b
  | 9 => .opHash d b
  | 10 => .opNonce d b
  | 11 => .opAbort d b
  | 12 => .opStatus d b
  | 13 => .opGpio d b
  | 14 => .opConfig d b
  | 15 => .opStatistics d b
  | 16 => .opGroup d b
  | 17 => .opClockgate d b
  | 128 => .opInit d b
  | 129 => .opGetTrace d b
  | 130 => .opLoopbackUsb d b
  | 131 => .opLoopbackUart d b
  | 132 => .opDfu d b
  | 133 => .opShutdown d b
  | 134 => .opDieStatus d b
  | 135 => .opGwqStatus d b
  | 136 => .opWorkRestart d b
  | 137 => .opUsbStats1 d b
  | 138 => .opUsbGwqstats d b
  | 139 => .opNotice d b
  | 140 => .opPing d b
  | 141 => .opCoreMap d b
  | 142 => .opVersion d b
  | 143 => .opFan d b
  | 144 => .opName d b
  | _ => .frameUnknown d op b

/-- The decoder: `DECODE_BASE`, then the row of the opcode. The wire carries no direction: what is decoded was
received (30_encoding R65). -/
def decode (k : Crc8Fn) (b : Bytes) : Except FramingReason Instr :=
  match frameDecode k b with
  | .error e => .error e
  | .ok f => .ok (frameInstr .rx f.opcode { chip := f.chip, core := f.core, hdata := f.hdata, data := f.data })

/-- The encoder: the wire bytes of a frame row, either direction; `none` for an operation (30_encoding R90). -/
def encode (k : Crc8Fn) (i : Instr) : Option Bytes :=
  match i.frameParts with
  | some (_, op, b) => some (wireBytes k op b)
  | none => none

/-! ## The defaults of the configuration record -/

/-- The default CRC-8: polynomial `0x07`, preset `0xFF`, no reflection, no final XOR (40_crc8_codec R100). PRESUMED
by the spec from general knowledge (92 D2). -/
def defaultCrc : Crc8Fn := .family { poly := 0x07, init := 0xFF, refIn := false, refOut := false, xorOut := 0 }

/-- The default `CFG` of 00_scope R5. `knownOpcodes` is the table of 30_encoding R64. DESIGN CHOICE: the OPEN fields
`testDifficulty`, `maxSendSize`, `maxRecvSize` take the values of the programs of 95_test_vectors (log 5). -/
def defaultCfg : Cfg where
  crc            := defaultCrc
  opHash         := 9
  opNonce        := 10
  opStatus       := 12
  opInit         := 128
  opInitAck      := 128
  opShutdown     := 133
  opNotice       := 139
  knownOpcodes   := tableOpcodes
  broadcastAddr  := 0xFF
  stThermalBit   := 7
  stTachLo       := 0
  stTachW        := 4
  monLen         := 8
  monTempOff     := 0
  monVOff        := 2
  stBitmapOff    := 8
  iaFwOff        := 0
  iaHwOff        := 2
  iaSerialOff    := 4
  iaStatusOff    := 8
  iaFixedLen     := 32
  iaBitmapOff    := 32
  ntOffMask      := 0x0FFF
  ntSearchBit    := 12
  jobPad         := 0
  testDifficulty := 8
  maxSendSize    := 1028
  maxRecvSize    := 1028
  garbageCap     := none
  tokenFifoDepth := none
  throttleMode   := .keepFirst
  ctrW           := none
  initFields     := {}
  shutdownFields := {}

/-! ## The constraints of the configuration record -/

/-- "`crc8(h xor e) != crc8(h)` for every 48-bit `e` with exactly one bit set" (00_scope R6, 40_crc8_codec R102). -/
def Crc8Fn.detects (f : Crc8Fn) : Prop :=
  ∀ (h : Bytes) (i j : Nat), h.length = 6 → i < 6 → j < 8 →
    crc8 f (h.set i (byteAt h i ^^^ BitVec.ofNat 8 (2 ^ j))) ≠ crc8 f h

/-- The constraints of 00_scope R6 but the one on `crc8`. -/
def Cfg.bounds (c : Cfg) : Bool :=
  decide ([c.opNonce, c.opStatus, c.opInitAck, c.opNotice].Nodup)
  && [c.opHash, c.opNonce, c.opStatus, c.opInit, c.opInitAck, c.opShutdown, c.opNotice].all
      (fun o => decide (o ∈ c.knownOpcodes))
  && decide (1 ≤ c.maxSendSize) && decide (1 ≤ c.maxRecvSize)
  && (match c.garbageCap with | none => true | some n => decide (2 ≤ n))
  && (match c.tokenFifoDepth with | none => true | some n => decide (1 ≤ n))
  && c.jobPad % 4 == 0 && decide (60 + c.jobPad ≤ 1020)

/-- The constraints every `CFG` must meet (00_scope R6). -/
def Cfg.wf (c : Cfg) : Prop := c.bounds = true ∧ c.crc.detects

/-- What the layout parameters must meet for their rules to make sense, which R6 does not list: the fields lie inside
the byte they are read from (30_encoding R72, R74), the fixed fields inside the part of the payload whose length is
checked (R75, R77), and the payloads of the two fixed frames are payloads of frames (10_state R11). DEDUCED (log 32). -/
def Cfg.layoutOk (c : Cfg) : Bool :=
  decide (c.stThermalBit < 8) && decide (c.stTachLo + c.stTachW ≤ 8)
  && decide (c.monTempOff + 2 ≤ c.monLen) && decide (c.monVOff + 6 ≤ c.monLen)
  && decide (c.iaFwOff + 2 ≤ c.iaFixedLen) && decide (c.iaHwOff + 2 ≤ c.iaFixedLen)
  && decide (c.iaSerialOff + 4 ≤ c.iaFixedLen) && decide (c.iaStatusOff + 1 ≤ c.iaFixedLen)
  && decide (c.ntSearchBit < 16)
  && payloadOk c.initFields.data && payloadOk c.shutdownFields.data

/-! ## Words of the opcode table -/

/-- The first `n` bytes of a word of `n` bytes, the most significant first: the table's 64-bit view has byte 0 in
bits 63:56 (30_encoding R60). -/
def wordBytes : Nat → Nat → Bytes
  | 0, _ => []
  | n + 1, w => BitVec.ofNat 8 (w / 256 ^ n) :: wordBytes n w

/-- The bytes of a table word, zeros after its bits: the 8 header bytes, then the payload the length byte declares. -/
def paddedBytes (nbits w : Nat) : Bytes :=
  let b := wordBytes (nbits / 8) w
  let h := b ++ List.replicate (8 - b.length) 0
  h ++ List.replicate (8 + 4 * (byteAt h 6).toNat - h.length) 0

/-- The bytes of a table word as they stand on the wire. The table gives the check byte no value ("derived from the
other fields, never supplied by a caller", 10_state R11): a word whose check byte is `0x00` has it filled in; any
other check byte stands as it is. DESIGN CHOICE (log 3). -/
def tableBytes (k : Crc8Fn) (nbits w : Nat) : Bytes :=
  let b := paddedBytes nbits w
  if byteAt b 7 = 0 then b.set 7 (crc8 k (bytes1to6 b)) else b

/-- The instruction the decoder reads from the word `w` of an opcode-table row, under the default configuration. -/
def decodeTableWord (nbits w : Nat) : Option Instr :=
  match decode defaultCfg.crc (tableBytes defaultCfg.crc nbits w) with
  | .ok i => some i
  | .error _ => none

end Sys2Proof
end

