-- ==== Sys2Proof/Machine/State.lean ====
section
/-! DEFINITION. The state of the frame block, all of it plain data (10_state R18 to R29, R37), the outputs of its
operations, the requests the host has placed, the reasons a step can stop, and the state right after reset. -/

namespace Sys2Proof.Machine

/-! ## PARSER -/

/-- `P.pstate` (10_state R18). -/
inductive PState where
  | outOfSync
  | parsingHeader
  | parsingData
  | nextFrame
  deriving DecidableEq, Repr

/-- The parser's state (10_state R18 to R22). -/
structure Parser where
  pstate : PState
  acc    : Bytes
  need   : Nat
  queue  : List Token
  crcErr : Nat
  deriving DecidableEq, Repr

/-! ## Session -/

/-- `S.sstate` (10_state R24). -/
inductive SState where
  | starting
  | running
  | terminated
  deriving DecidableEq, Repr

/-- `S.die[d]` (10_state R29). `work` is kept with its keys strictly rising (`workOk` in Ops.lean); `coreSeq` is
indexed by the core. -/
structure DieState where
  seqNext     : Half
  work        : List (Half × WorkRecord)
  coreSeq     : List (Option Half)
  lastSeqSeen : Option Half
  freeActive  : List Byte
  freePending : List Byte
  thermal     : Bool
  monitor     : Option Monitor
  deriving DecidableEq, Repr

/-- The session's state (10_state R24 to R29). -/
structure Session where
  sstate        : SState
  dies          : Byte
  cores         : Byte
  fwRev         : Half
  hwRev         : Half
  serial        : Word
  coreOk        : List (List Bool)
  lastInitTx    : Option Nat
  lastReport    : Option Nat
  errUnknownSeq : Nat
  errBadNonce   : Nat
  errBadDie     : Nat
  errProtocol   : Nat
  goodNonces    : Nat
  totalHashes   : Nat
  firstGood     : Option Nat
  termReason    : Option TermReason
  die           : List DieState
  deriving DecidableEq, Repr

/-! ## Outputs of the operations -/

/-- The error results an operation can end with (60_exceptions R240): E1, E2, E4, E5, E6. E3, the thermal fault, is
a termination reason and no operation's result. -/
inductive OpError where
  /-- E1 -/
  | framing (r : FramingReason)
  /-- E2: its code and "the base frame" -/
  | protocol (c : ProtoCode) (base : Frame)
  /-- E4 -/
  | transport
  /-- E5 -/
  | validation (r : ValidationReason)
  /-- E6 -/
  | internalConsistency
  deriving DecidableEq, Repr

/-- The outcome of a cycle (44_scheduler R186): `Continue`, or `Terminated(S.term_reason)`. -/
inductive CycleOutcome where
  | goOn
  | terminated (reason : Option TermReason)
  deriving DecidableEq, Repr

/-- What an operation gives back to its caller (30_encoding R90, column "outputs"). -/
inductive Result where
  /-- nothing to return -/
  | unit
  | byte (b : Byte)
  | bytes (b : Bytes)
  | frame (f : Frame)
  | variant (v : Variant)
  | bit (b : Bool)
  | token (t : Option Token)
  | sequence (n : Half)
  | zeroBits (n : Nat)
  | verified (zeroBits : Nat) (digest : Bytes)
  | outcome (o : CycleOutcome)
  /-- `raise <Error>(info)` (00_scope R8): the operation ended with this error -/
  | raised (e : OpError)
  /-- the bytes a full parser has not accepted, which wait in `State.waiting` (41_stream_parser R131) -/
  | stalled (rest : Bytes)
  deriving DecidableEq, Repr

/-- One event of the log trace (60_exceptions R262). The figure of `hashRate` is the pair (total hashes, elapsed
ms), or nothing where the rate is undefined (44_scheduler R203). -/
inductive LogEvent where
  | unknownFrame (opcode : Byte)
  | garbage (n : Nat)
  | initAckWhileRunning
  | protoErr (c : ProtoCode)
  | badDie (d : Byte)
  | hashRate (rate : Option (Nat × Nat))
  | terminated (reason : TermReason)
  deriving DecidableEq, Repr

/-- One call of the transport's `send` (45_transport R230): the bytes handed over, and whether it reported success. -/
structure SendCall where
  bytes : Bytes
  ok    : Bool
  deriving DecidableEq, Repr

/-! ## Inputs -/

/-- A sequence of chance values still to be drawn: the next one, then the later ones, of which the last repeats.
Every finite sequence of draws is the beginning of one of these. -/
structure Draw (α : Type) where
  now   : α
  later : List α
  deriving DecidableEq, Repr

/-- The draws of 44_scheduler R189: (a) the jobs, (b) the shuffles, each a code of a permutation (`shuffle` in
Ops.lean), (c) the results of `send`. FREE VALUES: nothing constrains them (log 9). -/
structure Draws where
  jobs     : Draw HashJob
  shuffles : Draw (List Nat)
  sends    : Draw Bool
  deriving DecidableEq, Repr

/-- What the host has placed for the block to do next: an operation it invokes, or a run of bytes that arrives from
the device (30_encoding R90; log 1). -/
inductive Request where
  | call (i : Instr)
  | wire (b : Bytes)
  deriving DecidableEq, Repr

/-- The state of the machine. `cfg`, `par` and `ses` are the spec's; the other fields are the model's inputs and
outputs. -/
structure State where
  /-- `CFG` (00_scope R5); no step changes it (20_memory R54) -/
  cfg     : Cfg
  /-- the parser, `P.*` -/
  par     : Parser
  /-- the session, `S.*` -/
  ses     : Session
  /-- requests still to be taken, oldest first -/
  calls   : List Request
  /-- bytes handed to the parser and not accepted yet, its token queue being full; they go before all others
  (41_stream_parser R131: "no byte is ever dropped"; log 19) -/
  waiting : Bytes
  /-- chance values still to be drawn -/
  draws   : Draws
  /-- the `now` of the last timed operation (44_scheduler R186) -/
  lastNow : Option Nat
  /-- what the last operation returned -/
  result  : Result
  /-- the `send` calls made, oldest first -/
  sent    : List SendCall
  /-- the log trace, oldest first -/
  log     : List LogEvent
  deriving DecidableEq, Repr

/-! ## Why a step can stop -/

/-- The faults of a step. Each is SAFE: the model stops where the spec gives no effect, so no false claim about an
effect can be proved from it. -/
inductive Fault where
  /-- raised by SEQ_NEXT and CYCLE.ISSUE_ONE on a die index that is not below `S.dies` (10_state R35: no such
  DieState exists); safe -/
  | noSuchDie
  /-- raised by CYCLE.ISSUE_ONE on a core index that is not below `S.cores` (10_state R35); safe -/
  | noSuchCore
  deriving DecidableEq, Repr

/-- The refusals of a step. Each is SAFE: the input is one the spec puts outside the block. -/
inductive Refusal where
  /-- raised by an arm of `exec` whose instruction has no meaning yet; safe -/
  | notModelled (mnemonic : String)
  /-- raised by a timed operation whose `now` is below the previous one (93 U19: refuse); safe -/
  | timeWentBack
  /-- raised by CLZ256 on a digest that is not 32 bytes long (93 U20: refuse); safe -/
  | digestNot32Bytes
  /-- raised by a frame row to be received, and by DECORATE, on a payload no frame can carry (30_encoding R66:
  "cannot be represented"); safe -/
  | notAFrame
  /-- raised by a step whose request is a step of CYCLE by itself (30_encoding R90: "not separately invocable"); safe -/
  | notInvocable
  deriving DecidableEq, Repr

/-- What a step answers. -/
abbrev StepOutcome := Host.Outcome State Fault Refusal

/-! ## Reset -/

/-- The parser after hardware reset (10_state R37). `need`: the spec says "model it as 0" (log 11). -/
def Parser.reset : Parser where
  pstate := .outOfSync
  acc    := []
  need   := 0
  queue  := []
  crcErr := 0

/-- The session after hardware reset (10_state R37). `fwRev`, `hwRev`, `serial`: unspecified, 0 (log 11). -/
def Session.reset : Session where
  sstate        := .starting
  dies          := 0
  cores         := 0
  fwRev         := 0
  hwRev         := 0
  serial        := 0
  coreOk        := []
  lastInitTx    := none
  lastReport    := none
  errUnknownSeq := 0
  errBadNonce   := 0
  errBadDie     := 0
  errProtocol   := 0
  goodNonces    := 0
  totalHashes   := 0
  firstGood     := none
  termReason    := none
  die           := []

/-- A job of zeros, the model's first draw at reset (DESIGN CHOICE, log 9). -/
def HashJob.zero : HashJob where
  midstate         := Vector.replicate 32 0
  merkleResidual   := Vector.replicate 4 0
  timestamp        := 0
  bits             := 0
  startingNonce    := 0
  nonceLoops       := 0
  ntimeLoops       := 0
  searchDifficulty := 0
  option           := 0
  group            := 0
  spare            := Vector.replicate 3 0

/-- The draws in the reset state: zero jobs, identity shuffles, successful sends (DESIGN CHOICE, log 9; no statement
rests on them). -/
def Draws.reset : Draws where
  jobs     := ⟨HashJob.zero, []⟩
  shuffles := ⟨[], []⟩
  sends    := ⟨true, []⟩

/-- The machine right after reset (70_reset_and_hazards R270, 10_state R37). -/
def State.reset : State where
  cfg     := defaultCfg
  par     := Parser.reset
  ses     := Session.reset
  calls   := []
  waiting := []
  draws   := Draws.reset
  lastNow := none
  result  := .unit
  sent    := []
  log     := []

/-! ## Named updates, one per field a step writes -/

/-- The state with the parser replaced. -/
def State.withPar (s : State) (p : Parser) : State := { s with par := p }

/-- The state with the session replaced. -/
def State.withSes (s : State) (x : Session) : State := { s with ses := x }

/-- The state with the requests replaced. -/
def State.withCalls (s : State) (c : List Request) : State := { s with calls := c }

/-- The state with the bytes that wait for the parser replaced. -/
def State.withWaiting (s : State) (b : Bytes) : State := { s with waiting := b }

/-- The state with the draws replaced. -/
def State.withDraws (s : State) (d : Draws) : State := { s with draws := d }

/-- The state with the time of the last timed operation replaced. -/
def State.withLastNow (s : State) (t : Option Nat) : State := { s with lastNow := t }

/-- The state with the result of the last operation replaced. -/
def State.withResult (s : State) (r : Result) : State := { s with result := r }

/-- The state with the trace of send calls replaced. -/
def State.withSent (s : State) (l : List SendCall) : State := { s with sent := l }

/-- The state with the log trace replaced. -/
def State.withLog (s : State) (l : List LogEvent) : State := { s with log := l }

end Sys2Proof.Machine
end

