-- ==== Sys2Proof/Machine/Flags.lean ====
section
/-! DEFINITION. The one-bit results of the block (10_state R33): the sequence comparators, eligibility, the verdict on
a nonce, and the leading-zero count it is taken from. -/

namespace Sys2Proof.Machine

/-- `SEQ_HALF`, the window of the comparator (00_scope R5). -/
def seqHalf : Nat := 32768

/-- `|a - b|` of the raw values as natural numbers (42_seqcmp R160). -/
def absDiff (a b : Half) : Nat := (a.toNat - b.toNat) + (b.toNat - a.toNat)

/-- `SEQ_LE(a, b)` (42_seqcmp R160). -/
def seqLe (a b : Half) : Bool :=
  if absDiff a b < seqHalf then decide (a.toNat ≤ b.toNat) else decide (b.toNat < a.toNat)

/-- `SEQ_LT(a, b)` (42_seqcmp R161). -/
def seqLt (a b : Half) : Bool := seqLe a b && a != b

/-- `core_seq[c]` of a die: `none` or a sequence (20_memory R49). -/
def coreSeqAt (die : DieState) (c : Byte) : Option Half := die.coreSeq.getD c.toNat none

/-- `eligible(c)` for a report that names `lastSeq` (44_scheduler R207). -/
def eligible (die : DieState) (lastSeq : Half) (c : Byte) : Bool :=
  match coreSeqAt die c with
  | none => true
  | some s => seqLe s lastSeq

/-- `clz8(v)`: the zero bits above the highest set bit of a non-zero byte (43_pow_clz R170). -/
def clz8 (v : Byte) : Nat :=
  if 0x80 ≤ v.toNat then 0 else if 0x40 ≤ v.toNat then 1 else if 0x20 ≤ v.toNat then 2
  else if 0x10 ≤ v.toNat then 3 else if 0x08 ≤ v.toNat then 4 else if 0x04 ≤ v.toNat then 5
  else if 0x02 ≤ v.toNat then 6 else 7

/-- The leading zero bits of a byte string whose first byte is the most significant. -/
def clzScan : Bytes → Nat
  | [] => 0
  | b :: rest => if b = 0 then 8 + clzScan rest else clz8 b

/-- `CLZ256(digest)`: the scan from the highest index down (43_pow_clz R170). -/
def clz256 (digest : Bytes) : Nat := clzScan digest.reverse

/-- `CLASSIFY`: good if and only if the count reaches the search difficulty (43_pow_clz R178). -/
def classify (zeroBits : Nat) (difficulty : Byte) : Bool := decide (difficulty.toNat ≤ zeroBits)

/-- `now - last >= period`, or nothing was done yet (44_scheduler R191, R216). -/
def due (last : Option Nat) (now period : Nat) : Bool :=
  match last with
  | none => true
  | some t => decide (period ≤ now - t)

end Sys2Proof.Machine
end

