-- ==== Sys2Proof/Machine/Operands.lean ====
section
/-! DEFINITION. The payload layouts of 30_encoding R70 to R82 as operand forms: the decoration of inbound frames
(40_crc8_codec R112 to R116), the serialized job, the bitmaps, and the header the validator hashes. -/

namespace Sys2Proof.Machine

/-- The body of a frame (its fields but the opcode and the check byte). -/
def bodyOf (f : Frame) : FrameBody := { chip := f.chip, core := f.core, hdata := f.hdata, data := f.data }

/-- Record `k` of a nonce-report payload (30_encoding R72). DESIGN CHOICE: how `NT_OFF_MASK` selects the offset where it
is not `0x0FFF`, which no rule says: the masked word's low 12 bits, not shifted (log 8). -/
def candidateAt (c : Cfg) (data : Bytes) (k : Nat) : CandidateNonce :=
  let w := le16 data (8 * k + 6)
  { nonce         := le32 data (8 * k)
    sequence      := le16 data (8 * k + 4)
    ntimeOffset   := (w &&& c.ntOffMask).setWidth 12
    searchForward := w.getLsbD c.ntSearchBit }

/-- The records of a nonce-report payload, in payload order (40_crc8_codec R113). -/
def candidates (c : Cfg) (data : Bytes) : List CandidateNonce :=
  (List.range (data.length / 8)).map (candidateAt c data)

/-- The monitor block of a status payload (30_encoding R75). -/
def monitorOf (c : Cfg) (data : Bytes) : Monitor where
  temperature := le16 data c.monTempOff
  voltage := #v[byteAt data c.monVOff, byteAt data (c.monVOff + 1), byteAt data (c.monVOff + 2),
    byteAt data (c.monVOff + 3), byteAt data (c.monVOff + 4), byteAt data (c.monVOff + 5)]

/-- The tachometer sub-field of a status frame's `core_address` (30_encoding R74). -/
def tachOf (c : Cfg) (core : Byte) : Byte := BitVec.ofNat 8 (core.toNat / 2 ^ c.stTachLo % 2 ^ c.stTachW)

/-- The NonceReport decoration (40_crc8_codec R113). -/
def decorateNonce (c : Cfg) (f : Frame) : Except ProtoCode Variant :=
  if f.data.length % 8 ≠ 0 then .error .nonceLen
  else .ok (.nonceReport { base := f, nonces := candidates c f.data })

/-- The StatusReport decoration (40_crc8_codec R114). -/
def decorateStatus (c : Cfg) (f : Frame) : Except ProtoCode Variant :=
  if f.data.length < c.monLen then .error .statusShort
  else .ok (.statusReport
    { base    := f
      thermal := f.core.getLsbD c.stThermalBit
      tach    := tachOf c f.core
      lastSeq := f.hdata
      monitor := monitorOf c f.data
      bitmap  := f.data.drop c.stBitmapOff })

/-- The InitAck decoration (40_crc8_codec R115). -/
def decorateInitAck (c : Cfg) (f : Frame) : Except ProtoCode Variant :=
  if f.data.length < c.iaFixedLen then .error .initAckShort
  else .ok (.initAck
    { base       := f
      dies       := f.chip
      cores      := f.core
      fwRev      := le16 f.data c.iaFwOff
      hwRev      := le16 f.data c.iaHwOff
      serial     := le32 f.data c.iaSerialOff
      opStatus   := byteAt f.data c.iaStatusOff
      coreBitmap := f.data.drop c.iaBitmapOff })

/-- The Notice decoration (40_crc8_codec R116): no payload, the extra word alone, or the word and the text before the
first NUL. -/
def decorateNotice (f : Frame) : Except ProtoCode Variant :=
  if f.data.length = 0 then .ok (.notice { base := f, code := f.hdata, extra := none, message := none })
  else if f.data.length = 4 then
    .ok (.notice { base := f, code := f.hdata, extra := some (le32 f.data 0), message := none })
  else if (0 : Byte) ∈ f.data.drop 4 then
    .ok (.notice { base := f, code := f.hdata, extra := some (le32 f.data 0),
                   message := some ((f.data.drop 4).takeWhile (fun x => x != 0)) })
  else .error .noticeNoNul

/-- `DECORATE(f)`: the variant the opcode alone selects (40_crc8_codec R112). -/
def decorate (c : Cfg) (f : Frame) : Except ProtoCode Variant :=
  if f.opcode = c.opNonce then decorateNonce c f
  else if f.opcode = c.opStatus then decorateStatus c f
  else if f.opcode = c.opInitAck then decorateInitAck c f
  else if f.opcode = c.opNotice then decorateNotice f
  else .ok (.generic f)

/-- The base frame a variant carries (10_state R12). -/
def variantBase : Variant → Frame
  | .generic f => f
  | .nonceReport r => r.base
  | .statusReport r => r.base
  | .initAck r => r.base
  | .notice r => r.base

/-- The token a complete frame becomes: its variant, or a protocol-error record (41_stream_parser R139). -/
def tokenOf (c : Cfg) (f : Frame) : Token :=
  match decorate c f with
  | .ok v => .frame v
  | .error e => .protoErr e f

/-- `serialize(job)`: the eleven fields in order, little-endian, then the pad bytes (30_encoding R70). -/
def jobBytes (c : Cfg) (j : HashJob) : Bytes :=
  j.midstate.toList ++ j.merkleResidual.toList ++ toLe32 j.timestamp ++ toLe32 j.bits ++ toLe32 j.startingNonce
    ++ toLe32 j.nonceLoops ++ toLe16 j.ntimeLoops ++ [j.searchDifficulty, j.option, j.group] ++ j.spare.toList
    ++ List.replicate c.jobPad 0

/-- The body of the hash-job frame `HASH(d, c, s, job)` (30_encoding R71). -/
def hashBody (cfg : Cfg) (d c : Byte) (s : Half) (job : HashJob) : FrameBody :=
  { chip := d, core := c, hdata := s, data := jobBytes cfg job }

/-- The indices `0 .. n-1`, ascending. -/
def indicesBelow (n : Byte) : List Byte := (List.range n.toNat).map (BitVec.ofNat 8)

/-- `act`: the cores whose active slot the activity bitmap shows free (44_scheduler R206). -/
def activeCores (cores : Byte) (bitmap : Bytes) : List Byte :=
  (indicesBelow cores).filter (fun c => bitAt bitmap (2 * c.toNat))

/-- `pen`: the cores whose pending slot the activity bitmap shows free (44_scheduler R206). -/
def pendingCores (cores : Byte) (bitmap : Bytes) : List Byte :=
  (indicesBelow cores).filter (fun c => bitAt bitmap (2 * c.toNat + 1))

/-- `S.core_ok` from the core-availability bitmap: bit `d*cores + c` (30_encoding R78). -/
def coreOkOf (dies cores : Byte) (bitmap : Bytes) : List (List Bool) :=
  (List.range dies.toNat).map (fun d =>
    (List.range cores.toNat).map (fun c => bitAt bitmap (d * cores.toNat + c)))

/-- `header_of(rec, cand)` (43_pow_clz R177): 80 bytes, of which bytes 76 to 79 are the candidate's nonce and the
others are free. -/
def headerOf (w : WorkRecord) (cand : CandidateNonce) : Bytes :=
  (Config.headerFirst76 w cand).toList ++ toLe32 cand.nonce

end Sys2Proof.Machine
end

