-- ==== Sys2Proof/Machine/Ops.lean ====
section
/-! DEFINITION. The named operations every meaning is made of: counters, the log, the draws, the transport boundary
(45_transport R231, R232), the tables (20_memory R49), the fatal path `TERMINATE` (44_scheduler R219, 60_exceptions
R252) and the one way back, `SESSION_RESET` (70_reset_and_hazards R271). -/

namespace Sys2Proof.Machine

/-! ## Counters, log, results -/

/-- A counter after an increment by one: unbounded, or saturating at `2^CTR_W - 1` (42_seqcmp R166). -/
def bump (c : Cfg) (n : Nat) : Nat :=
  match c.ctrW with
  | none => n + 1
  | some w => min (n + 1) (2 ^ w - 1)

/-- `log(kind, args)` (00_scope R8). -/
def State.note (s : State) (e : LogEvent) : State := s.withLog (s.log ++ [e])

/-- The number of an error class, E1 to E6 (60_exceptions R240). -/
def errorNumber : OpError → Nat
  | .framing _ => 1
  | .protocol _ _ => 2
  | .transport => 4
  | .validation _ => 5
  | .internalConsistency => 6

/-- The number of a protocol error, P1 to P4 (60_exceptions R243). -/
def protoNumber : ProtoCode → Nat
  | .nonceLen => 1
  | .statusShort => 2
  | .initAckShort => 3
  | .noticeNoNul => 4

/-- The number of a termination reason, T1 to T5 (60_exceptions R241). -/
def termNumber : TermReason → Nat
  | .thermal _ => 1
  | .cancelled => 2
  | .fault .transport => 3
  | .fault .initFailed => 4
  | .fault .internal => 5

/-- An operation that ends by giving `r` back. -/
def ret (s : State) (r : Result) : StepOutcome := .next (s.withResult r)

/-- The value a cycle returns in this state (44_scheduler R186, R190). -/
def outcomeOf (s : State) : CycleOutcome :=
  if s.ses.sstate = .terminated then .terminated s.ses.termReason else .goOn

/-- A timed operation: a `now` below the previous one is outside the block (44_scheduler R186, 93 U19). -/
def atTime (now : Nat) (s : State) (k : State → StepOutcome) : StepOutcome :=
  match s.lastNow with
  | none => k (s.withLastNow (some now))
  | some t => if now < t then .refused .timeWentBack else k (s.withLastNow (some now))

/-! ## Draws (44_scheduler R189) -/

/-- What is left of a sequence of draws once its next value is taken. -/
def Draw.rest {α : Type} (d : Draw α) : Draw α :=
  match d.later with
  | [] => d
  | a :: l => ⟨a, l⟩

/-- The permutation of `l` that a code names: its first number picks the element that comes first (modulo how many
there are), the next one the second, and so on; where the code ends the rest keeps its order. Every code gives a
permutation and every permutation has a code. -/
def shuffle {α : Type} : List Nat → List α → List α
  | [], l => l
  | k :: ks, l =>
    match l[k % l.length]? with
    | none => []
    | some a => a :: shuffle ks (l.eraseIdx (k % l.length))

/-- The state after a job is drawn. -/
def State.jobDrawn (s : State) : State := s.withDraws { s.draws with jobs := s.draws.jobs.rest }

/-- The state after a shuffle is drawn. -/
def State.shuffleDrawn (s : State) : State := s.withDraws { s.draws with shuffles := s.draws.shuffles.rest }

/-- The state after the result of a `send` is drawn. -/
def State.sendDrawn (s : State) : State := s.withDraws { s.draws with sends := s.draws.sends.rest }

/-! ## The transport boundary -/

/-- The chunks of a message: one if it fits, else pieces of `m` bytes and, where the last is full, an empty one
(45_transport R232). -/
def chunks (m : Nat) (b : Bytes) : List Bytes :=
  if b.length ≤ m then [b]
  else (List.range ((b.length + m - 1) / m)).map (fun i => (b.drop (i * m)).take m)
    ++ (if b.length % m = 0 then [[]] else [])

/-- One call of the transport's `send`: its result is a draw (45_transport R230). -/
def sendCall (chunk : Bytes) (s : State) : State :=
  s.sendDrawn.withSent (s.sent ++ [{ bytes := chunk, ok := s.draws.sends.now }])

/-- `send` of each chunk in order; after a failed one the remaining chunks are not sent (45_transport R231). The
answer says whether all succeeded. -/
def sendChunks : List Bytes → State → State × Bool
  | [], s => (s, true)
  | ch :: rest, s =>
    if s.draws.sends.now then sendChunks rest (sendCall ch s) else (sendCall ch s, false)

/-- `SEND(b)` (45_transport R232). -/
def sendBytes (b : Bytes) (s : State) : State × Bool := sendChunks (chunks s.cfg.maxSendSize b) s

/-- How a step of the session ends: done, or with an error raised that the cycle catches (44_scheduler R218). What
was written before the error stays written. -/
inductive Run where
  | done (s : State)
  | raise (e : FaultCode) (s : State)

/-- The next step of the session, taken only if nothing was raised. -/
def Run.andThen (r : Run) (k : State → Run) : Run :=
  match r with
  | .done s => k s
  | .raise e s => .raise e s

/-- The state a step ends in, its error swallowed. -/
def Run.state : Run → State
  | .done s => s
  | .raise _ s => s

/-- `ENCODE` of a frame's own fields (45_transport R231). -/
def encodeBody (c : Cfg) (op : Byte) (b : FrameBody) : Except ValidationReason Bytes :=
  frameEncode c op.toNat b.chip.toNat b.core.toNat b.hdata.toNat b.data

/-- `tx(f)` (45_transport R231): `ENCODE`, then `SEND`. A failed chunk raises `TransportError`; an `ENCODE` that
fails, which no configuration of R6 allows, is an unexpected error (60_exceptions R241, T5). -/
def tx (op : Byte) (b : FrameBody) (s : State) : Run :=
  match encodeBody s.cfg op b with
  | .error _ => .raise .internal s
  | .ok w => if (sendBytes w s).2 then .done (sendBytes w s).1 else .raise .transport (sendBytes w s).1

/-! ## The fatal path and the way back -/

/-- `TERMINATE(reason)` (44_scheduler R219): the reason is saved, the session is Terminated, one shutdown frame is
attempted and its failure ignored. Nothing else is saved or changed (60_exceptions R252). The log event of R262 is
emitted here (log 22). -/
def terminate (reason : TermReason) (s : State) : State :=
  (tx s.cfg.opShutdown s.cfg.shutdownFields
    ((s.withSes { s.ses with sstate := .terminated, termReason := some reason }).note (.terminated reason))).state

/-- A fatal error that an operation outside a cycle ends with (60_exceptions R240: E4, E6; 93 U8: "session
terminates"): the session is terminated, unless it is already (R253), and the error is the operation's result. -/
def fatalResult (e : FaultCode) (err : OpError) (s : State) : StepOutcome :=
  ret (if s.ses.sstate = .terminated then s else terminate (.fault e) s) (.raised err)

/-- The cycle's catch of a raised error (44_scheduler R218). -/
def Run.caught : Run → State
  | .done s => s
  | .raise e s => terminate (.fault e) s

/-- `SESSION_RESET()` (70_reset_and_hazards R271): the scheduler's state as after reset; the parser, the transport and
the three fields the rule does not list keep their values. -/
def resetSession (s : State) : State :=
  s.withSes { Session.reset with fwRev := s.ses.fwRev, hwRev := s.ses.hwRev, serial := s.ses.serial }

/-! ## Tables (20_memory R49) -/

/-- `work[k]`. -/
def workGet : List (Half × WorkRecord) → Half → Option WorkRecord
  | [], _ => none
  | (k', r) :: rest, k => if k' = k then some r else workGet rest k

/-- `work[k] <- r`: inserts or replaces, keeping the keys rising. -/
def workPut : List (Half × WorkRecord) → Half → WorkRecord → List (Half × WorkRecord)
  | [], k, r => [(k, r)]
  | (k', r') :: rest, k, r =>
    if k.toNat < k'.toNat then (k, r) :: (k', r') :: rest
    else if k = k' then (k, r) :: rest
    else (k', r') :: workPut rest k r

/-- `delete work[k]`: removes it if present. -/
def workDelete (w : List (Half × WorkRecord)) (k : Half) : List (Half × WorkRecord) :=
  w.filter (fun e => e.1 != k)

/-- The canonical form of the table: keys strictly rising. -/
def workOk (w : List (Half × WorkRecord)) : Bool :=
  decide (w.Pairwise (fun a b => a.1.toNat < b.1.toNat))

/-- A DieState as the acknowledgement creates it (10_state R29, 44_scheduler R195). -/
def freshDie (cores : Byte) : DieState where
  seqNext     := 0
  work        := []
  coreSeq     := List.replicate cores.toNat none
  lastSeqSeen := none
  freeActive  := []
  freePending := []
  thermal     := false
  monitor     := none

/-- `S.die[d]`, if `d` is below `S.dies`. -/
def dieAt (s : State) (d : Byte) : Option DieState :=
  if d.toNat < s.ses.dies.toNat then s.ses.die[d.toNat]? else none

/-- `S.die[d] <- die`. -/
def State.withDie (s : State) (d : Byte) (die : DieState) : State :=
  s.withSes { s.ses with die := s.ses.die.set d.toNat die }

/-- `core_seq[c] <- v`. -/
def DieState.withCoreSeq (die : DieState) (c : Byte) (v : Half) : DieState :=
  { die with coreSeq := die.coreSeq.set c.toNat (some v) }

/-- `SEQ_NEXT(d)` on the die itself: the number to use (42_seqcmp R165). -/
def seqTaken (die : DieState) : Half := die.seqNext

/-- `SEQ_NEXT(d)` on the die itself: the die after it, the counter one further modulo 65536 (42_seqcmp R165). -/
def seqAdvanced (die : DieState) : DieState := { die with seqNext := die.seqNext + 1 }

end Sys2Proof.Machine
end

