-- ==== Sys2Proof/Machine/Codec.lean ====
section
/-! DEFINITION. CODEC (40_crc8_codec): the meanings of CRC8, ENCODE, DECODE, DECODE_BASE, DECORATE. All are pure
(10_state R23): only the result changes. An error is returned to the caller (60_exceptions R240; log 17). -/

namespace Sys2Proof.Machine

/-- The result of `DECORATE` (40_crc8_codec R112). -/
def decorateResult (c : Cfg) (f : Frame) : Result :=
  match decorate c f with
  | .ok v => .variant v
  | .error e => .raised (.protocol e f)

/-- The result of `DECODE_BASE` (40_crc8_codec R111). -/
def decodeBaseResult (c : Cfg) (b : Bytes) : Result :=
  match frameDecode c.crc b with
  | .ok f => .frame f
  | .error e => .raised (.framing e)

/-- The result of `DECODE`: `DECORATE(DECODE_BASE(b))` (40_crc8_codec R110). -/
def decodeResult (c : Cfg) (b : Bytes) : Result :=
  match frameDecode c.crc b with
  | .ok f => decorateResult c f
  | .error e => .raised (.framing e)

/-- The result of `ENCODE` (40_crc8_codec R105). -/
def encodeResult (c : Cfg) (opcode chip core hdata : Int) (data : Bytes) : Result :=
  match frameEncode c opcode chip core hdata data with
  | .ok b => .bytes b
  | .error e => .raised (.validation e)

/-- CRC8 (40_crc8_codec R100). -/
def execCrc8 (h : Header) (s : State) : StepOutcome := ret s (.byte (crc8 s.cfg.crc (headerBytes h)))

/-- ENCODE (40_crc8_codec R105). -/
def execEncode (opcode chip core hdata : Int) (data : Bytes) (s : State) : StepOutcome :=
  ret s (encodeResult s.cfg opcode chip core hdata data)

/-- DECODE (40_crc8_codec R110). -/
def execDecode (b : Bytes) (s : State) : StepOutcome := ret s (decodeResult s.cfg b)

/-- DECODE_BASE (40_crc8_codec R111). -/
def execDecodeBase (b : Bytes) (s : State) : StepOutcome := ret s (decodeBaseResult s.cfg b)

/-- DECORATE (40_crc8_codec R112); an operand whose payload is no frame's (10_state R11) is refused. DESIGN CHOICE: the
check byte of the operand, "never supplied by a caller", is carried as it is given and not tested (log 26). -/
def execDecorate (f : Frame) (s : State) : StepOutcome :=
  if payloadOk f.data then ret s (decorateResult s.cfg f) else .refused .notAFrame

end Sys2Proof.Machine
end

