-- ==== Sys2Proof/Machine/Parser.lean ====
section
/-! DEFINITION. PARSER (41_stream_parser): `FEED_BYTE`, one rule per state, `FEED`, `HAS_TOKEN`, `TAKE_TOKEN`, and the
meanings of their rows. -/

namespace Sys2Proof.Machine

/-- What feeding one byte does: the parser goes on; the queue is full and the byte is not accepted (R131); or the
internal-consistency error of R136. -/
inductive Fed where
  | ok (p : Parser)
  | full
  | inconsistent
  deriving DecidableEq, Repr

/-- No free entry in the token queue (R131); never, with an unbounded depth. -/
def queueFull (c : Cfg) (p : Parser) : Bool :=
  match c.tokenFifoDepth with
  | none => false
  | some n => decide (n ≤ p.queue.length)

/-- `emit Tok(t)` and the rest of the rule (R131): a byte that would emit into a full queue is not accepted. -/
def emitThen (c : Cfg) (p : Parser) (t : Token) (after : Parser → Parser) : Fed :=
  if queueFull c p then .full else .ok (after { p with queue := p.queue ++ [t] })

/-- The parser between frames: a complete frame has just been queued (R135, R136). -/
def Parser.atNextFrame (p : Parser) : Parser := { p with acc := [], pstate := .nextFrame }

/-- The parser with a marker held (R132, R137). -/
def Parser.atHeader (p : Parser) : Parser := { p with acc := [marker], pstate := .parsingHeader }

/-- FEED_BYTE in OutOfSync (R132). -/
def feedOutOfSync (c : Cfg) (x : Byte) (p : Parser) : Fed :=
  if x ≠ marker then
    if c.garbageCap = some (p.acc.length + 1) then
      emitThen c p (.garbage (p.acc ++ [x])) (fun q => { q with acc := [] })
    else .ok { p with acc := p.acc ++ [x] }
  else if p.acc = [] then .ok p.atHeader
  else emitThen c p (.garbage p.acc) Parser.atHeader

/-- FEED_BYTE in ParsingHeader on one of frame bytes 1 to 6 (R133). -/
def feedHeaderBody (x : Byte) (p : Parser) : Fed := .ok { p with acc := p.acc ++ [x] }

/-- FEED_BYTE in ParsingHeader on a check byte that does not match (R134). -/
def feedHeaderCrcFail (c : Cfg) (x : Byte) (p : Parser) : Fed :=
  emitThen c p (.garbage (p.acc ++ [x]))
    (fun q => { q with crcErr := bump c q.crcErr, acc := [], pstate := .outOfSync })

/-- `COMPLETE(b)` and the return to NextFrame (R139, R135, R136). -/
def completeFrame (c : Cfg) (b : Bytes) (p : Parser) : Fed :=
  emitThen c p (tokenOf c (frameOfBytes b)) Parser.atNextFrame

/-- FEED_BYTE in ParsingHeader on a check byte that matches (R135). -/
def feedHeaderCrcOk (c : Cfg) (x : Byte) (p : Parser) : Fed :=
  if byteAt (p.acc ++ [x]) 6 = 0 then completeFrame c (p.acc ++ [x]) p
  else .ok { p with acc := p.acc ++ [x], need := 8 + 4 * (byteAt (p.acc ++ [x]) 6).toNat, pstate := .parsingData }

/-- FEED_BYTE in ParsingData (R136). -/
def feedData (c : Cfg) (x : Byte) (p : Parser) : Fed :=
  if p.need ≤ p.acc.length then .inconsistent
  else if p.acc.length + 1 = p.need then completeFrame c (p.acc ++ [x]) p
  else .ok { p with acc := p.acc ++ [x] }

/-- FEED_BYTE in NextFrame (R137). -/
def feedNextFrame (x : Byte) (p : Parser) : Fed :=
  if x = marker then .ok p.atHeader else .ok { p with acc := [x], pstate := .outOfSync }

/-- The six cases of FEED_BYTE, one per row of the opcode table (R132 to R137). -/
inductive FeedCase where
  | outOfSync
  | headerBody
  | headerCrcFail
  | headerCrcOk
  | data
  | nextFrame
  deriving DecidableEq, Repr

/-- The case a byte falls under: the parser's state and, in ParsingHeader, how many bytes are held and whether the
check byte matches (R132 to R137). -/
def feedCase (c : Cfg) (x : Byte) (p : Parser) : FeedCase :=
  match p.pstate with
  | .outOfSync => .outOfSync
  | .parsingHeader =>
    if p.acc.length < 7 then .headerBody
    else if crc8 c.crc (bytes1to6 p.acc) = x then .headerCrcOk
    else .headerCrcFail
  | .parsingData => .data
  | .nextFrame => .nextFrame

/-- The rule of a case. -/
def feedRule (k : FeedCase) (c : Cfg) (x : Byte) (p : Parser) : Fed :=
  match k with
  | .outOfSync => feedOutOfSync c x p
  | .headerBody => feedHeaderBody x p
  | .headerCrcFail => feedHeaderCrcFail c x p
  | .headerCrcOk => feedHeaderCrcOk c x p
  | .data => feedData c x p
  | .nextFrame => feedNextFrame x p

/-- `FEED_BYTE(x)`: the rule of the case the parser is in (R138). -/
def feedByte (c : Cfg) (x : Byte) (p : Parser) : Fed := feedRule (feedCase c x p) c x p

/-- How feeding a byte string ends. -/
inductive FeedEnd where
  | all
  | full (rest : Bytes)
  | inconsistent
  deriving DecidableEq, Repr

/-- `FEED(bytes)`: FEED_BYTE on each byte in order (R138), up to a byte that is not accepted or raises. -/
def feedBytes (c : Cfg) : Bytes → Parser → Parser × FeedEnd
  | [], p => (p, .all)
  | x :: rest, p =>
    match feedByte c x p with
    | .ok p' => feedBytes c rest p'
    | .full => (p, .full (x :: rest))
    | .inconsistent => (p, .inconsistent)

/-- What FEED gives its caller: nothing; the bytes a full parser has not accepted, which wait (R131); or the error of
R136. -/
def feedEnds (e : FeedEnd) (s : State) : StepOutcome :=
  match e with
  | .all => ret s .unit
  | .full rest => ret (s.withWaiting rest) (.stalled rest)
  | .inconsistent => fatalResult .internal .internalConsistency s

/-- Bytes that arrive at the parser outside a cycle, behind those that wait (R138, R131; log 19). -/
def feedOp (b : Bytes) (s : State) : StepOutcome :=
  feedEnds (feedBytes s.cfg (s.waiting ++ b) s.par).2
    ((s.withWaiting []).withPar (feedBytes s.cfg (s.waiting ++ b) s.par).1)

/-- A row of FEED_BYTE: its own rule in its own case. In another case, or behind bytes that wait, the byte is still fed,
by the rule of the state the parser is in (R138; log 15). -/
def feedRow (k : FeedCase) (rule : Cfg → Byte → Parser → Fed) (x : Byte) (s : State) : StepOutcome :=
  if s.waiting = [] ∧ feedCase s.cfg x s.par = k then
    match rule s.cfg x s.par with
    | .ok p => feedEnds .all (s.withPar p)
    | .full => feedEnds (.full [x]) s
    | .inconsistent => feedEnds .inconsistent s
  else feedOp [x] s

/-- FEED (R138). -/
def execFeed (b : Bytes) (s : State) : StepOutcome := feedOp b s

/-- FEED_BYTE.OutOfSync (R132). -/
def execFeedByteOutOfSync (x : Byte) (s : State) : StepOutcome := feedRow .outOfSync feedOutOfSync x s

/-- FEED_BYTE.ParsingHeader.body (R133). -/
def execFeedByteHeaderBody (x : Byte) (s : State) : StepOutcome :=
  feedRow .headerBody (fun _ => feedHeaderBody) x s

/-- FEED_BYTE.ParsingHeader.crc_fail (R134). -/
def execFeedByteHeaderCrcFail (x : Byte) (s : State) : StepOutcome := feedRow .headerCrcFail feedHeaderCrcFail x s

/-- FEED_BYTE.ParsingHeader.crc_ok (R135). -/
def execFeedByteHeaderCrcOk (x : Byte) (s : State) : StepOutcome := feedRow .headerCrcOk feedHeaderCrcOk x s

/-- FEED_BYTE.ParsingData (R136). -/
def execFeedByteData (x : Byte) (s : State) : StepOutcome := feedRow .data feedData x s

/-- FEED_BYTE.NextFrame (R137). -/
def execFeedByteNextFrame (x : Byte) (s : State) : StepOutcome :=
  feedRow .nextFrame (fun _ => feedNextFrame) x s

/-- `HAS_TOKEN()` (R140). -/
def hasToken (p : Parser) : Bool := !p.queue.isEmpty

/-- HAS_TOKEN (R140): one bit, no state changed. -/
def execHasToken (s : State) : StepOutcome := ret s (.bit (hasToken s.par))

/-- `TAKE_TOKEN()`: the parser without the head of its queue (R141). -/
def Parser.tokenTaken (p : Parser) : Parser := { p with queue := p.queue.tail }

/-- TAKE_TOKEN (R141): the head of the queue, or none and no change. -/
def execTakeToken (s : State) : StepOutcome := ret (s.withPar s.par.tokenTaken) (.token s.par.queue.head?)

end Sys2Proof.Machine
end

