-- ==== Sys2Proof/Machine/Transport.lean ====
section
/-! DEFINITION. The transport boundary (45_transport): the meaning of SEND. -/

namespace Sys2Proof.Machine

/-- A message the host hands over outside a cycle: `SEND(b)` (R232). A failed chunk is a `TransportError`, fatal to the
session (60_exceptions R240, E4; 93 U8; log 17). -/
def sendOp (b : Bytes) (s : State) : StepOutcome :=
  if (sendBytes b s).2 then ret (sendBytes b s).1 .unit else fatalResult .transport .transport (sendBytes b s).1

/-- SEND (R232). -/
def execSend (b : Bytes) (s : State) : StepOutcome := sendOp b s

end Sys2Proof.Machine
end

