-- ==== Sys2Proof/Machine/Frames.lean ====
section
/-! DEFINITION. The frame rows (30_encoding R60 to R66, R71 to R81). A received frame is its wire bytes arriving at the
parser (41_stream_parser R138), which completes, decorates and queues it by the opcode (40_crc8_codec R112 to R116,
R139); what the session then does with the token is CYCLE (44_scheduler R198). A transmitted frame is `tx(f)`:
ENCODE, then SEND (45_transport R231). The direction is an operand (30_encoding R65; log 14). -/

namespace Sys2Proof.Machine

/-- A frame received: its wire bytes are fed to the parser. A payload no wire frame can carry is refused
(30_encoding R66: "cannot be represented"). -/
def receiveFrame (op : Byte) (b : FrameBody) (s : State) : StepOutcome :=
  if bodyOk b then feedOp (wireBytes s.cfg.crc op b) s else .refused .notAFrame

/-- A frame transmitted: `ENCODE`, whose `ValidationError` is returned "before any I/O", then `SEND`. -/
def transmitFrame (op : Byte) (b : FrameBody) (s : State) : StepOutcome :=
  match encodeBody s.cfg op b with
  | .error e => ret s (.raised (.validation e))
  | .ok w => sendOp w s

/-- A frame in its direction. -/
def moveFrame (d : Dir) (op : Byte) (b : FrameBody) (s : State) : StepOutcome :=
  match d with
  | .rx => receiveFrame op b s
  | .tx => transmitFrame op b s

/-- FRAME (30_encoding R60). -/
def execFrame (d : Dir) (op : Byte) (b : FrameBody) (s : State) : StepOutcome := moveFrame d op b s

/-- FRAME.OP_NULL (30_encoding R64; 40_crc8_codec R112). -/
def execOpNull (d : Dir) (b : FrameBody) (s : State) : StepOutcome := moveFrame d 0 b s

/-- FRAME.OP_ROOT (30_encoding R64; 40_crc8_codec R112). -/
def execOpRoot (d : Dir) (b : FrameBody) (s : State) : StepOutcome := moveFrame d 1 b s

/-- FRAME.OP_RESET (30_encoding R64; 40_crc8_codec R112). -/
def execOpReset (d : Dir) (b : FrameBody) (s : State) : StepOutcome := moveFrame d 2 b s

/-- FRAME.OP_PLL_CONFIG (30_encoding R64; 40_crc8_codec R112). -/
def execOpPllConfig (d : Dir) (b : FrameBody) (s : State) : StepOutcome := moveFrame d 3 b s

/-- FRAME.OP_ADDRESS (30_encoding R64; 40_crc8_codec R112). -/
def execOpAddress (d : Dir) (b : FrameBody) (s : State) : StepOutcome := moveFrame d 4 b s

/-- FRAME.OP_READDRESS (30_encoding R64; 40_crc8_codec R112). -/
def execOpReaddress (d : Dir) (b : FrameBody) (s : State) : StepOutcome := moveFrame d 5 b s

/-- FRAME.OP_HIGHEST (30_encoding R64; 40_crc8_codec R112). -/
def execOpHighest (d : Dir) (b : FrameBody) (s : State) : StepOutcome := moveFrame d 6 b s

/-- FRAME.OP_BAUD (30_encoding R64; 40_crc8_codec R112). -/
def execOpBaud (d : Dir) (b : FrameBody) (s : State) : StepOutcome := moveFrame d 7 b s

/-- FRAME.OP_UNROOT (30_encoding R64; 40_crc8_codec R112). -/
def execOpUnroot (d : Dir) (b : FrameBody) (s : State) : StepOutcome := moveFrame d 8 b s

/-- FRAME.OP_HASH (30_encoding R71). -/
def execOpHash (d : Dir) (b : FrameBody) (s : State) : StepOutcome := moveFrame d 9 b s

/-- FRAME.OP_NONCE (30_encoding R73; 40_crc8_codec R113). -/
def execOpNonce (d : Dir) (b : FrameBody) (s : State) : StepOutcome := moveFrame d 10 b s

/-- FRAME.OP_ABORT (30_encoding R64; 40_crc8_codec R112). -/
def execOpAbort (d : Dir) (b : FrameBody) (s : State) : StepOutcome := moveFrame d 11 b s

/-- FRAME.OP_STATUS (30_encoding R74; 40_crc8_codec R114). -/
def execOpStatus (d : Dir) (b : FrameBody) (s : State) : StepOutcome := moveFrame d 12 b s

/-- FRAME.OP_GPIO (30_encoding R64; 40_crc8_codec R112). -/
def execOpGpio (d : Dir) (b : FrameBody) (s : State) : StepOutcome := moveFrame d 13 b s

/-- FRAME.OP_CONFIG (30_encoding R64; 40_crc8_codec R112). -/
def execOpConfig (d : Dir) (b : FrameBody) (s : State) : StepOutcome := moveFrame d 14 b s

/-- FRAME.OP_STATISTICS (30_encoding R64; 40_crc8_codec R112). -/
def execOpStatistics (d : Dir) (b : FrameBody) (s : State) : StepOutcome := moveFrame d 15 b s

/-- FRAME.OP_GROUP (30_encoding R64; 40_crc8_codec R112). -/
def execOpGroup (d : Dir) (b : FrameBody) (s : State) : StepOutcome := moveFrame d 16 b s

/-- FRAME.OP_CLOCKGATE (30_encoding R64; 40_crc8_codec R112). -/
def execOpClockgate (d : Dir) (b : FrameBody) (s : State) : StepOutcome := moveFrame d 17 b s

/-- FRAME.OP_INIT (30_encoding R77, R80; 40_crc8_codec R115). -/
def execOpInit (d : Dir) (b : FrameBody) (s : State) : StepOutcome := moveFrame d 128 b s

/-- FRAME.OP_GET_TRACE (30_encoding R64; 40_crc8_codec R112). -/
def execOpGetTrace (d : Dir) (b : FrameBody) (s : State) : StepOutcome := moveFrame d 129 b s

/-- FRAME.OP_LOOPBACK_USB (30_encoding R64; 40_crc8_codec R112). -/
def execOpLoopbackUsb (d : Dir) (b : FrameBody) (s : State) : StepOutcome := moveFrame d 130 b s

/-- FRAME.OP_LOOPBACK_UART (30_encoding R64; 40_crc8_codec R112). -/
def execOpLoopbackUart (d : Dir) (b : FrameBody) (s : State) : StepOutcome := moveFrame d 131 b s

/-- FRAME.OP_DFU (30_encoding R64; 40_crc8_codec R112). -/
def execOpDfu (d : Dir) (b : FrameBody) (s : State) : StepOutcome := moveFrame d 132 b s

/-- FRAME.OP_SHUTDOWN (30_encoding R81). -/
def execOpShutdown (d : Dir) (b : FrameBody) (s : State) : StepOutcome := moveFrame d 133 b s

/-- FRAME.OP_DIE_STATUS (30_encoding R64; 40_crc8_codec R112). -/
def execOpDieStatus (d : Dir) (b : FrameBody) (s : State) : StepOutcome := moveFrame d 134 b s

/-- FRAME.OP_GWQ_STATUS (30_encoding R64; 40_crc8_codec R112). -/
def execOpGwqStatus (d : Dir) (b : FrameBody) (s : State) : StepOutcome := moveFrame d 135 b s

/-- FRAME.OP_WORK_RESTART (30_encoding R64; 40_crc8_codec R112). -/
def execOpWorkRestart (d : Dir) (b : FrameBody) (s : State) : StepOutcome := moveFrame d 136 b s

/-- FRAME.OP_USB_STATS1 (30_encoding R64; 40_crc8_codec R112). -/
def execOpUsbStats1 (d : Dir) (b : FrameBody) (s : State) : StepOutcome := moveFrame d 137 b s

/-- FRAME.OP_USB_GWQSTATS (30_encoding R64; 40_crc8_codec R112). -/
def execOpUsbGwqstats (d : Dir) (b : FrameBody) (s : State) : StepOutcome := moveFrame d 138 b s

/-- FRAME.OP_NOTICE (30_encoding R79; 40_crc8_codec R116). -/
def execOpNotice (d : Dir) (b : FrameBody) (s : State) : StepOutcome := moveFrame d 139 b s

/-- FRAME.OP_PING (30_encoding R64; 40_crc8_codec R112). -/
def execOpPing (d : Dir) (b : FrameBody) (s : State) : StepOutcome := moveFrame d 140 b s

/-- FRAME.OP_CORE_MAP (30_encoding R64; 40_crc8_codec R112). -/
def execOpCoreMap (d : Dir) (b : FrameBody) (s : State) : StepOutcome := moveFrame d 141 b s

/-- FRAME.OP_VERSION (30_encoding R64; 40_crc8_codec R112). -/
def execOpVersion (d : Dir) (b : FrameBody) (s : State) : StepOutcome := moveFrame d 142 b s

/-- FRAME.OP_FAN (30_encoding R64; 40_crc8_codec R112). -/
def execOpFan (d : Dir) (b : FrameBody) (s : State) : StepOutcome := moveFrame d 143 b s

/-- FRAME.OP_NAME (30_encoding R64; 40_crc8_codec R112). -/
def execOpName (d : Dir) (b : FrameBody) (s : State) : StepOutcome := moveFrame d 144 b s

/-- FRAME.UNKNOWN (30_encoding R66): received it decodes to Generic; transmitted, `ENCODE` rejects its opcode. -/
def execFrameUnknown (d : Dir) (op : Byte) (b : FrameBody) (s : State) : StepOutcome := moveFrame d op b s

end Sys2Proof.Machine
end

