-- ==== Sys2Proof/Machine/Pow.lean ====
section
/-! DEFINITION. POW (43_pow_clz): the meanings of CLZ256, VERIFY, CLASSIFY. All are pure (10_state R23). -/

namespace Sys2Proof.Machine

/-- The digest of a header: the external hash (R176). -/
def hashOf (header : Bytes) : Bytes := (Config.regenHash header).toList

/-- The digest of a candidate: that of its header (R175). -/
def digestOf (w : WorkRecord) (cand : CandidateNonce) : Bytes := hashOf (headerOf w cand)

/-- The header VERIFY hashes: that of the record and the candidate (R175, R177), or the one it is given (30_encoding
R90), which holds its nonce. -/
def headerIn (w : HeaderSource) (cand : CandidateNonce) : Bytes :=
  match w with
  | .record w => headerOf w cand
  | .header h => h.toList

/-- CLZ256 (R170); a digest of another length is not an input of the block (92 D43, 93 U20). -/
def execClz256 (digest : Bytes) (s : State) : StepOutcome :=
  if digest.length = 32 then ret s (.zeroBits (clz256 digest)) else .refused .digestNot32Bytes

/-- VERIFY (R175): the zero count and the digest. -/
def execVerify (w : HeaderSource) (cand : CandidateNonce) (s : State) : StepOutcome :=
  ret s (.verified (clz256 (hashOf (headerIn w cand))) (hashOf (headerIn w cand)))

/-- CLASSIFY (R178). -/
def execClassify (zeroBits : Nat) (difficulty : Byte) (s : State) : StepOutcome :=
  ret s (.bit (classify zeroBits difficulty))

end Sys2Proof.Machine
end

