-- ==== Sys2Proof/Machine/Seq.lean ====
section
/-! DEFINITION. Sequence numbers (42_seqcmp): the meanings of SEQ_LE, SEQ_LT, SEQ_NEXT. -/

namespace Sys2Proof.Machine

/-- SEQ_LE (R160). -/
def execSeqLe (a b : Half) (s : State) : StepOutcome := ret s (.bit (seqLe a b))

/-- SEQ_LT (R161). -/
def execSeqLt (a b : Half) (s : State) : StepOutcome := ret s (.bit (seqLt a b))

/-- SEQ_NEXT (R165): the die's number, and its counter one further modulo 65536. A die that does not exist has no
counter (10_state R35; log 24). -/
def execSeqNext (d : Byte) (s : State) : StepOutcome :=
  match dieAt s d with
  | none => .fault .noSuchDie
  | some die => ret (s.withDie d (seqAdvanced die)) (.sequence (seqTaken die))

end Sys2Proof.Machine
end

