-- ==== Sys2Proof/Machine/Sched.lean ====
section
/-! DEFINITION. SCHED (44_scheduler): the session's cycle, its steps, and the meanings of their rows and of
SESSION_RESET. The meaning of a row that is a step of CYCLE keeps the condition on the session under which CYCLE runs
the step; no step of the machine runs such a row by itself (30_encoding R90; log 16). -/

namespace Sys2Proof.Machine

/-- `INIT_RETRY_MS` (00_scope R5). -/
def initRetryMs : Nat := 5000

/-- `REPORT_MS` (00_scope R5). -/
def reportMs : Nat := 2000

/-! ## Starting: the handshake -/

/-- `INIT_TICK(now)` (R191). -/
def initTick (now : Nat) (s : State) : Run :=
  if due s.ses.lastInitTx now initRetryMs then
    (tx s.cfg.opInit s.cfg.initFields s).andThen
      (fun s => .done (s.withSes { s.ses with lastInitTx := some now }))
  else .done s

/-- An acknowledgement with `op_status = 0` (R195): the dies are created and the session runs. -/
def initAckOk (ia : InitAck) (s : State) : State :=
  s.withSes { s.ses with
    dies   := ia.dies
    cores  := ia.cores
    fwRev  := ia.fwRev
    hwRev  := ia.hwRev
    serial := ia.serial
    coreOk := coreOkOf ia.dies ia.cores ia.coreBitmap
    die    := List.replicate ia.dies.toNat (freshDie ia.cores)
    sstate := .running }

/-- An acknowledgement in Starting (R195, R196). -/
def initAckStarting (ia : InitAck) (s : State) : State :=
  if ia.opStatus = 0 then initAckOk ia s else terminate (.fault .initFailed) s

/-! ## Running: nonce reports -/

/-- `GOOD(rec, now)` (R202). -/
def goodNonce (w : WorkRecord) (now : Nat) (s : State) : State :=
  s.withSes { s.ses with
    goodNonces  := bump s.cfg s.ses.goodNonces
    totalHashes := s.ses.totalHashes + 2 ^ w.searchDifficulty.toNat
    firstGood   := match s.ses.firstGood with | none => some now | some t => some t }

/-- The record a candidate of die `d` names, if there is one (R199, R200). -/
def recordOf (d : Byte) (cand : CandidateNonce) (s : State) : Option WorkRecord :=
  match dieAt s d with
  | none => none
  | some die => workGet die.work cand.sequence

/-- One candidate of a nonce report (R199 to R202). -/
def checkNonce (d : Byte) (now : Nat) (s : State) (cand : CandidateNonce) : State :=
  match recordOf d cand s with
  | none => s.withSes { s.ses with errUnknownSeq := bump s.cfg s.ses.errUnknownSeq }
  | some w =>
    if classify (clz256 (digestOf w cand)) w.searchDifficulty then goodNonce w now s
    else s.withSes { s.ses with errBadNonce := bump s.cfg s.ses.errBadNonce }

/-- A nonce report: its candidates in payload order (R199). -/
def nonceReport (nr : NonceReport) (now : Nat) (s : State) : State :=
  nr.nonces.foldl (checkNonce nr.base.chip now) s

/-! ## Running: status reports -/

/-- A status report for a die that does not exist (R204). -/
def badDie (d : Byte) (s : State) : State :=
  (s.withSes { s.ses with errBadDie := bump s.cfg s.ses.errBadDie }).note (.badDie d)

/-- Thermal cutoff (R205): the die is marked and the session terminated; nothing else of the report is applied. -/
def thermalCutoff (d : Byte) (die : DieState) (s : State) : State :=
  terminate (.thermal d) (s.withDie d { die with thermal := true })

/-- The eligible cores a report shows free for the active slot, `act'` (R206, R207). -/
def eligibleActive (st : StatusReport) (cores : Byte) (die : DieState) : List Byte :=
  (activeCores cores st.bitmap).filter (eligible die st.lastSeq)

/-- The eligible cores a report shows free for the pending slot, `pen'` (R206, R207). -/
def eligiblePending (st : StatusReport) (cores : Byte) (die : DieState) : List Byte :=
  (pendingCores cores st.bitmap).filter (eligible die st.lastSeq)

/-- Slot reconciliation (R206 to R208): two shuffles are drawn and the lists replaced. -/
def reconcile (d : Byte) (die : DieState) (st : StatusReport) (s : State) : State :=
  s.shuffleDrawn.shuffleDrawn.withDie d { die with
    freeActive  := shuffle s.draws.shuffles.now (eligibleActive st s.ses.cores die)
    freePending := shuffle s.shuffleDrawn.draws.shuffles.now (eligiblePending st s.ses.cores die)
    monitor     := some st.monitor
    lastSeqSeen := some st.lastSeq }

/-- A status report (R204 to R208). -/
def statusReport (st : StatusReport) (s : State) : State :=
  match dieAt s st.base.chip with
  | none => badDie st.base.chip s
  | some die => if st.thermal then thermalCutoff st.base.chip die s else reconcile st.base.chip die st s

/-! ## Token dispatch -/

/-- A token that is only logged (R197, R210). -/
def logToken (t : Token) (s : State) : State :=
  match t with
  | .frame v => s.note (.unknownFrame (variantBase v).opcode)
  | .garbage b => s.note (.garbage b.length)
  | .protoErr code _ => s.note (.protoErr code)

/-- `DISPATCH` in Starting (R195 to R197). -/
def dispatchStarting (t : Token) (s : State) : State :=
  match t with
  | .frame (.initAck ia) => initAckStarting ia s
  | t => logToken t s

/-- `DISPATCH` in Running (R198 to R210). -/
def dispatchRunning (t : Token) (now : Nat) (s : State) : State :=
  match t with
  | .frame (.nonceReport nr) => nonceReport nr now s
  | .frame (.statusReport st) => statusReport st s
  | .frame (.initAck _) => s.note .initAckWhileRunning
  | .frame (.notice n) => logToken (.frame (.notice n)) s
  | .frame (.generic f) => logToken (.frame (.generic f)) s
  | .garbage b => logToken (.garbage b) s
  | .protoErr code base =>
    logToken (.protoErr code base) (s.withSes { s.ses with errProtocol := bump s.cfg s.ses.errProtocol })

/-- `DISPATCH(t, now)` (R190, R197, R198). -/
def dispatch (t : Token) (now : Nat) (s : State) : State :=
  match s.ses.sstate with
  | .starting => dispatchStarting t s
  | .running => dispatchRunning t now s
  | .terminated => s

/-- The drain over the tokens of the queue, head first (R190); it stops when the session is Terminated. -/
def drainTokens (now : Nat) : List Token → State → State
  | [], s => s
  | t :: rest, s =>
    let s' := dispatch t now (s.withPar s.par.tokenTaken)
    if s'.ses.sstate = .terminated then s' else drainTokens now rest s'

/-- `while HAS_TOKEN() = 1` of R190. -/
def drain (now : Nat) (s : State) : State := drainTokens now s.par.queue s

/-! ## Running: issuance -/

/-- `TRUNC(A, t)` for `t > 0`, and the whole list for 0 (R211, R212). -/
def truncate (c : Cfg) (a : List Byte) (t : Nat) : List Byte :=
  if t = 0 then a
  else match c.throttleMode with
    | .keepFirst => a.take t
    | .dropLast => a.take (a.length - t)

/-- The table without the record of core `c`'s last issue, if it is still that core's (R214, 90_conflicts C6). -/
def workWithout (die : DieState) (c : Byte) : List (Half × WorkRecord) :=
  match coreSeqAt die c with
  | none => die.work
  | some old =>
    match workGet die.work old with
    | none => die.work
    | some w => if w.core = c then workDelete die.work old else die.work

/-- The job issued: the drawn one with the session's test difficulty (R213). -/
def issuedJob (s : State) : HashJob := { s.draws.jobs.now with searchDifficulty := s.cfg.testDifficulty }

/-- The die after the bookkeeping of one issue (R213, R214). -/
def issuedDie (die : DieState) (d c : Byte) (now : Nat) (job : HashJob) : DieState :=
  let w : WorkRecord :=
    { issueTime := now, job := job, searchDifficulty := job.searchDifficulty, die := d, core := c }
  DieState.withCoreSeq { seqAdvanced die with work := workPut (workWithout die c) (seqTaken die) w } c (seqTaken die)

/-- `ISSUE_ONE(d, c, now)` on a die that exists (R213 to R215): the bookkeeping, then the hash-job frame. -/
def issueOn (d c : Byte) (now : Nat) (die : DieState) (s : State) : Run :=
  tx s.cfg.opHash (hashBody s.cfg d c (seqTaken die) (issuedJob s))
    (s.jobDrawn.withDie d (issuedDie die d c now (issuedJob s)))

/-- `ISSUE_ONE(d, c, now)` (R213). -/
def issueOne (d c : Byte) (now : Nat) (s : State) : Run :=
  match dieAt s d with
  | none => .done s
  | some die => issueOn d c now die s

/-- `ISSUE_ONE` for each core of a list, in list order (R211). -/
def issueCores (d : Byte) (now : Nat) : List Byte → State → Run
  | [], s => .done s
  | c :: rest, s => (issueOne d c now s).andThen (issueCores d now rest)

/-- Both free lists of a die cleared (R211). -/
def clearSlots (d : Byte) (s : State) : State :=
  match dieAt s d with
  | none => s
  | some die => s.withDie d { die with freeActive := [], freePending := [] }

/-- `S.die[d].free_active`. -/
def freeActiveOf (s : State) (d : Byte) : List Byte :=
  match dieAt s d with
  | none => []
  | some die => die.freeActive

/-- `S.die[d].free_pending`. -/
def freePendingOf (s : State) (d : Byte) : List Byte :=
  match dieAt s d with
  | none => []
  | some die => die.freePending

/-- One die of `ISSUE_ALL`: the active pass, the pending pass unless throttled, the lists cleared (R211). -/
def issueDie (now throttle : Nat) (d : Byte) (s : State) : Run :=
  ((issueCores d now (truncate s.cfg (freeActiveOf s d) throttle) s).andThen
    (fun s => if throttle = 0 then issueCores d now (freePendingOf s d) s else .done s)).andThen
    (fun s => .done (clearSlots d s))

/-- The dies of a list, in list order. -/
def issueDies (now throttle : Nat) : List Byte → State → Run
  | [], s => .done s
  | d :: rest, s => (issueDie now throttle d s).andThen (issueDies now throttle rest)

/-- `ISSUE_ALL(now, throttle)`: the dies `0 .. S.dies-1`, ascending (R211). -/
def issueAll (now throttle : Nat) (s : State) : Run := issueDies now throttle (indicesBelow s.ses.dies) s

/-- `rate(now)` as the pair (total hashes, elapsed ms), where it is defined (R203). -/
def rate (now : Nat) (x : Session) : Option (Nat × Nat) :=
  match x.firstGood with
  | none => none
  | some t => if t < now then some (x.totalHashes, now - t) else none

/-- `REPORT_TICK(now)` (R216). -/
def reportTick (now : Nat) (s : State) : State :=
  if due s.ses.lastReport now reportMs then
    (s.note (.hashRate (rate now s.ses))).withSes { s.ses with lastReport := some now }
  else s

/-! ## The cycle -/

/-- A step that runs only while the session is in the given state (R190). -/
def whenIn (x : SState) (k : State → Run) (s : State) : Run := if s.ses.sstate = x then k s else .done s

/-- `FEED` of the bytes of a cycle; with an unbounded queue this is FEED. DESIGN CHOICE (log 19): where the queue is
full the byte waits until the drain has made room (41_stream_parser R131); where that drain ends the session, or makes
no room, the byte and the rest are not fed and wait on. -/
def cycleFeed (now : Nat) : Bytes → State → Run
  | [], s => .done s
  | x :: rest, s =>
    match feedByte s.cfg x s.par with
    | .ok p => cycleFeed now rest (s.withPar p)
    | .inconsistent => .raise .internal s
    | .full =>
      let s' := drain now s
      if s'.ses.sstate = .terminated then .done (s'.withWaiting (x :: rest))
      else match feedByte s'.cfg x s'.par with
        | .ok p => cycleFeed now rest (s'.withPar p)
        | .inconsistent => .raise .internal s'
        | .full => .done (s'.withWaiting (x :: rest))

/-- `FEED(rx)` inside a cycle, behind the bytes that wait. -/
def cycleRx (now : Nat) (b : Bytes) (s : State) : Run := cycleFeed now (s.waiting ++ b) (s.withWaiting [])

/-- The steps of a cycle after the drain (R190): each guarded by the session's state at that moment. -/
def cycleTail (now throttle : Nat) (s : State) : Run :=
  ((whenIn .starting (initTick now) s).andThen
    (whenIn .running (issueAll now throttle))).andThen
    (whenIn .running (fun s => .done (reportTick now s)))

/-- A cycle's work on received bytes: feed, drain, tail; what is raised is caught (R190, R218). -/
def cycleBytes (now throttle : Nat) (b : Bytes) (s : State) : State :=
  ((cycleRx now b s).andThen (fun s =>
    if s.ses.sstate = .terminated then .done s else cycleTail now throttle (drain now s))).caught

/-- A cycle that is not Terminated at its start: cancel, then a receive failure, then the bytes (R190, R251). -/
def cycleBody (now throttle : Nat) (cancel : Bool) (rx : Rx) (s : State) : State :=
  if cancel then terminate .cancelled s
  else match rx with
    | .transportError => terminate (.fault .transport) s
    | .bytes b => cycleBytes now throttle b s

/-- The end of a cycle or of one of its steps: its outcome (R186). -/
def cycleEnds (s : State) : StepOutcome := ret s (.outcome (outcomeOf s))

/-- A cycle, or a timed step of one, at the time `now` (R186: not less than that of the previous cycle, whatever the
session's state): nothing in Terminated (R194). -/
def inCycle (now : Nat) (s : State) (k : State → StepOutcome) : StepOutcome :=
  atTime now s (fun s => if s.ses.sstate = .terminated then cycleEnds s else k s)

/-- CYCLE (R190, R194). -/
def execCycle (now throttle : Nat) (cancel : Bool) (rx : Rx) (s : State) : StepOutcome :=
  inCycle now s (fun s => cycleEnds (cycleBody now throttle cancel rx s))

/-- CYCLE.INIT_TICK (R191). -/
def execCycleInitTick (now : Nat) (s : State) : StepOutcome :=
  inCycle now s (fun s => cycleEnds (whenIn .starting (initTick now) s).caught)

/-- CYCLE.INITACK_OK (R195): an acknowledgement dispatched (no rule for one reads `now`). -/
def execCycleInitAckOk (ia : InitAck) (s : State) : StepOutcome :=
  cycleEnds (dispatch (.frame (.initAck ia)) 0 s)

/-- CYCLE.INITACK_FAIL (R196): an acknowledgement dispatched (no rule for one reads `now`). -/
def execCycleInitAckFail (ia : InitAck) (s : State) : StepOutcome :=
  cycleEnds (dispatch (.frame (.initAck ia)) 0 s)

/-- CYCLE.NONCE_REPORT (R199): a nonce report dispatched. -/
def execCycleNonceReport (nr : NonceReport) (now : Nat) (s : State) : StepOutcome :=
  inCycle now s (fun s => cycleEnds (dispatch (.frame (.nonceReport nr)) now s))

/-- CYCLE.STATUS_THERMAL (R205): a status report dispatched (no rule for one reads `now`). -/
def execCycleStatusThermal (st : StatusReport) (s : State) : StepOutcome :=
  cycleEnds (dispatch (.frame (.statusReport st)) 0 s)

/-- CYCLE.STATUS_RECONCILE (R207): a status report dispatched (no rule for one reads `now`). -/
def execCycleStatusReconcile (st : StatusReport) (s : State) : StepOutcome :=
  cycleEnds (dispatch (.frame (.statusReport st)) 0 s)

/-- CYCLE.ISSUE_ALL (R211). -/
def execCycleIssueAll (now throttle : Nat) (s : State) : StepOutcome :=
  inCycle now s (fun s => cycleEnds (whenIn .running (issueAll now throttle) s).caught)

/-- CYCLE.ISSUE_ONE (R213 to R215). A die or core that does not exist has no slot to fill (10_state R35; log 24).
DESIGN CHOICE: the row takes any core that exists, as R213 does; that the core is free is seen to by ISSUE_ALL, its only
caller (log 16). -/
def execCycleIssueOne (d c : Byte) (now : Nat) (s : State) : StepOutcome :=
  inCycle now s (fun s =>
    if s.ses.sstate ≠ .running then cycleEnds s
    else match dieAt s d with
      | none => .fault .noSuchDie
      | some die =>
        if c.toNat < s.ses.cores.toNat then cycleEnds (issueOn d c now die s).caught else .fault .noSuchCore)

/-- CYCLE.REPORT_TICK (R216). -/
def execCycleReportTick (now : Nat) (s : State) : StepOutcome :=
  inCycle now s (fun s => cycleEnds (whenIn .running (fun s => .done (reportTick now s)) s).caught)

/-- CYCLE.TERMINATE (R219); there is no second termination (60_exceptions R253). -/
def execCycleTerminate (reason : TermReason) (s : State) : StepOutcome :=
  cycleEnds (if s.ses.sstate = .terminated then s else terminate reason s)

/-- SESSION_RESET (70_reset_and_hazards R271). -/
def execSessionReset (s : State) : StepOutcome := ret (resetSession s) .unit

end Sys2Proof.Machine
end

