-- ==== Sys2Proof/Machine/Dispatch.lean ====
section
/-! DEFINITION. One arm per row of spec/opcode_table.json, in the table's order. -/

namespace Sys2Proof.Machine

def exec (i : Instr) (s : State) : Host.Outcome State Fault Refusal :=
  match i with
  | .frame d op b => Sys2Proof.Machine.execFrame d op b s
  | .opNull d b => Sys2Proof.Machine.execOpNull d b s
  | .opRoot d b => Sys2Proof.Machine.execOpRoot d b s
  | .opReset d b => Sys2Proof.Machine.execOpReset d b s
  | .opPllConfig d b => Sys2Proof.Machine.execOpPllConfig d b s
  | .opAddress d b => Sys2Proof.Machine.execOpAddress d b s
  | .opReaddress d b => Sys2Proof.Machine.execOpReaddress d b s
  | .opHighest d b => Sys2Proof.Machine.execOpHighest d b s
  | .opBaud d b => Sys2Proof.Machine.execOpBaud d b s
  | .opUnroot d b => Sys2Proof.Machine.execOpUnroot d b s
  | .opHash d b => Sys2Proof.Machine.execOpHash d b s
  | .opNonce d b => Sys2Proof.Machine.execOpNonce d b s
  | .opAbort d b => Sys2Proof.Machine.execOpAbort d b s
  | .opStatus d b => Sys2Proof.Machine.execOpStatus d b s
  | .opGpio d b => Sys2Proof.Machine.execOpGpio d b s
  | .opConfig d b => Sys2Proof.Machine.execOpConfig d b s
  | .opStatistics d b => Sys2Proof.Machine.execOpStatistics d b s
  | .opGroup d b => Sys2Proof.Machine.execOpGroup d b s
  | .opClockgate d b => Sys2Proof.Machine.execOpClockgate d b s
  | .opInit d b => Sys2Proof.Machine.execOpInit d b s
  | .opGetTrace d b => Sys2Proof.Machine.execOpGetTrace d b s
  | .opLoopbackUsb d b => Sys2Proof.Machine.execOpLoopbackUsb d b s
  | .opLoopbackUart d b => Sys2Proof.Machine.execOpLoopbackUart d b s
  | .opDfu d b => Sys2Proof.Machine.execOpDfu d b s
  | .opShutdown d b => Sys2Proof.Machine.execOpShutdown d b s
  | .opDieStatus d b => Sys2Proof.Machine.execOpDieStatus d b s
  | .opGwqStatus d b => Sys2Proof.Machine.execOpGwqStatus d b s
  | .opWorkRestart d b => Sys2Proof.Machine.execOpWorkRestart d b s
  | .opUsbStats1 d b => Sys2Proof.Machine.execOpUsbStats1 d b s
  | .opUsbGwqstats d b => Sys2Proof.Machine.execOpUsbGwqstats d b s
  | .opNotice d b => Sys2Proof.Machine.execOpNotice d b s
  | .opPing d b => Sys2Proof.Machine.execOpPing d b s
  | .opCoreMap d b => Sys2Proof.Machine.execOpCoreMap d b s
  | .opVersion d b => Sys2Proof.Machine.execOpVersion d b s
  | .opFan d b => Sys2Proof.Machine.execOpFan d b s
  | .opName d b => Sys2Proof.Machine.execOpName d b s
  | .frameUnknown d op b => Sys2Proof.Machine.execFrameUnknown d op b s
  | .crc8 h => Sys2Proof.Machine.execCrc8 h s
  | .encode opcode chip core hdata data => Sys2Proof.Machine.execEncode opcode chip core hdata data s
  | .decode b => Sys2Proof.Machine.execDecode b s
  | .decodeBase b => Sys2Proof.Machine.execDecodeBase b s
  | .decorate f => Sys2Proof.Machine.execDecorate f s
  | .feed b => Sys2Proof.Machine.execFeed b s
  | .feedByteOutOfSync x => Sys2Proof.Machine.execFeedByteOutOfSync x s
  | .feedByteHeaderBody x => Sys2Proof.Machine.execFeedByteHeaderBody x s
  | .feedByteHeaderCrcFail x => Sys2Proof.Machine.execFeedByteHeaderCrcFail x s
  | .feedByteHeaderCrcOk x => Sys2Proof.Machine.execFeedByteHeaderCrcOk x s
  | .feedByteData x => Sys2Proof.Machine.execFeedByteData x s
  | .feedByteNextFrame x => Sys2Proof.Machine.execFeedByteNextFrame x s
  | .hasToken => Sys2Proof.Machine.execHasToken s
  | .takeToken => Sys2Proof.Machine.execTakeToken s
  | .seqLe a b => Sys2Proof.Machine.execSeqLe a b s
  | .seqLt a b => Sys2Proof.Machine.execSeqLt a b s
  | .seqNext d => Sys2Proof.Machine.execSeqNext d s
  | .clz256 digest => Sys2Proof.Machine.execClz256 digest s
  | .verify w cand => Sys2Proof.Machine.execVerify w cand s
  | .classify zeroBits difficulty => Sys2Proof.Machine.execClassify zeroBits difficulty s
  | .cycle now throttle cancel rx => Sys2Proof.Machine.execCycle now throttle cancel rx s
  | .cycleInitTick now => Sys2Proof.Machine.execCycleInitTick now s
  | .cycleInitAckOk ia => Sys2Proof.Machine.execCycleInitAckOk ia s
  | .cycleInitAckFail ia => Sys2Proof.Machine.execCycleInitAckFail ia s
  | .cycleNonceReport nr now => Sys2Proof.Machine.execCycleNonceReport nr now s
  | .cycleStatusThermal st => Sys2Proof.Machine.execCycleStatusThermal st s
  | .cycleStatusReconcile st => Sys2Proof.Machine.execCycleStatusReconcile st s
  | .cycleIssueAll now throttle => Sys2Proof.Machine.execCycleIssueAll now throttle s
  | .cycleIssueOne d c now => Sys2Proof.Machine.execCycleIssueOne d c now s
  | .cycleReportTick now => Sys2Proof.Machine.execCycleReportTick now s
  | .cycleTerminate reason => Sys2Proof.Machine.execCycleTerminate reason s
  | .sessionReset => Sys2Proof.Machine.execSessionReset s
  | .send b => Sys2Proof.Machine.execSend b s

end Sys2Proof.Machine
end

