-- ==== Sys2Proof/Machine/Fetch.lean ====
section
/-! DEFINITION. How the machine comes by its next instruction: the block fetches no instructions (10_state R32), so the
host places requests in `State.calls` and a step takes the oldest one (log 1). -/

namespace Sys2Proof.Machine

/-- What a step has to do. -/
inductive Fetched where
  /-- no request is placed: the block does nothing -/
  | idle
  /-- an operation the host invokes, or the frame that arrived -/
  | run (i : Instr)
  /-- bytes that arrived and are no single frame: they are fed to the parser all the same (41_stream_parser R138) -/
  | noise (b : Bytes)
  /-- a step of CYCLE asked for by itself -/
  | notInvocable

/-- The rows that are steps of CYCLE: "separate rules of 44_scheduler.md but ... not separately invocable"
(30_encoding R90). Their meanings are what CYCLE does there (log 16). -/
def isCycleStep : Instr → Bool
  | .cycleInitTick _ | .cycleInitAckOk _ | .cycleInitAckFail _ | .cycleNonceReport _ _ | .cycleStatusThermal _
  | .cycleStatusReconcile _ | .cycleIssueAll _ _ | .cycleIssueOne _ _ _ | .cycleReportTick _ | .cycleTerminate _ => true
  | _ => false

/-- What the oldest request asks for. A run of bytes is decoded as one frame where it is one. -/
def fetched (s : State) : Fetched :=
  match s.calls with
  | [] => .idle
  | .call i :: _ => if isCycleStep i then .notInvocable else .run i
  | .wire b :: _ =>
    match decode s.cfg.crc b with
    | .ok i => .run i
    | .error _ => .noise b

/-- The state once the oldest request is taken. -/
def State.requestTaken (s : State) : State := s.withCalls s.calls.tail

end Sys2Proof.Machine
end

