-- ==== Sys2Proof/Machine/Step.lean ====
section
/-! DEFINITION. The step: take the oldest request and do it; with none placed, nothing changes. -/

namespace Sys2Proof.Machine

/-- One step of the machine. -/
def step (s : State) : Host.Outcome State Fault Refusal :=
  match fetched s with
  | .idle => .next s
  | .run i => exec i s.requestTaken
  | .noise b => feedOp b s.requestTaken
  | .notInvocable => .refused .notInvocable

/-- `s` with the instruction of an opcode-table word as its next request: its bytes arrive from the device. -/
def State.withFetchWord (s : State) (nbits w : Nat) : State :=
  s.withCalls (.wire (tableBytes s.cfg.crc nbits w) :: s.calls)

end Sys2Proof.Machine
end

