-- ==== Sys2Proof/Safety.lean ====
section
/-! DEFINITION. What a sound state is (10_state R38), and the terms the statements are written in. -/

namespace Sys2Proof.Machine

/-! ## The invariant of 10_state R38 -/

/-- R38 (a), (b), (c): what the parser's accumulator holds in each state. -/
abbrev parserInv (c : Cfg) (p : Parser) : Prop :=
  (p.pstate = .parsingHeader → 1 ≤ p.acc.length ∧ p.acc.length ≤ 7 ∧ byteAt p.acc 0 = marker)
  ∧ (p.pstate = .parsingData →
      8 ≤ p.acc.length ∧ p.acc.length < p.need ∧ p.need = 8 + 4 * (byteAt p.acc 6).toNat ∧ byteAt p.acc 6 ≠ 0
      ∧ byteAt p.acc 0 = marker ∧ crc8 c.crc (bytes1to6 p.acc) = byteAt p.acc 7)
  ∧ (p.pstate = .nextFrame → p.acc = [])

/-- One die: its core table covers the cores; its work table is in canonical form; every record in it is of this die
and stands under its core's last-issued sequence, which gives R38 (e) and the bound of R30; its free lists name
existing cores (R38 (f)) and name none twice (R29). -/
abbrev dieInv (cores : Byte) (d : Nat) (die : DieState) : Prop :=
  die.coreSeq.length = cores.toNat
  ∧ workOk die.work = true
  ∧ (∀ e ∈ die.work, e.2.die.toNat = d ∧ coreSeqAt die e.2.core = some e.1)
  ∧ (∀ c ∈ die.freeActive, c.toNat < cores.toNat) ∧ die.freeActive.Nodup
  ∧ (∀ c ∈ die.freePending, c.toNat < cores.toNat) ∧ die.freePending.Nodup

/-- The session: no DieState before the handshake (R38 (d)); one DieState per die; a termination reason exactly when
Terminated (R28); every die sound. -/
abbrev sessionInv (x : Session) : Prop :=
  (x.sstate = .starting → x.die = [])
  ∧ x.die.length = x.dies.toNat
  ∧ (x.termReason.isSome = true ↔ x.sstate = .terminated)
  ∧ (∀ p ∈ x.die.zipIdx, dieInv x.cores p.2 p.1)

/-- The token queue holds no more tokens than its depth (41_stream_parser R131). -/
abbrev queueInv (c : Cfg) (p : Parser) : Prop := ∀ n ∈ c.tokenFifoDepth, p.queue.length ≤ n

/-- The invariant of every reachable state (10_state R38); the token queue keeps to its depth, and behind an unbounded
one no byte waits (41_stream_parser R131). -/
abbrev stateInv (s : State) : Prop :=
  parserInv s.cfg s.par ∧ sessionInv s.ses ∧ queueInv s.cfg s.par ∧ (s.cfg.tokenFifoDepth = none → s.waiting = [])

/-! ## Terms of the statements -/

/-- `now` does not go back (44_scheduler R186). -/
abbrev timeOk (s : State) (now : Nat) : Prop := ∀ t ∈ s.lastNow, t ≤ now

/-- The token queue has room (41_stream_parser R131). -/
abbrev roomFor (s : State) : Prop := ∀ n ∈ s.cfg.tokenFifoDepth, s.par.queue.length < n

/-- Every `send` to come succeeds. -/
abbrev sendsSucceed (s : State) : Prop := s.draws.sends.now = true ∧ ∀ b ∈ s.draws.sends.later, b = true

/-- The parser stands between frames: nothing held, in OutOfSync or NextFrame. -/
abbrev betweenFrames (p : Parser) : Prop := p.acc = [] ∧ (p.pstate = .outOfSync ∨ p.pstate = .nextFrame)

/-- The frame with opcode `op` and body `b`, its check byte computed (10_state R11). -/
def frameWith (k : Crc8Fn) (op : Byte) (b : FrameBody) : Frame where
  opcode := op
  chip   := b.chip
  core   := b.core
  hdata  := b.hdata
  data   := b.data
  crc8   := crc8 k (coveredBytes op b)

/-- The wire bytes a frame record stands for, its own check byte among them (30_encoding R60). -/
def frameWire (f : Frame) : Bytes :=
  marker :: coveredBytes f.opcode (bodyOf f) ++ f.crc8 :: f.data

/-- The wire bytes of a token (41_stream_parser R142). -/
def tokenWire : Token → Bytes
  | .frame v => frameWire (variantBase v)
  | .garbage b => b
  | .protoErr _ f => frameWire f

/-- The wire bytes of a queue, in order. -/
def queueWire (q : List Token) : Bytes := (q.map tokenWire).flatten

/-- A byte string read as a little-endian integer (43_pow_clz R171). -/
def leNat (b : Bytes) : Nat := Nat.ofDigits 256 (b.map BitVec.toNat)

/-- The cores one issuance serves on a die, in order: the active slots the throttle leaves, then the pending ones
unless throttled (44_scheduler R211, R212). -/
def servedCores (c : Cfg) (throttle : Nat) (die : DieState) : List Byte :=
  (if throttle = 0 then die.freeActive
   else match c.throttleMode with
     | .keepFirst => die.freeActive.take throttle
     | .dropLast => die.freeActive.take (die.freeActive.length - throttle))
  ++ (if throttle = 0 then die.freePending else [])

/-- The `i`-th value that a sequence of draws gives, from 0 on. -/
def Draw.nth {α : Type} (d : Draw α) (i : Nat) : α := (Draw.rest^[i] d).now

/-- `s` after the first `n` of the calls that send the chunks `cs` in order, each answered by the next draw
(45_transport R231). -/
def chunksSent (s : State) (cs : List Bytes) (n : Nat) : State :=
  (s.withDraws { s.draws with sends := Draw.rest^[n] s.draws.sends }).withSent
    (s.sent ++ (cs.take n).zipIdx.map (fun e => { bytes := e.1, ok := s.draws.sends.nth e.2 }))

/-- A slot to fill: the die, the core, the sequence it gets. -/
structure Slot where
  die      : Byte
  core     : Byte
  sequence : Half
  deriving DecidableEq, Repr

/-- The slots one issuance fills on die `d`: its served cores, numbered from the die's counter on. -/
def dieSlots (c : Cfg) (throttle d : Nat) (die : DieState) : List Slot :=
  (servedCores c throttle die).zipIdx.map
    (fun e => { die := BitVec.ofNat 8 d, core := e.1, sequence := die.seqNext + BitVec.ofNat 16 e.2 })

/-- The slots one issuance fills, the dies in ascending order (44_scheduler R211). -/
def allSlots (c : Cfg) (throttle : Nat) (dies : List DieState) : List Slot :=
  (dies.zipIdx.map (fun e => dieSlots c throttle e.2 e.1)).flatten

/-- How many slots the dies before die `d` have. -/
def slotsBefore (c : Cfg) (throttle : Nat) (dies : List DieState) (d : Nat) : Nat :=
  (allSlots c throttle (dies.take d)).length

/-- The `i`-th job an issuance in the state `s` issues: the drawn one with the session's difficulty (44_scheduler
R213). -/
def nthJob (s : State) (i : Nat) : HashJob := { s.draws.jobs.nth i with searchDifficulty := s.cfg.testDifficulty }

/-- The frame that fills a slot with the `i`-th job (44_scheduler R215, 30_encoding R71). -/
def slotFrame (s : State) (x : Slot) (i : Nat) : Bytes :=
  wireBytes s.cfg.crc s.cfg.opHash
    { chip := x.die, core := x.core, hdata := x.sequence, data := jobBytes s.cfg (nthJob s i) }

/-- The record of a slot filled with the `i`-th job (44_scheduler R214). -/
def slotRecord (s : State) (now : Nat) (x : Slot) (i : Nat) : WorkRecord :=
  { issueTime := now, job := nthJob s i, searchDifficulty := s.cfg.testDifficulty, die := x.die, core := x.core }

/-- `die'` is `die` after the cores `l` were issued to in order, the first of them with the `i`-th job: the counter is
advanced; each core holds the number of its last issue; the record of an issue stands unless its core was issued to
again; of the earlier records those of the cores issued to are gone and the others stand (44_scheduler R213, R214). -/
def dieIssued (s : State) (now i : Nat) (d : Nat) (die die' : DieState) (l : List Byte) : Prop :=
  die'.seqNext = die.seqNext + BitVec.ofNat 16 l.length
  ∧ die'.thermal = die.thermal ∧ die'.monitor = die.monitor ∧ die'.lastSeqSeen = die.lastSeqSeen
  ∧ (∀ c : Byte, c ∉ l → coreSeqAt die' c = coreSeqAt die c)
  ∧ (∀ (before : List Byte) (c : Byte) (after : List Byte), l = before ++ c :: after →
      ∀ x : Slot, x = { die := BitVec.ofNat 8 d, core := c, sequence := die.seqNext + BitVec.ofNat 16 before.length } →
      (c ∉ after → coreSeqAt die' c = some x.sequence)
      ∧ workGet die'.work x.sequence = if c ∈ after then none else some (slotRecord s now x (i + before.length)))
  ∧ (∀ k : Half, (∀ j, j < l.length → k ≠ die.seqNext + BitVec.ofNat 16 j) →
      workGet die'.work k = (workGet die.work k).filter (fun w => decide (w.core ∉ l)))

/-- `u` is `s` after an issuance at `now` has filled the first `m` of its slots: their frames are sent in order, each
answered by the next draw; each die has had its share of them; the lists of a die are cleared once it is left, and
`left` says that the last one is (44_scheduler R211). -/
def slotsIssued (s u : State) (now throttle m : Nat) (left : Bool) : Prop :=
  u.ses = { s.ses with die := u.ses.die } ∧ u.ses.die.length = s.ses.die.length
  ∧ u.cfg = s.cfg ∧ u.par = s.par ∧ u.calls = s.calls ∧ u.waiting = s.waiting ∧ u.lastNow = some now ∧ u.log = s.log
  ∧ u.draws = { s.draws with jobs := Draw.rest^[m] s.draws.jobs, sends := Draw.rest^[m] s.draws.sends }
  ∧ u.sent = s.sent ++ (((allSlots s.cfg throttle s.ses.die).take m).zipIdx.map
      (fun e => { bytes := slotFrame s e.1 e.2, ok := s.draws.sends.nth e.2 }))
  ∧ ∀ (d : Nat) (die : DieState), s.ses.die[d]? = some die → ∃ die', u.ses.die[d]? = some die'
    ∧ dieIssued s now (slotsBefore s.cfg throttle s.ses.die d) d die die'
        ((servedCores s.cfg throttle die).take (m - slotsBefore s.cfg throttle s.ses.die d))
    ∧ (if left = true ∨ slotsBefore s.cfg throttle s.ses.die d + (servedCores s.cfg throttle die).length < m
        then die'.freeActive = [] ∧ die'.freePending = []
        else die'.freeActive = die.freeActive ∧ die'.freePending = die.freePending)

/-- The candidates of a report whose record is good (44_scheduler R199, 43_pow_clz R178), each given by its record. -/
def goodRecords (d : Byte) (s : State) (l : List CandidateNonce) : List WorkRecord :=
  l.filterMap (fun cand => (recordOf d cand s).filter
    (fun w => classify (clz256 (digestOf w cand)) w.searchDifficulty))

/-- How many candidates of a report name no record (44_scheduler R199, R200). -/
def unknownCount (d : Byte) (s : State) (l : List CandidateNonce) : Nat :=
  l.countP (fun cand => (recordOf d cand s).isNone)

end Sys2Proof.Machine
end

