-- ==== Sys2Proof/Certificates/Slice0/Obligations.lean ====
section
/-! DEFINITION. The statements for the provers, each a def Obligations.<Name> : Prop. Where a next state is written
out, every field it does not name is unchanged: that is the frame. -/

open Sys2Proof Sys2Proof.Machine

/-! ## The step -/

/-- With a request placed, a step runs it and nothing else: an operation the host invokes, or the frame that the
arrived bytes decode to. A step of CYCLE, which is "not separately invocable", is refused as a request (log 16). With
no request placed nothing changes. The requests are the model's own (log 1, 27). -/
def Obligations.StepRunsTheRequest : Prop :=
  ∀ s : State,
    (∀ i rest, s.calls = .call i :: rest → isCycleStep i = false → step s = exec i (s.withCalls rest))
    ∧ (∀ i rest, s.calls = .call i :: rest → isCycleStep i = true → step s = .refused .notInvocable)
    ∧ (∀ b i rest, s.calls = .wire b :: rest → decode s.cfg.crc b = .ok i → step s = exec i (s.withCalls rest))
    ∧ (s.calls = [] → step s = .next s)

/-- Bytes that arrive do exactly what FEED does with them, whether they are one frame (then the step runs that
frame's row) or not (log 14, 27). -/
def Obligations.ArrivingBytesAreFed : Prop :=
  ∀ (s : State) (b : Bytes) (rest : List Request),
    s.calls = .wire b :: rest → step s = exec (.feed b) (s.withCalls rest)

/-! ## Encodings -/

/-- For every well-formed received frame row but the generic FRAME row, decoding its encoding gives the instruction
back, with every operand; the encoding is the same in the other direction. The generic row's bytes decode to the row
its opcode names, with the same operands, and never to FRAME itself (the model's inference: log 2). Operations have no
encoding. -/
def Obligations.DecodeOfEncodeIsTheInstruction : Prop :=
  ∀ (k : Crc8Fn) (i : Instr), i.wf = true →
    (∀ d op b, i.frameParts = some (d, op, b) →
      ∃ j : Instr, j.frameParts = some (.rx, op, b) ∧ j.wf = true ∧ (∀ d' op' b', j ≠ .frame d' op' b')
        ∧ encode k j = encode k i ∧ (∃ w, encode k i = some w ∧ decode k w = .ok j)
        ∧ (d = .rx → (∀ d' op' b', i ≠ .frame d' op' b') → j = i))
    ∧ (i.frameParts = none → encode k i = none)

/-- Every byte string the decoder accepts is the encoding of the instruction it gives: one meaning a word. -/
def Obligations.EncodeOfDecodeIsTheWord : Prop :=
  ∀ (k : Crc8Fn) (b : Bytes) (i : Instr), decode k b = .ok i → i.wf = true ∧ encode k i = some b

/-- Words written out in the spec, under its default check byte and opcodes (PRESUMED by the spec: log 6, 7), decode
to the frames the spec says they are. -/
def Obligations.DecodeGivesTheSpecsWords : Prop :=
  decode defaultCrc [0xAA, 0x8C, 0x01, 0x02, 0x34, 0x12, 0x01, 0xD6, 0xDE, 0xAD, 0xBE, 0xEF]
      = .ok (.opPing .rx { chip := 1, core := 2, hdata := 0x1234, data := [0xDE, 0xAD, 0xBE, 0xEF] })
  ∧ decode defaultCrc [0xAA, 0x80, 0x00, 0x00, 0x00, 0x00, 0x00, 0x43] = .ok (.opInit .rx {})
  ∧ decode defaultCrc [0xAA, 0x85, 0x00, 0x00, 0x00, 0x00, 0x00, 0xCE] = .ok (.opShutdown .rx {})
  ∧ decode defaultCrc [0xAA, 0x00, 0x00, 0x00, 0x00, 0x00, 0x00, 0xAF] = .ok (.opNull .rx {})
  ∧ decode defaultCrc ([0xAA, 0x09, 0x00, 0x03, 0x05, 0x00, 0x0F, 0x1E] ++ List.replicate 60 0)
      = .ok (.opHash .rx { core := 3, hdata := 5, data := List.replicate 60 0 })

/-! ## CODEC -/

/-- CRC8 gives the check byte of the six header bytes in wire order and changes nothing else; under the default
parameters (PRESUMED by the spec: log 6) it has the spec's values. -/
def Obligations.Crc8GivesTheCheckByte : Prop :=
  (∀ (s : State) (h : Header), exec (.crc8 h) s =
    .next (s.withResult (.byte (crc8 s.cfg.crc [h.opcode, h.chip, h.core, h.hdataLo, h.hdataHi, h.len]))))
  ∧ crc8 defaultCrc [0x09, 0x00, 0x03, 0x05, 0x00, 0x0F] = 0x1E
  ∧ crc8 defaultCrc [0, 0, 0, 0, 0, 0] = 0xAF

/-- Under every configuration of R6, whose `crc8` may be any function that meets its clause (log 4), a frame with any
one bit of its bytes 1 to 6 flipped, or any one bit of its check byte, no longer decodes: `FramingError`, of reason
BadCrc, which is tested before the length (the spec's decision D32). -/
def Obligations.HeaderBitFlipIsDetected : Prop :=
  ∀ (s : State) (b : Bytes) (f : Frame) (i j : Nat),
    s.cfg.wf → exec (.decodeBase b) s = .next (s.withResult (.frame f)) → 1 ≤ i → i ≤ 7 → j < 8 →
    exec (.decodeBase (b.set i (byteAt b i ^^^ BitVec.ofNat 8 (2 ^ j)))) s
      = .next (s.withResult (.raised (.framing .badCrc)))

/-- ENCODE: the six checks in their order, each with its reason, and the wire bytes of fields in range. Nothing but
the result changes. -/
def Obligations.EncodeFollowsItsRule : Prop :=
  ∀ (s : State) (opcode chip core hdata : Int) (data : Bytes),
    ((∀ o ∈ s.cfg.knownOpcodes, (o.toNat : Int) ≠ opcode) →
      exec (.encode opcode chip core hdata data) s = .next (s.withResult (.raised (.validation .badOpcode))))
    ∧ (∀ o ∈ s.cfg.knownOpcodes, opcode = (o.toNat : Int) →
      ((chip < 0 ∨ 255 < chip) →
        exec (.encode opcode chip core hdata data) s = .next (s.withResult (.raised (.validation .badChip))))
      ∧ (∀ c : Byte, chip = (c.toNat : Int) →
        ((core < 0 ∨ 255 < core) →
          exec (.encode opcode chip core hdata data) s = .next (s.withResult (.raised (.validation .badCore))))
        ∧ (∀ r : Byte, core = (r.toNat : Int) →
          ((hdata < 0 ∨ 65535 < hdata) →
            exec (.encode opcode chip core hdata data) s = .next (s.withResult (.raised (.validation .badHdata))))
          ∧ (∀ h : Half, hdata = (h.toNat : Int) →
            (data.length % 4 ≠ 0 →
              exec (.encode opcode chip core hdata data) s
                = .next (s.withResult (.raised (.validation .badDataAlign))))
            ∧ (data.length % 4 = 0 → 1020 < data.length →
              exec (.encode opcode chip core hdata data) s
                = .next (s.withResult (.raised (.validation .badDataLen))))
            ∧ (∀ l : Byte, data.length = 4 * l.toNat →
              exec (.encode opcode chip core hdata data) s = .next (s.withResult (.bytes
                ([0xAA, o, c, r, h.extractLsb' 0 8, h.extractLsb' 8 8, l,
                  crc8 s.cfg.crc [o, c, r, h.extractLsb' 0 8, h.extractLsb' 8 8, l]] ++ data))))))))

/-- DECODE_BASE: the four checks in their order, each with its reason, and the fields of a buffer that passes.
Nothing but the result changes. -/
def Obligations.DecodeBaseFollowsItsRule : Prop :=
  ∀ (s : State) (b : Bytes),
    (b.length < 8 → exec (.decodeBase b) s = .next (s.withResult (.raised (.framing .short))))
    ∧ (∀ m o c r lo hi l x : Byte, ∀ data : Bytes, b = [m, o, c, r, lo, hi, l, x] ++ data →
      (m ≠ 0xAA → exec (.decodeBase b) s = .next (s.withResult (.raised (.framing .badMarker))))
      ∧ (m = 0xAA → crc8 s.cfg.crc [o, c, r, lo, hi, l] ≠ x →
        exec (.decodeBase b) s = .next (s.withResult (.raised (.framing .badCrc))))
      ∧ (m = 0xAA → crc8 s.cfg.crc [o, c, r, lo, hi, l] = x → data.length ≠ 4 * l.toNat →
        exec (.decodeBase b) s = .next (s.withResult (.raised (.framing .badLength))))
      ∧ (m = 0xAA → crc8 s.cfg.crc [o, c, r, lo, hi, l] = x → data.length = 4 * l.toNat →
        exec (.decodeBase b) s = .next (s.withResult (.frame
          { opcode := o, chip := c, core := r, hdata := hi ++ lo, data := data, crc8 := x }))))

/-- DECODE is DECORATE of DECODE_BASE: the base decode gives a frame or a `FramingError`; where it gives a frame, the
decoration of that frame gives a variant or a `ProtocolError`, which holds the frame; DECODE gives what the last of
them gives. -/
def Obligations.DecodeIsDecorateOfDecodeBase : Prop :=
  ∀ (s : State) (b : Bytes),
    (∃ e, exec (.decodeBase b) s = .next (s.withResult (.raised (.framing e)))
      ∧ exec (.decode b) s = .next (s.withResult (.raised (.framing e))))
    ∨ (∃ f, exec (.decodeBase b) s = .next (s.withResult (.frame f))
      ∧ ((∃ v, exec (.decorate f) s = .next (s.withResult (.variant v))
            ∧ exec (.decode b) s = .next (s.withResult (.variant v)))
        ∨ (∃ c, exec (.decorate f) s = .next (s.withResult (.raised (.protocol c f)))
            ∧ exec (.decode b) s = .next (s.withResult (.raised (.protocol c f))))))

/-- A nonce report is decorated with one record per 8 payload bytes, in payload order; any other length is
`ProtocolError(NonceLen)`. The positions inside the ntime word are the spec's decision D6 (log 8). -/
def Obligations.NonceReportDecoration : Prop :=
  ∀ (s : State) (f : Frame), payloadOk f.data = true → f.opcode = s.cfg.opNonce →
    (f.data.length % 8 ≠ 0 → exec (.decorate f) s = .next (s.withResult (.raised (.protocol .nonceLen f))))
    ∧ (f.data.length % 8 = 0 → ∃ nonces : List CandidateNonce,
      exec (.decorate f) s = .next (s.withResult (.variant (.nonceReport { base := f, nonces := nonces })))
      ∧ nonces.length = f.data.length / 8
      ∧ ∀ k, k < f.data.length / 8 → ∃ cand, nonces[k]? = some cand
        ∧ cand.nonce = le32 ((f.data.drop (8 * k)).take 8) 0
        ∧ cand.sequence = le16 ((f.data.drop (8 * k)).take 8) 4
        ∧ (s.cfg.ntOffMask = 0x0FFF →
            cand.ntimeOffset = (le16 ((f.data.drop (8 * k)).take 8) 6).extractLsb' 0 12)
        ∧ cand.searchForward = (le16 ((f.data.drop (8 * k)).take 8) 6).getLsbD s.cfg.ntSearchBit)

/-- A status report is decorated with the thermal bit and the tachometer of its core address, the last sequence of
its hdata, its monitor block and the rest of its payload as the activity bitmap; a payload shorter than the monitor
block is `ProtocolError(StatusShort)`. The positions are the spec's decision D7 (log 8). -/
def Obligations.StatusReportDecoration : Prop :=
  ∀ (s : State) (f : Frame), s.cfg.wf → s.cfg.layoutOk = true → payloadOk f.data = true →
    f.opcode = s.cfg.opStatus →
    (f.data.length < s.cfg.monLen →
      exec (.decorate f) s = .next (s.withResult (.raised (.protocol .statusShort f))))
    ∧ (s.cfg.monLen ≤ f.data.length → ∃ (tach : Byte) (mon : Monitor),
      exec (.decorate f) s = .next (s.withResult (.variant (.statusReport
        { base := f, thermal := f.core.getLsbD s.cfg.stThermalBit, tach := tach, lastSeq := f.hdata,
          monitor := mon, bitmap := f.data.drop s.cfg.stBitmapOff })))
      ∧ (∀ k, k < 8 → tach.getLsbD k = (decide (k < s.cfg.stTachW) && f.core.getLsbD (s.cfg.stTachLo + k)))
      ∧ mon.temperature = le16 f.data s.cfg.monTempOff
      ∧ (∀ k, k < 6 → mon.voltage.toList[k]? = f.data[s.cfg.monVOff + k]?))

/-- An acknowledgement is decorated with the die and core counts of its address fields and the revisions, serial,
operation status and core bitmap of its payload; a payload shorter than the fixed part is
`ProtocolError(InitAckShort)`. The offsets are the spec's decision D8 (log 8). -/
def Obligations.InitAckDecoration : Prop :=
  ∀ (s : State) (f : Frame), s.cfg.wf → s.cfg.layoutOk = true → payloadOk f.data = true →
    f.opcode = s.cfg.opInitAck →
    (f.data.length < s.cfg.iaFixedLen →
      exec (.decorate f) s = .next (s.withResult (.raised (.protocol .initAckShort f))))
    ∧ (s.cfg.iaFixedLen ≤ f.data.length → ∃ op : Byte,
      f.data[s.cfg.iaStatusOff]? = some op
      ∧ exec (.decorate f) s = .next (s.withResult (.variant (.initAck
        { base := f, dies := f.chip, cores := f.core, fwRev := le16 f.data s.cfg.iaFwOff,
          hwRev := le16 f.data s.cfg.iaHwOff, serial := le32 f.data s.cfg.iaSerialOff, opStatus := op,
          coreBitmap := f.data.drop s.cfg.iaBitmapOff }))))

/-- A notice is decorated with its code, the extra word where there is one, and the text before the first NUL; a text
without a NUL is `ProtocolError(NoticeNoNul)`. The placing is the spec's decision D9 (log 8). A frame of an opcode
that selects no decoration becomes Generic, which cannot fail. -/
def Obligations.NoticeAndGenericDecoration : Prop :=
  (∀ (s : State) (f : Frame), payloadOk f.data = true → f.opcode ≠ s.cfg.opNonce → f.opcode ≠ s.cfg.opStatus →
    f.opcode ≠ s.cfg.opInitAck → f.opcode ≠ s.cfg.opNotice →
    exec (.decorate f) s = .next (s.withResult (.variant (.generic f))))
  ∧ ∀ (s : State) (f : Frame), s.cfg.wf → payloadOk f.data = true → f.opcode = s.cfg.opNotice →
    (f.data = [] → exec (.decorate f) s = .next (s.withResult (.variant (.notice
      { base := f, code := f.hdata, extra := none, message := none }))))
    ∧ (f.data.length = 4 → exec (.decorate f) s = .next (s.withResult (.variant (.notice
      { base := f, code := f.hdata, extra := some (le32 f.data 0), message := none }))))
    ∧ (4 < f.data.length → (∀ x ∈ f.data.drop 4, x ≠ 0) →
      exec (.decorate f) s = .next (s.withResult (.raised (.protocol .noticeNoNul f))))
    ∧ (∀ text rest : Bytes, f.data.drop 4 = text ++ 0 :: rest → (∀ x ∈ text, x ≠ 0) →
      exec (.decorate f) s = .next (s.withResult (.variant (.notice
        { base := f, code := f.hdata, extra := some (le32 f.data 0), message := some text }))))

/-- The round trip of the CODEC: what ENCODE gives, DECODE_BASE takes back with the same five fields, and a variant
made of that frame carries it; what DECODE_BASE takes, of a known opcode, ENCODE gives back byte for byte. -/
def Obligations.EncodeDecodeRoundTrip : Prop :=
  (∀ (s : State) (opcode chip core hdata : Int) (data w : Bytes),
    exec (.encode opcode chip core hdata data) s = .next (s.withResult (.bytes w)) →
    ∃ f, exec (.decodeBase w) s = .next (s.withResult (.frame f))
      ∧ (f.opcode.toNat : Int) = opcode ∧ (f.chip.toNat : Int) = chip ∧ (f.core.toNat : Int) = core
      ∧ (f.hdata.toNat : Int) = hdata ∧ f.data = data
      ∧ ∀ v, exec (.decode w) s = .next (s.withResult (.variant v)) → variantBase v = f)
  ∧ (∀ (s : State) (b : Bytes) (f : Frame),
    exec (.decodeBase b) s = .next (s.withResult (.frame f)) → f.opcode ∈ s.cfg.knownOpcodes →
    exec (.encode f.opcode.toNat f.chip.toNat f.core.toNat f.hdata.toNat f.data) s
      = .next (s.withResult (.bytes b)))

/-! ## Frames received and transmitted -/

/-- A frame received, in every row (FRAME, the 35 FRAME.OP_ rows, FRAME.UNKNOWN), is its wire bytes fed (log 14).
Received between frames, with room in the queue, it queues one token, the frame decorated by its opcode or, where its
payload does not fit the decoration, the protocol error (the spec's decision D12), and the parser stands after the
frame. -/
def Obligations.ReceivedFrameQueuesItsToken : Prop :=
  ∀ (s : State) (i : Instr) (op : Byte) (b : FrameBody),
    i.frameParts = some (.rx, op, b) → payloadOk b.data = true →
    exec i s = exec (.feed (wireBytes s.cfg.crc op b)) s
    ∧ (betweenFrames s.par → roomFor s → s.waiting = [] →
      exec i s = .next ((s.withPar { s.par with
        pstate := .nextFrame
        acc    := []
        need   := if b.data = [] then s.par.need else 8 + b.data.length
        queue  := s.par.queue ++ [match decorate s.cfg (frameWith s.cfg.crc op b) with
          | .ok v => .frame v
          | .error e => .protoErr e (frameWith s.cfg.crc op b)] }).withResult .unit))

/-- A frame transmitted, in every frame row: an opcode that is not known is rejected before any I/O; otherwise the
wire bytes are sent, in one call where they fit one, and a send that fails is the result and ends the session (log 14,
17). -/
def Obligations.TransmittedFrameIsSent : Prop :=
  ∀ (s : State) (i : Instr) (op : Byte) (b : FrameBody),
    i.frameParts = some (.tx, op, b) →
    (op ∉ s.cfg.knownOpcodes → exec i s = .next (s.withResult (.raised (.validation .badOpcode))))
    ∧ (op ∈ s.cfg.knownOpcodes → b.data.length % 4 ≠ 0 →
        exec i s = .next (s.withResult (.raised (.validation .badDataAlign))))
    ∧ (op ∈ s.cfg.knownOpcodes → b.data.length % 4 = 0 → 1020 < b.data.length →
        exec i s = .next (s.withResult (.raised (.validation .badDataLen))))
    ∧ (op ∈ s.cfg.knownOpcodes → payloadOk b.data = true →
        exec i s = exec (.send (wireBytes s.cfg.crc op b)) s
        ∧ (8 + b.data.length ≤ s.cfg.maxSendSize →
          ∀ u, u = (s.withDraws { s.draws with sends := s.draws.sends.rest }).withSent
              (s.sent ++ [{ bytes := wireBytes s.cfg.crc op b, ok := s.draws.sends.now }]) →
          exec i s = .next (if s.draws.sends.now = true then u.withResult .unit
            else (if s.ses.sstate = .terminated then u else terminate (.fault .transport) u).withResult
              (.raised .transport))))

/-- SEND: the chunks are the message cut into pieces of the transport's maximum, with a shorter last piece, empty
where the message is a multiple of it; a message that fits goes as it is (the spec's decision D35: log 31). The calls
made are the chunks in order, each answered by the next draw: all of them where every call succeeds, else up to the
first that fails, which is the result and ends the session (60_exceptions E4, 93 U8: log 17). -/
def Obligations.SendChunksTheMessage : Prop :=
  ∀ (s : State) (b : Bytes), 1 ≤ s.cfg.maxSendSize →
    ∃ cs : List Bytes, cs.flatten = b
      ∧ (b.length ≤ s.cfg.maxSendSize → cs = [b])
      ∧ (s.cfg.maxSendSize < b.length → cs.length = b.length / s.cfg.maxSendSize + 1
        ∧ (∀ i, i < b.length / s.cfg.maxSendSize → (cs[i]?.map List.length) = some s.cfg.maxSendSize)
        ∧ (cs[b.length / s.cfg.maxSendSize]?.map List.length) = some (b.length % s.cfg.maxSendSize))
      ∧ ((∀ i, i < cs.length → s.draws.sends.nth i = true) →
        exec (.send b) s = .next ((chunksSent s cs cs.length).withResult .unit))
      ∧ (∀ i, i < cs.length → (∀ j, j < i → s.draws.sends.nth j = true) → s.draws.sends.nth i = false →
        exec (.send b) s = .next ((if s.ses.sstate = .terminated then chunksSent s cs (i + 1)
          else terminate (.fault .transport) (chunksSent s cs (i + 1))).withResult (.raised .transport)))

/-- Inputs outside the block and indices that name nothing stop by name: a frame operand no wire frame carries, a
digest of another length, a time that goes back, whatever the session's state, a die or a core that does not exist
(the model's choices: log 13, 24, 25, 26). -/
def Obligations.OutOfBlockInputsStop : Prop :=
  ∀ s : State,
    (∀ (i : Instr) (op : Byte) (b : FrameBody), i.frameParts = some (.rx, op, b) → payloadOk b.data = false →
      exec i s = .refused .notAFrame)
    ∧ (∀ f : Frame, payloadOk f.data = false → exec (.decorate f) s = .refused .notAFrame)
    ∧ (∀ g : Bytes, g.length ≠ 32 → exec (.clz256 g) s = .refused .digestNot32Bytes)
    ∧ (∀ d : Byte, s.ses.dies.toNat ≤ d.toNat → exec (.seqNext d) s = .fault .noSuchDie)
    ∧ (∀ (now t : Nat), s.lastNow = some t → now < t →
      (∀ th cancel rx, exec (.cycle now th cancel rx) s = .refused .timeWentBack)
      ∧ exec (.cycleInitTick now) s = .refused .timeWentBack
      ∧ (∀ nr, exec (.cycleNonceReport nr now) s = .refused .timeWentBack)
      ∧ (∀ th, exec (.cycleIssueAll now th) s = .refused .timeWentBack)
      ∧ (∀ d c, exec (.cycleIssueOne d c now) s = .refused .timeWentBack)
      ∧ exec (.cycleReportTick now) s = .refused .timeWentBack)
    ∧ (∀ (d c : Byte) (now : Nat), s.ses.sstate = .running → timeOk s now →
      (s.ses.dies.toNat ≤ d.toNat → exec (.cycleIssueOne d c now) s = .fault .noSuchDie)
      ∧ (∀ die, d.toNat < s.ses.dies.toNat → s.ses.die[d.toNat]? = some die → s.ses.cores.toNat ≤ c.toNat →
        exec (.cycleIssueOne d c now) s = .fault .noSuchCore))

/-! ## PARSER -/

/-- FEED_BYTE in OutOfSync: a garbage byte lengthens the run, which the cap flushes; a marker flushes the run, if
there is one, and starts a header. The cap is the spec's decision D14 (log 20). -/
def Obligations.FeedByteOutOfSync : Prop :=
  ∀ (s : State) (x : Byte), s.waiting = [] → s.par.pstate = .outOfSync →
    (x ≠ 0xAA → s.cfg.garbageCap ≠ some (s.par.acc.length + 1) →
      exec (.feedByteOutOfSync x) s = .next ((s.withPar { s.par with acc := s.par.acc ++ [x] }).withResult .unit))
    ∧ (x ≠ 0xAA → s.cfg.garbageCap = some (s.par.acc.length + 1) → roomFor s →
      exec (.feedByteOutOfSync x) s = .next ((s.withPar { s.par with
        acc := [], queue := s.par.queue ++ [.garbage (s.par.acc ++ [x])] }).withResult .unit))
    ∧ (x = 0xAA → s.par.acc = [] →
      exec (.feedByteOutOfSync x) s = .next ((s.withPar { s.par with
        pstate := .parsingHeader, acc := [0xAA] }).withResult .unit))
    ∧ (x = 0xAA → s.par.acc ≠ [] → roomFor s →
      exec (.feedByteOutOfSync x) s = .next ((s.withPar { s.par with
        pstate := .parsingHeader, acc := [0xAA], queue := s.par.queue ++ [.garbage s.par.acc] }).withResult .unit))

/-- FEED_BYTE in ParsingHeader on frame bytes 1 to 6: the byte, whatever its value, is held. -/
def Obligations.FeedByteHeaderBody : Prop :=
  ∀ (s : State) (x : Byte), s.waiting = [] → s.par.pstate = .parsingHeader → s.par.acc.length < 7 →
    exec (.feedByteHeaderBody x) s = .next ((s.withPar { s.par with acc := s.par.acc ++ [x] }).withResult .unit)

/-- FEED_BYTE in ParsingHeader on a check byte that does not match: the 8 bytes become one Garbage token, the mismatch
is counted, the counter saturating where it has a width (the spec's decision D17: log 21), and the parser is out of
sync. -/
def Obligations.FeedByteHeaderCrcFail : Prop :=
  ∀ (s : State) (m o c r lo hi l x : Byte), s.waiting = [] → s.par.pstate = .parsingHeader →
    s.par.acc = [m, o, c, r, lo, hi, l] →
    crc8 s.cfg.crc [o, c, r, lo, hi, l] ≠ x → roomFor s →
    exec (.feedByteHeaderCrcFail x) s = .next ((s.withPar { s.par with
      pstate := .outOfSync
      acc    := []
      queue  := s.par.queue ++ [.garbage [m, o, c, r, lo, hi, l, x]]
      crcErr := bump s.cfg s.par.crcErr }).withResult .unit)
    ∧ (s.cfg.ctrW = none → bump s.cfg s.par.crcErr = s.par.crcErr + 1)
    ∧ (∀ w, s.cfg.ctrW = some w → s.par.crcErr < 2 ^ w - 1 → bump s.cfg s.par.crcErr = s.par.crcErr + 1)
    ∧ (∀ w, s.cfg.ctrW = some w → s.par.crcErr = 2 ^ w - 1 → bump s.cfg s.par.crcErr = s.par.crcErr)

/-- FEED_BYTE in ParsingHeader on a check byte that matches: with length field 0 the frame is complete, its token
queued, a protocol-error token where the opcode asks for a payload (the spec's decisions D11, D12); otherwise the
payload is awaited, `need` the whole frame's length. -/
def Obligations.FeedByteHeaderCrcOk : Prop :=
  ∀ (s : State) (m o c r lo hi l x : Byte), s.waiting = [] → s.par.pstate = .parsingHeader →
    s.par.acc = [m, o, c, r, lo, hi, l] →
    crc8 s.cfg.crc [o, c, r, lo, hi, l] = x →
    (l = 0 → roomFor s →
      exec (.feedByteHeaderCrcOk x) s = .next ((s.withPar { s.par with
        pstate := .nextFrame
        acc    := []
        queue  := s.par.queue ++ [tokenOf s.cfg
          { opcode := o, chip := c, core := r, hdata := hi ++ lo, data := [], crc8 := x }] }).withResult .unit))
    ∧ (l ≠ 0 →
      exec (.feedByteHeaderCrcOk x) s = .next ((s.withPar { s.par with
        pstate := .parsingData
        acc    := [m, o, c, r, lo, hi, l, x]
        need   := 8 + 4 * l.toNat }).withResult .unit))

/-- FEED_BYTE in ParsingData: a byte that completes the declared length queues the frame's token; an earlier byte is
held; a byte past the declared length, which no reachable state meets, is the internal-consistency failure, fatal to
the session (the branch is kept: log 18). -/
def Obligations.FeedByteData : Prop :=
  ∀ (s : State) (x : Byte), s.waiting = [] → s.par.pstate = .parsingData →
    (s.par.acc.length + 1 < s.par.need →
      exec (.feedByteData x) s = .next ((s.withPar { s.par with acc := s.par.acc ++ [x] }).withResult .unit))
    ∧ (∀ (m o c r lo hi l k : Byte) (data : Bytes), s.par.acc = [m, o, c, r, lo, hi, l, k] ++ data →
      s.par.need = 8 + data.length + 1 → roomFor s →
      exec (.feedByteData x) s = .next ((s.withPar { s.par with
        pstate := .nextFrame
        acc    := []
        queue  := s.par.queue ++ [tokenOf s.cfg
          { opcode := o, chip := c, core := r, hdata := hi ++ lo, data := data ++ [x], crc8 := k }] }).withResult
        .unit))
    ∧ (s.par.need ≤ s.par.acc.length →
      exec (.feedByteData x) s = .next ((if s.ses.sstate = .terminated then s
        else terminate (.fault .internal) s).withResult (.raised .internalConsistency)))

/-- FEED_BYTE in NextFrame: a marker starts a header, any other byte a garbage run. -/
def Obligations.FeedByteNextFrame : Prop :=
  ∀ (s : State) (x : Byte), s.waiting = [] → s.par.pstate = .nextFrame →
    (x = 0xAA → exec (.feedByteNextFrame x) s = .next ((s.withPar { s.par with
      pstate := .parsingHeader, acc := [0xAA] }).withResult .unit))
    ∧ (x ≠ 0xAA → exec (.feedByteNextFrame x) s = .next ((s.withPar { s.par with
      pstate := .outOfSync, acc := [x] }).withResult .unit))

/-- FEED is FEED_BYTE on each byte in order, by the row of the state the parser is in; nothing for no bytes; and
feeding two strings one after the other, the first taken whole or in part, is feeding their concatenation: the bytes
not taken wait (log 19). -/
def Obligations.FeedIsChunkingInvariant : Prop :=
  ∀ s : State,
    (s.waiting = [] → exec (.feed []) s = .next (s.withResult .unit))
    ∧ (∀ (a b : Bytes) (t : State), exec (.feed a) s = .next t → (∀ e, t.result ≠ .raised e) →
      exec (.feed (a ++ b)) s = exec (.feed b) t)
    ∧ (s.waiting = [] → ∀ x : Byte,
      (s.par.pstate = .outOfSync → exec (.feed [x]) s = exec (.feedByteOutOfSync x) s)
      ∧ (s.par.pstate = .parsingHeader → s.par.acc.length < 7 →
        exec (.feed [x]) s = exec (.feedByteHeaderBody x) s)
      ∧ (s.par.pstate = .parsingHeader → s.par.acc.length = 7 → crc8 s.cfg.crc (bytes1to6 s.par.acc) ≠ x →
        exec (.feed [x]) s = exec (.feedByteHeaderCrcFail x) s)
      ∧ (s.par.pstate = .parsingHeader → s.par.acc.length = 7 → crc8 s.cfg.crc (bytes1to6 s.par.acc) = x →
        exec (.feed [x]) s = exec (.feedByteHeaderCrcOk x) s)
      ∧ (s.par.pstate = .parsingData → exec (.feed [x]) s = exec (.feedByteData x) s)
      ∧ (s.par.pstate = .nextFrame → exec (.feed [x]) s = exec (.feedByteNextFrame x) s))

/-- From a parser state that meets R38, FEED of any bytes completes and never raises: it changes the parser and the
bytes that wait alone, keeps R38, and adds tokens at the tail of the queue. With an unbounded queue all bytes are taken;
a bounded one never grows past its depth, and the bytes not taken wait, the queue being full, and go before all others
(the spec's decision D14: log 19). Every FEED_BYTE row, in whatever state the parser is, feeds its byte (the model's
reading of a row asked for in another state: log 15). -/
def Obligations.FeedNeverRaises : Prop :=
  (∀ (s : State) (b : Bytes), parserInv s.cfg s.par →
    ∃ (p : Parser) (q : List Token) (rest : Bytes),
      exec (.feed b) s = .next (((s.withPar p).withWaiting rest).withResult
        (if rest = [] then .unit else .stalled rest))
      ∧ parserInv s.cfg p ∧ p.queue = s.par.queue ++ q
      ∧ (∀ n, s.cfg.tokenFifoDepth = some n → s.par.queue.length ≤ n → p.queue.length ≤ n)
      ∧ (rest = [] ∨ ∃ taken n, s.waiting ++ b = taken ++ rest ∧ s.cfg.tokenFifoDepth = some n
        ∧ n ≤ p.queue.length
        ∧ exec (.feed taken) (s.withWaiting []) = .next (((s.withPar p).withWaiting []).withResult .unit)))
  ∧ (∀ (s : State) (b : Bytes), exec (.feed b) s = exec (.feed (s.waiting ++ b)) (s.withWaiting []))
  ∧ ∀ (s : State) (x : Byte) (i : Instr),
    i ∈ [.feedByteOutOfSync x, .feedByteHeaderBody x, .feedByteHeaderCrcFail x, .feedByteHeaderCrcOk x,
      .feedByteData x, .feedByteNextFrame x] →
    exec i s = exec (.feed [x]) s

/-- Byte conservation: what FEED is given is found again, in order and once, in the wire bytes of the tokens it queues,
then the accumulator, then the bytes that wait behind a full queue. -/
def Obligations.FeedConservesBytes : Prop :=
  ∀ (s t : State) (b : Bytes), parserInv s.cfg s.par → exec (.feed b) s = .next t →
    queueWire t.par.queue ++ t.par.acc ++ t.waiting = queueWire s.par.queue ++ s.par.acc ++ s.waiting ++ b

/-- Resynchronization: between frames, noise, a frame, noise, a frame, the noise runs not empty and free of the
marker, give exactly a Garbage token and the frame's token, twice, in that order, and no check failure. -/
def Obligations.ParserResynchronizes : Prop :=
  ∀ (s : State) (g₁ g₂ : Bytes) (op₁ op₂ : Byte) (b₁ b₂ : FrameBody),
    betweenFrames s.par → s.waiting = [] → s.cfg.tokenFifoDepth = none → s.cfg.garbageCap = none →
    g₁ ≠ [] → g₂ ≠ [] → (∀ x ∈ g₁, x ≠ 0xAA) → (∀ x ∈ g₂, x ≠ 0xAA) →
    payloadOk b₁.data = true → payloadOk b₂.data = true →
    ∃ p : Parser,
      exec (.feed (g₁ ++ wireBytes s.cfg.crc op₁ b₁ ++ g₂ ++ wireBytes s.cfg.crc op₂ b₂)) s
        = .next ((s.withPar p).withResult .unit)
      ∧ p.queue = s.par.queue ++ [.garbage g₁, tokenOf s.cfg (frameWith s.cfg.crc op₁ b₁),
          .garbage g₂, tokenOf s.cfg (frameWith s.cfg.crc op₂ b₂)]
      ∧ p.pstate = .nextFrame ∧ p.acc = [] ∧ p.crcErr = s.par.crcErr

/-- HAS_TOKEN tells whether the queue is non-empty and changes nothing; TAKE_TOKEN removes and gives the head, and of
an empty queue gives none and changes nothing (the spec's decision D15: log 34). -/
def Obligations.TokenQueueOperations : Prop :=
  ∀ s : State,
    (s.par.queue = [] → exec .hasToken s = .next (s.withResult (.bit false))
      ∧ exec .takeToken s = .next (s.withResult (.token none)))
    ∧ (∀ t rest, s.par.queue = t :: rest → exec .hasToken s = .next (s.withResult (.bit true))
      ∧ exec .takeToken s = .next ((s.withPar { s.par with queue := rest }).withResult (.token (some t))))

/-! ## Sequence numbers and POW -/

/-- SEQ_LE: at a raw distance below 32768 the plain comparison, else the larger raw value is the earlier one. Nothing
but the result changes. -/
def Obligations.SeqLeFollowsItsRule : Prop :=
  ∀ (s : State) (a b : Half),
    (((a.toNat : Int) - b.toNat).natAbs < 32768 →
      exec (.seqLe a b) s = .next (s.withResult (.bit (decide (a.toNat ≤ b.toNat)))))
    ∧ (32768 ≤ ((a.toNat : Int) - b.toNat).natAbs →
      exec (.seqLe a b) s = .next (s.withResult (.bit (decide (b.toNat < a.toNat)))))

/-- The laws of the comparator: SEQ_LT is SEQ_LE without equality; reflexive; total and antisymmetric; not
transitive; decided by the modular distance but for 32768; true across any 0 to 32767 increments. -/
def Obligations.SeqComparatorLaws : Prop :=
  (∀ (s : State) (a b : Half), exec (.seqLt a b) s = .next (s.withResult (.bit (seqLe a b && decide (a ≠ b)))))
  ∧ (∀ a : Half, seqLe a a = true)
  ∧ (∀ a b : Half, a ≠ b → seqLe a b = !seqLe b a)
  ∧ (seqLe 0 20000 = true ∧ seqLe 20000 40000 = true ∧ seqLe 0 40000 = false)
  ∧ (∀ a b : Half, ((b - a).toNat < 32768 → seqLe a b = true) ∧ (32768 < (b - a).toNat → seqLe a b = false)
      ∧ ((b - a).toNat = 32768 → seqLe a b = decide (b.toNat < a.toNat)))
  ∧ (∀ (a : Half) (k : Nat), k ≤ 32767 → seqLe a (a + BitVec.ofNat 16 k) = true)

/-- SEQ_NEXT gives the die's number and leaves the counter one further, modulo 65536; only that counter changes. -/
def Obligations.SeqNextPostIncrements : Prop :=
  ∀ (s : State) (d : Byte) (die : DieState), d.toNat < s.ses.dies.toNat → s.ses.die[d.toNat]? = some die →
    exec (.seqNext d) s = .next ((s.withSes { s.ses with
        die := s.ses.die.set d.toNat { die with seqNext := BitVec.ofNat 16 ((die.seqNext.toNat + 1) % 65536) }
        }).withResult (.sequence die.seqNext))

/-- CLZ256 of 32 bytes gives the one number z with N < 2^(256-z) and, below 256, 2^(255-z) ≤ N, where N is the digest
read as a little-endian integer. Nothing but the result changes. -/
def Obligations.Clz256CountsTheLeadingZeros : Prop :=
  ∀ (s : State) (g : Bytes), g.length = 32 →
    ∃ z, exec (.clz256 g) s = .next (s.withResult (.zeroBits z))
      ∧ z ≤ 256 ∧ leNat g < 2 ^ (256 - z) ∧ (z < 256 → 2 ^ (255 - z) ≤ leNat g)
      ∧ ∀ y, y ≤ 256 → leNat g < 2 ^ (256 - y) → (y < 256 → 2 ^ (255 - y) ≤ leNat g) → y = z

/-- VERIFY of an 80-byte header gives its digest, by the external hash, and the digest's zero count, whatever candidate
stands beside it; VERIFY of a record and a candidate does so for the candidate's header, of which the last four bytes
are its nonce (both functions are the spec's uninterpreted ones: log 12; the two inputs: log 40). Nothing but the result
changes. -/
def Obligations.VerifyHashesTheHeader : Prop :=
  (∀ (s : State) (h : Vector Byte 80) (cand : CandidateNonce), ∃ (digest : Bytes) (z : Nat),
    exec (.verify (.header h) cand) s = .next (s.withResult (.verified z digest))
    ∧ digest = (Config.regenHash h.toList).toList ∧ digest.length = 32
    ∧ exec (.clz256 digest) s = .next (s.withResult (.zeroBits z)))
  ∧ ∀ (s : State) (w : WorkRecord) (cand : CandidateNonce), ∃ h : Vector Byte 80,
    exec (.verify (.record w) cand) s = exec (.verify (.header h) cand) s
    ∧ h.toList = (Config.headerFirst76 w cand).toList ++ h.toList.drop 76
    ∧ le32 h.toList 76 = cand.nonce

/-- CLASSIFY: good if and only if the zero count reaches the difficulty. Nothing but the result changes. -/
def Obligations.ClassifyComparesTheCount : Prop :=
  ∀ (s : State) (z : Nat) (w : WorkRecord),
    (w.searchDifficulty.toNat ≤ z →
      exec (.classify z w.searchDifficulty) s = .next (s.withResult (.bit true)))
    ∧ (z < w.searchDifficulty.toNat →
      exec (.classify z w.searchDifficulty) s = .next (s.withResult (.bit false)))

/-! ## The session: ends and beginnings -/

/-- In Terminated a CYCLE does nothing and returns the reason; so does the row of each of its steps; the time of a timed
one counts as the previous all the same. In Starting the rows of the steps that CYCLE runs only in Running note the
time and do nothing else (the rows: the model's choice, log 16). -/
def Obligations.StepsOutsideTheirStateDoNothing : Prop :=
  (∀ s : State, s.ses.sstate = .terminated →
    (∀ i : Instr, (match i with
      | .cycleInitAckOk _ | .cycleInitAckFail _ | .cycleStatusThermal _ | .cycleStatusReconcile _
      | .cycleTerminate _ => True
      | _ => False) →
      exec i s = .next (s.withResult (.outcome (.terminated s.ses.termReason))))
    ∧ ∀ now : Nat, timeOk s now → ∀ i : Instr, (match i with
      | .cycle n _ _ _ | .cycleInitTick n | .cycleNonceReport _ n | .cycleIssueAll n _ | .cycleIssueOne _ _ n
      | .cycleReportTick n => n = now
      | _ => False) →
      exec i s = .next ((s.withLastNow (some now)).withResult (.outcome (.terminated s.ses.termReason))))
  ∧ ∀ (s : State) (now : Nat), s.ses.sstate = .starting → timeOk s now →
    ∀ i : Instr, (match i with
      | .cycleIssueAll n _ | .cycleIssueOne _ _ n | .cycleReportTick n => n = now
      | _ => False) →
    exec i s = .next ((s.withLastNow (some now)).withResult (.outcome .goOn))

/-- TERMINATE saves the reason, ends the session and makes exactly the send calls that SEND of one shutdown frame
makes, whatever they answer; it changes nothing else but the log (log 22). -/
def Obligations.TerminateSavesAndNotifies : Prop :=
  ∀ (s : State) (r : TermReason), s.cfg.wf → payloadOk s.cfg.shutdownFields.data = true →
    s.ses.sstate ≠ .terminated →
    ∃ t : State, exec (.cycleTerminate r) s = .next t
      ∧ t.ses = { s.ses with sstate := .terminated, termReason := some r }
      ∧ t.result = .outcome (.terminated (some r))
      ∧ t.cfg = s.cfg ∧ t.par = s.par ∧ t.calls = s.calls ∧ t.waiting = s.waiting ∧ t.lastNow = s.lastNow
      ∧ ∃ u, exec (.send (wireBytes s.cfg.crc s.cfg.opShutdown s.cfg.shutdownFields))
          (s.withSes { s.ses with sstate := .terminated, termReason := some r }) = .next u
        ∧ t.sent = u.sent ∧ t.draws = u.draws

/-- A cycle with `cancel` set, and one whose receive failed, terminates before it feeds or drains anything; cancel
comes first. The outcome names the reason. -/
def Obligations.CycleIsCancelledOrFailsAtReceive : Prop :=
  ∀ (s : State) (now throttle : Nat), s.ses.sstate ≠ .terminated → timeOk s now →
    (∀ rx, exec (.cycle now throttle true rx) s
      = .next ((terminate .cancelled (s.withLastNow (some now))).withResult
          (.outcome (.terminated (some .cancelled)))))
    ∧ exec (.cycle now throttle false .transportError) s
      = .next ((terminate (.fault .transport) (s.withLastNow (some now))).withResult
          (.outcome (.terminated (some (.fault .transport)))))

/-- SESSION_RESET destroys the dies and puts the session's fields back, all but the two revisions and the serial
number, which its rule does not list (log 30); it leaves everything outside the session as it is. -/
def Obligations.SessionResetClearsTheSession : Prop :=
  ∀ s : State, exec .sessionReset s = .next ((s.withSes
    { sstate := .starting, dies := 0, cores := 0, fwRev := s.ses.fwRev, hwRev := s.ses.hwRev,
      serial := s.ses.serial, coreOk := [], lastInitTx := none, lastReport := none, errUnknownSeq := 0,
      errBadNonce := 0, errBadDie := 0, errProtocol := 0, goodNonces := 0, totalHashes := 0, firstGood := none,
      termReason := none, die := [] }).withResult .unit)

/-- INIT_TICK in Starting: nothing before 5000 ms have passed since the last initialization frame; else the frame is
sent and the time noted, and a send that fails terminates the session. In Running it does nothing (log 16). -/
def Obligations.InitTickSendsWhenDue : Prop :=
  ∀ (s : State) (now : Nat), s.cfg.wf → payloadOk s.cfg.initFields.data = true → timeOk s now →
    (s.ses.sstate = .running →
      exec (.cycleInitTick now) s = .next ((s.withLastNow (some now)).withResult (.outcome .goOn)))
    ∧ (s.ses.sstate = .starting →
      (∀ t₀, s.ses.lastInitTx = some t₀ → now < t₀ + 5000 →
        exec (.cycleInitTick now) s = .next ((s.withLastNow (some now)).withResult (.outcome .goOn)))
      ∧ ((∀ t₀, s.ses.lastInitTx = some t₀ → t₀ + 5000 ≤ now) →
        ∃ u, exec (.send (wireBytes s.cfg.crc s.cfg.opInit s.cfg.initFields)) (s.withLastNow (some now)) = .next u
          ∧ exec (.cycleInitTick now) s = .next (if u.result = .unit
              then (u.withSes { s.ses with lastInitTx := some now }).withResult (.outcome .goOn)
              else u.withResult (.outcome (.terminated (some (.fault .transport)))))
          ∧ (u.result ≠ .unit →
            u.ses = { s.ses with sstate := .terminated, termReason := some (.fault .transport) })
          ∧ (sendsSucceed s → u.result = .unit)))

/-- An acknowledgement of operation status 0 in Starting: the counts, revisions and serial are taken over, the core
bitmap is decoded one die at a time, every die is created as R29 says, and the session runs. Nothing else changes. -/
def Obligations.HandshakeCreatesTheDies : Prop :=
  ∀ (s : State) (ia : InitAck), s.ses.sstate = .starting → ia.opStatus = 0 →
    ∃ ok : List (List Bool),
      exec (.cycleInitAckOk ia) s = .next ((s.withSes { s.ses with
        sstate := .running, dies := ia.dies, cores := ia.cores, fwRev := ia.fwRev, hwRev := ia.hwRev,
        serial := ia.serial, coreOk := ok,
        die := List.replicate ia.dies.toNat
          { seqNext := 0, work := [], coreSeq := List.replicate ia.cores.toNat none, lastSeqSeen := none,
            freeActive := [], freePending := [], thermal := false, monitor := none } }).withResult
        (.outcome .goOn))
      ∧ ok.length = ia.dies.toNat
      ∧ ∀ d, d < ia.dies.toNat → ∃ row, ok[d]? = some row ∧ row.length = ia.cores.toNat
        ∧ ∀ c, c < ia.cores.toNat → row[c]? = some (bitAt ia.coreBitmap (d * ia.cores.toNat + c))

/-- An acknowledgement of another operation status in Starting terminates the session with `Fault(InitFailed)`, and
no die is created. -/
def Obligations.HandshakeRefusalTerminates : Prop :=
  ∀ (s : State) (ia : InitAck), s.ses.sstate = .starting → ia.opStatus ≠ 0 →
    exec (.cycleInitAckFail ia) s = .next ((terminate (.fault .initFailed) s).withResult
      (.outcome (.terminated (some (.fault .initFailed)))))
    ∧ (terminate (.fault .initFailed) s).ses.die = s.ses.die

/-- Reports with no die to apply to: in Starting a nonce or status report is logged and otherwise ignored (the spec's
decision D20); in Running a status report for a missing die is counted and logged, its thermal bit ignored (D27). -/
def Obligations.ReportsWithoutADieAreIgnored : Prop :=
  ∀ s : State,
    (s.ses.sstate = .starting →
      (∀ nr now, timeOk s now → exec (.cycleNonceReport nr now) s
        = .next (((s.withLastNow (some now)).withLog (s.log ++ [.unknownFrame nr.base.opcode])).withResult
            (.outcome .goOn)))
      ∧ (∀ st, exec (.cycleStatusThermal st) s
          = .next ((s.withLog (s.log ++ [.unknownFrame st.base.opcode])).withResult (.outcome .goOn))
        ∧ exec (.cycleStatusReconcile st) s
          = .next ((s.withLog (s.log ++ [.unknownFrame st.base.opcode])).withResult (.outcome .goOn))))
    ∧ (s.ses.sstate = .running → ∀ st : StatusReport,
      s.ses.dies.toNat ≤ st.base.chip.toNat → ∀ i : Instr, i = .cycleStatusThermal st ∨ i = .cycleStatusReconcile st →
        exec i s = .next (((s.withSes { s.ses with errBadDie := bump s.cfg s.ses.errBadDie }).withLog
          (s.log ++ [.badDie st.base.chip])).withResult (.outcome .goOn)))

/-! ## The session: reports -/

/-- A nonce report in Running changes counters only: one unknown-sequence error for each candidate that names no
record, one good nonce with its hashes for each candidate whose record is good, one bad nonce for each other; the
first good one fixes the time the rate counts from. A candidate names the record that stands under its sequence in the
work table of the report's die, if that die exists; the record is good where VERIFY of it and the candidate gives a zero
count that reaches its difficulty. -/
def Obligations.NonceReportCounts : Prop :=
  ∀ (s : State) (nr : NonceReport) (now : Nat), s.ses.sstate = .running → timeOk s now →
    (∀ (d : Byte) (cand : CandidateNonce) (w : WorkRecord), recordOf d cand s = some w ↔
      d.toNat < s.ses.dies.toNat
      ∧ ∃ die, s.ses.die[d.toNat]? = some die ∧ workGet die.work cand.sequence = some w)
    ∧ (∀ (d : Byte) (cand : CandidateNonce) (w : WorkRecord) (z : Nat) (digest : Bytes), recordOf d cand s = some w →
      exec (.verify (.record w) cand) s = .next (s.withResult (.verified z digest)) →
      goodRecords d s [cand] = if w.searchDifficulty.toNat ≤ z then [w] else [])
    ∧ ∃ bad : Nat,
      unknownCount nr.base.chip s nr.nonces + (goodRecords nr.base.chip s nr.nonces).length + bad = nr.nonces.length
      ∧ exec (.cycleNonceReport nr now) s = .next (((s.withLastNow (some now)).withSes { s.ses with
        errUnknownSeq := (bump s.cfg)^[unknownCount nr.base.chip s nr.nonces] s.ses.errUnknownSeq
        errBadNonce   := (bump s.cfg)^[bad] s.ses.errBadNonce
        goodNonces    := (bump s.cfg)^[(goodRecords nr.base.chip s nr.nonces).length] s.ses.goodNonces
        totalHashes   := s.ses.totalHashes
          + ((goodRecords nr.base.chip s nr.nonces).map (fun w => 2 ^ w.searchDifficulty.toNat)).sum
        firstGood     := if goodRecords nr.base.chip s nr.nonces = [] then s.ses.firstGood
          else some (s.ses.firstGood.getD now) }).withResult (.outcome .goOn))

/-- A status report with the thermal bit, in Running and for a die that exists, marks the die and terminates the
session; nothing else of the report is applied. -/
def Obligations.ThermalCutoffTerminates : Prop :=
  ∀ (s : State) (st : StatusReport) (die : DieState), s.ses.sstate = .running → st.thermal = true →
    st.base.chip.toNat < s.ses.dies.toNat → s.ses.die[st.base.chip.toNat]? = some die →
    exec (.cycleStatusThermal st) s = .next ((terminate (.thermal st.base.chip)
      (s.withSes { s.ses with die := s.ses.die.set st.base.chip.toNat { die with thermal := true } })).withResult
      (.outcome (.terminated (some (.thermal st.base.chip)))))

/-- A status report without it replaces the die's two free lists: each holds, in some order and once, exactly the
cores the bitmap shows free whose last-issued sequence is none or reached by the report; the monitor sample and the
last sequence are stored; two shuffles are drawn; nothing else changes. -/
def Obligations.StatusReportReconcilesSlots : Prop :=
  ∀ (s : State) (st : StatusReport) (die : DieState), s.ses.sstate = .running → st.thermal = false →
    st.base.chip.toNat < s.ses.dies.toNat → s.ses.die[st.base.chip.toNat]? = some die →
    ∃ act pen : List Byte,
      exec (.cycleStatusReconcile st) s = .next (((s.withSes { s.ses with
        die := s.ses.die.set st.base.chip.toNat
          { die with freeActive := act, freePending := pen, monitor := some st.monitor,
                     lastSeqSeen := some st.lastSeq } }).withDraws { s.draws with
          shuffles := s.draws.shuffles.rest.rest }).withResult (.outcome .goOn))
      ∧ act.Nodup ∧ pen.Nodup
      ∧ ∀ c : Byte,
        (c ∈ act ↔ c.toNat < s.ses.cores.toNat ∧ bitAt st.bitmap (2 * c.toNat) = true
          ∧ ∀ q, coreSeqAt die c = some q → seqLe q st.lastSeq = true)
        ∧ (c ∈ pen ↔ c.toNat < s.ses.cores.toNat ∧ bitAt st.bitmap (2 * c.toNat + 1) = true
          ∧ ∀ q, coreSeqAt die c = some q → seqLe q st.lastSeq = true)

/-- The shuffle is free: every pair of orders of the two eligible lists is the outcome of some draws. -/
def Obligations.EveryOrderCanBeDrawn : Prop :=
  ∀ (s t : State) (st : StatusReport) (die die' : DieState), s.ses.sstate = .running → st.thermal = false →
    st.base.chip.toNat < s.ses.dies.toNat → s.ses.die[st.base.chip.toNat]? = some die →
    exec (.cycleStatusReconcile st) s = .next t → t.ses.die[st.base.chip.toNat]? = some die' →
    ∀ act pen : List Byte, act.Perm die'.freeActive → pen.Perm die'.freePending →
      ∃ (shuffles : Draw (List Nat)) (u : State),
        exec (.cycleStatusReconcile st) (s.withDraws { s.draws with shuffles := shuffles }) = .next u
        ∧ u.ses.die[st.base.chip.toNat]? = some { die' with freeActive := act, freePending := pen }

/-! ## The session: issuance -/

/-- The serialized job: 60 bytes and the pad, each of the eleven fields at its offset, so that two jobs of one
serialization are equal. The order of the fields and of their bytes is the spec's decision D5 (log 8), the pad bytes
its decision D50 (log 28). -/
def Obligations.JobIsSerializedInOrder : Prop :=
  ∀ (c : Cfg) (j : HashJob), (jobBytes c j).length = 60 + c.jobPad
    ∧ (jobBytes c j).take 32 = j.midstate.toList ∧ ((jobBytes c j).drop 32).take 4 = j.merkleResidual.toList
    ∧ le32 (jobBytes c j) 36 = j.timestamp ∧ le32 (jobBytes c j) 40 = j.bits
    ∧ le32 (jobBytes c j) 44 = j.startingNonce ∧ le32 (jobBytes c j) 48 = j.nonceLoops
    ∧ le16 (jobBytes c j) 52 = j.ntimeLoops ∧ (jobBytes c j)[54]? = some j.searchDifficulty
    ∧ (jobBytes c j)[55]? = some j.option ∧ (jobBytes c j)[56]? = some j.group
    ∧ ((jobBytes c j).drop 57).take 3 = j.spare.toList ∧ (∀ x ∈ (jobBytes c j).drop 60, x = 0)
    ∧ ∀ j', jobBytes c j' = jobBytes c j → j' = j

/-- ISSUE_ONE: the drawn job with the session's difficulty gets the die's next sequence; the core's previous record
goes if it is still that core's, the new record stands under the new sequence, every other key keeps what it had; the
hash-job frame is sent after the bookkeeping, and a send that fails leaves it in place and terminates the session. -/
def Obligations.IssueOneRecordsAndSends : Prop :=
  ∀ (s : State) (d c : Byte) (now : Nat) (die : DieState), s.cfg.wf → s.ses.sstate = .running →
    timeOk s now → d.toNat < s.ses.dies.toNat → s.ses.die[d.toNat]? = some die → c.toNat < s.ses.cores.toNat →
    ∀ job : HashJob, job = { s.draws.jobs.now with searchDifficulty := s.cfg.testDifficulty } →
    ∃ (work : List (Half × WorkRecord)) (u : State),
      (∀ k, workGet work k =
        if k = die.seqNext then some { issueTime := now, job := job, searchDifficulty := s.cfg.testDifficulty,
                                       die := d, core := c }
        else if coreSeqAt die c = some k then (workGet die.work k).filter (fun w => w.core ≠ c)
        else workGet die.work k)
      ∧ exec (.send (wireBytes s.cfg.crc s.cfg.opHash
          { chip := d, core := c, hdata := die.seqNext, data := jobBytes s.cfg job }))
        (((s.withLastNow (some now)).withDraws { s.draws with jobs := s.draws.jobs.rest }).withSes { s.ses with
          die := s.ses.die.set d.toNat { die with
            seqNext := die.seqNext + 1, work := work, coreSeq := die.coreSeq.set c.toNat (some die.seqNext) } })
        = .next u
      ∧ exec (.cycleIssueOne d c now) s = .next (if u.result = .unit
          then u.withResult (.outcome .goOn)
          else u.withResult (.outcome (.terminated (some (.fault .transport)))))
      ∧ (u.result ≠ .unit → u.ses.sstate = .terminated ∧ u.ses.termReason = some (.fault .transport)
        ∧ u.ses.die = s.ses.die.set d.toNat { die with
            seqNext := die.seqNext + 1, work := work, coreSeq := die.coreSeq.set c.toNat (some die.seqNext) })
      ∧ (sendsSucceed s → u.result = .unit)

/-- ISSUE_ALL in Running completes. Where a job frame fits one chunk, it fills, for each die in ascending order, one
slot for each core of the active list that the throttle leaves and then, unthrottled, of the pending list: the frames
are sent in that order, each answered by the next draw, numbered from the die's counter on; the counter advances by as
many; each core served holds its last number and the record of its last job; its earlier record goes, every other
record stands. Where every send succeeds both lists of every die end empty; at the first send that fails the slots
filled, the failed one among them, keep their bookkeeping, the remaining ones are not filled, only the lists of the dies
already left are empty, and the session terminates (the order, the throttle and the cleared lists are the spec's
decisions D22, D24, D25). -/
def Obligations.IssueAllFillsAndClears : Prop :=
  ∀ (s : State) (now throttle : Nat), s.ses.sstate = .running → timeOk s now →
    (∃ t, exec (.cycleIssueAll now throttle) s = .next t)
    ∧ (sessionInv s.ses → s.cfg.wf → 68 + s.cfg.jobPad ≤ s.cfg.maxSendSize →
      ((∀ i, i < (allSlots s.cfg throttle s.ses.die).length → s.draws.sends.nth i = true) →
        ∃ u, slotsIssued s u now throttle (allSlots s.cfg throttle s.ses.die).length true
          ∧ exec (.cycleIssueAll now throttle) s = .next (u.withResult (.outcome .goOn)))
      ∧ (∀ n, n < (allSlots s.cfg throttle s.ses.die).length → (∀ i, i < n → s.draws.sends.nth i = true) →
        s.draws.sends.nth n = false →
        ∃ u, slotsIssued s u now throttle (n + 1) false
          ∧ exec (.cycleIssueAll now throttle) s = .next ((terminate (.fault .transport) u).withResult
            (.outcome (.terminated (some (.fault .transport)))))))

/-- REPORT_TICK in Running: before 2000 ms have passed since the last report only the time is noted; else the rate is
logged and the time of the report noted. The rate is the total over the elapsed time where that is defined, and
nothing where it is not (the spec's decision D41: log 23). -/
def Obligations.ReportTickReportsWhenDue : Prop :=
  ∀ (s : State) (now : Nat), s.ses.sstate = .running → timeOk s now →
    (∀ t₀, s.ses.lastReport = some t₀ → now < t₀ + 2000 →
      exec (.cycleReportTick now) s = .next ((s.withLastNow (some now)).withResult (.outcome .goOn)))
    ∧ ((∀ t₀, s.ses.lastReport = some t₀ → t₀ + 2000 ≤ now) →
      ∃ figure : Option (Nat × Nat),
        exec (.cycleReportTick now) s = .next ((((s.withLastNow (some now)).withLog
          (s.log ++ [.hashRate figure])).withSes { s.ses with lastReport := some now }).withResult (.outcome .goOn))
        ∧ (∀ t₀, s.ses.firstGood = some t₀ → t₀ < now → figure = some (s.ses.totalHashes, now - t₀))
        ∧ ((∀ t₀, s.ses.firstGood = some t₀ → now ≤ t₀) → figure = none))

/-! ## The cycle -/

/-- What a CYCLE does, step by step. It feeds its bytes behind those that wait. Where a bounded queue fills before they
are all taken, it drains the queue and goes on with the bytes not taken, which wait if the drain ends the session
(41_stream_parser R131; the model's choice: log 19). To drain is to take the head of the queue and dispatch it until the
queue is empty or the session has ended. Then, while there is a token, it takes the head and dispatches it, and returns
if that ended the session; then it runs INIT_TICK if Starting; if Running, ISSUE_ALL and, unless that ended the
session, REPORT_TICK. The order is the spec's decisions D19, D21, D33. -/
def Obligations.CycleFeedsDrainsAndIssues : Prop :=
  (∀ (s : State) (now : Nat),
    (s.par.queue = [] → drain now s = s)
    ∧ (∀ x q v, s.par.queue = x :: q → v = dispatch x now (s.withPar { s.par with queue := q }) →
      drain now s = if v.ses.sstate = .terminated then v else drain now v))
  ∧ ∀ (s : State) (now throttle : Nat), s.ses.sstate ≠ .terminated → timeOk s now →
    (∀ (b : Bytes) (u : State), exec (.feed b) s = .next u → u.result = .unit →
      exec (.cycle now throttle false (.bytes b)) s = exec (.cycle now throttle false (.bytes [])) u)
    ∧ (∀ (b rest : Bytes) (u v : State), exec (.feed b) s = .next u → u.result = .stalled rest →
      v = drain now (u.withLastNow (some now)) →
      u.waiting = rest ∧ v.waiting = rest
      ∧ (v.ses.sstate = .terminated → exec (.cycle now throttle false (.bytes b)) s
        = .next (v.withResult (.outcome (.terminated v.ses.termReason))))
      ∧ (v.ses.sstate ≠ .terminated → exec (.cycle now throttle false (.bytes b)) s
        = exec (.cycle now throttle false (.bytes [])) v))
    ∧ (s.waiting = [] → ∀ (x : Token) (u : State), exec .takeToken s = .next u → u.result = .token (some x) →
      ((dispatch x now (u.withLastNow (some now))).ses.sstate = .terminated →
        exec (.cycle now throttle false (.bytes [])) s = .next ((dispatch x now (u.withLastNow (some now))).withResult
          (.outcome (.terminated (dispatch x now (u.withLastNow (some now))).ses.termReason))))
      ∧ ((dispatch x now (u.withLastNow (some now))).ses.sstate ≠ .terminated →
        exec (.cycle now throttle false (.bytes [])) s
          = exec (.cycle now throttle false (.bytes [])) (dispatch x now (u.withLastNow (some now)))))
    ∧ (s.waiting = [] → s.par.queue = [] → s.ses.sstate = .starting →
      exec (.cycle now throttle false (.bytes [])) s = exec (.cycleInitTick now) s)
    ∧ (s.waiting = [] → s.par.queue = [] → s.ses.sstate = .running →
      ∃ u, exec (.cycleIssueAll now throttle) s = .next u
        ∧ (u.ses.sstate = .terminated → exec (.cycle now throttle false (.bytes [])) s = .next u)
        ∧ (u.ses.sstate ≠ .terminated →
          u.ses.sstate = .running
          ∧ exec (.cycle now throttle false (.bytes [])) s = exec (.cycleReportTick now) u))

/-- What DISPATCH does with a token the cycle has taken: the rows of its steps say it for acknowledgements, nonce
reports and status reports, each row of a pair doing the same on every operand (the model's choice: log 16); an
acknowledgement in Running, whatever its status, and any other token is only logged (the spec's decisions D12, D20), and
in Running a protocol error is counted, in Starting not (log 29). -/
def Obligations.DispatchRunsTheTokensRow : Prop :=
  ∀ (s : State) (now : Nat), s.ses.sstate ≠ .terminated → s.lastNow = some now →
    (∀ ia, exec (.cycleInitAckOk ia) s = .next ((dispatch (.frame (.initAck ia)) now s).withResult
        (.outcome (outcomeOf (dispatch (.frame (.initAck ia)) now s))))
      ∧ exec (.cycleInitAckFail ia) s = exec (.cycleInitAckOk ia) s
      ∧ (s.ses.sstate = .running →
        dispatch (.frame (.initAck ia)) now s = s.withLog (s.log ++ [.initAckWhileRunning])))
    ∧ (∀ nr, exec (.cycleNonceReport nr now) s = .next ((dispatch (.frame (.nonceReport nr)) now s).withResult
        (.outcome (outcomeOf (dispatch (.frame (.nonceReport nr)) now s)))))
    ∧ (∀ st, exec (.cycleStatusReconcile st) s = .next ((dispatch (.frame (.statusReport st)) now s).withResult
        (.outcome (outcomeOf (dispatch (.frame (.statusReport st)) now s))))
      ∧ exec (.cycleStatusThermal st) s = exec (.cycleStatusReconcile st) s)
    ∧ (∀ n, dispatch (.frame (.notice n)) now s = s.withLog (s.log ++ [.unknownFrame n.base.opcode]))
    ∧ (∀ f, dispatch (.frame (.generic f)) now s = s.withLog (s.log ++ [.unknownFrame f.opcode]))
    ∧ (∀ b, dispatch (.garbage b) now s = s.withLog (s.log ++ [.garbage b.length]))
    ∧ (∀ code base, s.ses.sstate = .running → dispatch (.protoErr code base) now s
        = (s.withSes { s.ses with errProtocol := bump s.cfg s.ses.errProtocol }).withLog (s.log ++ [.protoErr code]))
    ∧ (∀ code base, s.ses.sstate = .starting →
      dispatch (.protoErr code base) now s = s.withLog (s.log ++ [.protoErr code]))

/-- A CYCLE always completes: no error escapes it. Its outcome tells whether the session has ended and why; the
configuration, the requests and the fields of no cycle's concern are unchanged. -/
def Obligations.CycleAlwaysCompletes : Prop :=
  ∀ (s : State) (now throttle : Nat) (cancel : Bool) (rx : Rx), timeOk s now →
    ∃ t : State, exec (.cycle now throttle cancel rx) s = .next t
      ∧ (t.ses.sstate = .terminated → t.result = .outcome (.terminated t.ses.termReason))
      ∧ (t.ses.sstate ≠ .terminated → t.result = .outcome .goOn)
      ∧ t.lastNow = some now ∧ t.cfg = s.cfg ∧ t.calls = s.calls
      ∧ (∃ calls, t.sent = s.sent ++ calls) ∧ (∃ events, t.log = s.log ++ events)

/-! ## Whole-machine rules -/

/-- Right after reset every state element has the value of the reset table, and of the three it leaves unspecified
the model's (log 11). -/
def Obligations.ResetValues : Prop :=
  State.reset.par = { pstate := .outOfSync, acc := [], need := 0, queue := [], crcErr := 0 }
  ∧ State.reset.ses =
    { sstate := .starting, dies := 0, cores := 0, fwRev := 0, hwRev := 0, serial := 0, coreOk := [],
      lastInitTx := none, lastReport := none, errUnknownSeq := 0, errBadNonce := 0, errBadDie := 0,
      errProtocol := 0, goodNonces := 0, totalHashes := 0, firstGood := none, termReason := none, die := [] }

/-- The state right after reset meets the invariant of R38; its configuration, with the model's values of the open
parameters (log 5) and the spec's presumed defaults (log 6), meets the constraints of R6 and the model's own on the
layout (log 32). -/
def Obligations.ResetMeetsTheInvariant : Prop :=
  stateInv State.reset ∧ State.reset.cfg.wf ∧ State.reset.cfg.layoutOk = true

/-- Every step keeps the invariant: the accumulator as R38 (a) to (c) say, no die before the handshake, a reason
exactly in Terminated, every work table in canonical form with each record under its core's last-issued sequence, the
free lists naming existing cores once, the token queue within its depth, and no byte waiting behind an unbounded one. -/
def Obligations.StepKeepsTheInvariant : Prop :=
  ∀ s t : State, stateInv s → step s = .next t → stateInv t

/-- In a session that meets the invariant, a die's work table holds at most one record per core, hence at most as many
as there are cores; and reading it finds exactly the records in it. -/
def Obligations.WorkHoldsOneRecordPerCore : Prop :=
  ∀ (s : State) (die : DieState), sessionInv s.ses → die ∈ s.ses.die →
    die.work.length ≤ s.ses.cores.toNat
    ∧ (∀ e ∈ die.work, ∀ e' ∈ die.work, e.2.core = e'.2.core → e = e')
    ∧ (∀ k w, workGet die.work k = some w ↔ (k, w) ∈ die.work)

/-- The session only moves forward, whatever is asked, unless SESSION_RESET is: Terminated stays with its reason,
Running never becomes Starting, and outside the handshake the counts, revisions, serial, core bitmap and number of
dies stay. SESSION_RESET alone re-enters Starting. No step changes the configuration, and time never goes back. -/
def Obligations.SessionOnlyMovesForward : Prop :=
  ∀ s t : State, step s = .next t →
    t.cfg = s.cfg
    ∧ (∀ x ∈ s.lastNow, ∃ y ∈ t.lastNow, x ≤ y)
    ∧ (s.calls.head? = some (.call .sessionReset) → t.ses.sstate = .starting)
    ∧ (s.calls.head? ≠ some (.call .sessionReset) →
      (s.ses.sstate = .terminated → t.ses.sstate = .terminated ∧ t.ses.termReason = s.ses.termReason)
      ∧ (s.ses.sstate = .running → t.ses.sstate ≠ .starting)
      ∧ (s.ses.sstate ≠ .starting →
        t.ses.dies = s.ses.dies ∧ t.ses.cores = s.ses.cores ∧ t.ses.fwRev = s.ses.fwRev
        ∧ t.ses.hwRev = s.ses.hwRev ∧ t.ses.serial = s.ses.serial ∧ t.ses.coreOk = s.ses.coreOk
        ∧ t.ses.die.length = s.ses.die.length))
end

