-- ==== Sys2Proof/Laws/State.lean ====
section
/-! SUPPORT. One lemma per field per named update of the state, all by rfl, so that no proof unfolds a record update;
and the same for the composite updates of Ops.lean. -/

namespace Sys2Proof.Machine

variable (s : State)

@[simp] theorem State.withPar_cfg (p : Parser) : (s.withPar p).cfg = s.cfg := rfl
@[simp] theorem State.withPar_par (p : Parser) : (s.withPar p).par = p := rfl
@[simp] theorem State.withPar_ses (p : Parser) : (s.withPar p).ses = s.ses := rfl
@[simp] theorem State.withPar_calls (p : Parser) : (s.withPar p).calls = s.calls := rfl
@[simp] theorem State.withPar_waiting (p : Parser) : (s.withPar p).waiting = s.waiting := rfl
@[simp] theorem State.withPar_draws (p : Parser) : (s.withPar p).draws = s.draws := rfl
@[simp] theorem State.withPar_lastNow (p : Parser) : (s.withPar p).lastNow = s.lastNow := rfl
@[simp] theorem State.withPar_result (p : Parser) : (s.withPar p).result = s.result := rfl
@[simp] theorem State.withPar_sent (p : Parser) : (s.withPar p).sent = s.sent := rfl
@[simp] theorem State.withPar_log (p : Parser) : (s.withPar p).log = s.log := rfl

@[simp] theorem State.withSes_cfg (x : Session) : (s.withSes x).cfg = s.cfg := rfl
@[simp] theorem State.withSes_par (x : Session) : (s.withSes x).par = s.par := rfl
@[simp] theorem State.withSes_ses (x : Session) : (s.withSes x).ses = x := rfl
@[simp] theorem State.withSes_calls (x : Session) : (s.withSes x).calls = s.calls := rfl
@[simp] theorem State.withSes_waiting (x : Session) : (s.withSes x).waiting = s.waiting := rfl
@[simp] theorem State.withSes_draws (x : Session) : (s.withSes x).draws = s.draws := rfl
@[simp] theorem State.withSes_lastNow (x : Session) : (s.withSes x).lastNow = s.lastNow := rfl
@[simp] theorem State.withSes_result (x : Session) : (s.withSes x).result = s.result := rfl
@[simp] theorem State.withSes_sent (x : Session) : (s.withSes x).sent = s.sent := rfl
@[simp] theorem State.withSes_log (x : Session) : (s.withSes x).log = s.log := rfl

@[simp] theorem State.withCalls_cfg (c : List Request) : (s.withCalls c).cfg = s.cfg := rfl
@[simp] theorem State.withCalls_par (c : List Request) : (s.withCalls c).par = s.par := rfl
@[simp] theorem State.withCalls_ses (c : List Request) : (s.withCalls c).ses = s.ses := rfl
@[simp] theorem State.withCalls_calls (c : List Request) : (s.withCalls c).calls = c := rfl
@[simp] theorem State.withCalls_waiting (c : List Request) : (s.withCalls c).waiting = s.waiting := rfl
@[simp] theorem State.withCalls_draws (c : List Request) : (s.withCalls c).draws = s.draws := rfl
@[simp] theorem State.withCalls_lastNow (c : List Request) : (s.withCalls c).lastNow = s.lastNow := rfl
@[simp] theorem State.withCalls_result (c : List Request) : (s.withCalls c).result = s.result := rfl
@[simp] theorem State.withCalls_sent (c : List Request) : (s.withCalls c).sent = s.sent := rfl
@[simp] theorem State.withCalls_log (c : List Request) : (s.withCalls c).log = s.log := rfl

@[simp] theorem State.withWaiting_cfg (b : Bytes) : (s.withWaiting b).cfg = s.cfg := rfl
@[simp] theorem State.withWaiting_par (b : Bytes) : (s.withWaiting b).par = s.par := rfl
@[simp] theorem State.withWaiting_ses (b : Bytes) : (s.withWaiting b).ses = s.ses := rfl
@[simp] theorem State.withWaiting_calls (b : Bytes) : (s.withWaiting b).calls = s.calls := rfl
@[simp] theorem State.withWaiting_draws (b : Bytes) : (s.withWaiting b).draws = s.draws := rfl
@[simp] theorem State.withWaiting_lastNow (b : Bytes) : (s.withWaiting b).lastNow = s.lastNow := rfl
@[simp] theorem State.withWaiting_result (b : Bytes) : (s.withWaiting b).result = s.result := rfl
@[simp] theorem State.withWaiting_sent (b : Bytes) : (s.withWaiting b).sent = s.sent := rfl
@[simp] theorem State.withWaiting_log (b : Bytes) : (s.withWaiting b).log = s.log := rfl
@[simp] theorem State.withWaiting_waiting (b : Bytes) : (s.withWaiting b).waiting = b := rfl

@[simp] theorem State.withDraws_cfg (d : Draws) : (s.withDraws d).cfg = s.cfg := rfl
@[simp] theorem State.withDraws_par (d : Draws) : (s.withDraws d).par = s.par := rfl
@[simp] theorem State.withDraws_ses (d : Draws) : (s.withDraws d).ses = s.ses := rfl
@[simp] theorem State.withDraws_calls (d : Draws) : (s.withDraws d).calls = s.calls := rfl
@[simp] theorem State.withDraws_waiting (d : Draws) : (s.withDraws d).waiting = s.waiting := rfl
@[simp] theorem State.withDraws_draws (d : Draws) : (s.withDraws d).draws = d := rfl
@[simp] theorem State.withDraws_lastNow (d : Draws) : (s.withDraws d).lastNow = s.lastNow := rfl
@[simp] theorem State.withDraws_result (d : Draws) : (s.withDraws d).result = s.result := rfl
@[simp] theorem State.withDraws_sent (d : Draws) : (s.withDraws d).sent = s.sent := rfl
@[simp] theorem State.withDraws_log (d : Draws) : (s.withDraws d).log = s.log := rfl

@[simp] theorem State.withLastNow_cfg (t : Option Nat) : (s.withLastNow t).cfg = s.cfg := rfl
@[simp] theorem State.withLastNow_par (t : Option Nat) : (s.withLastNow t).par = s.par := rfl
@[simp] theorem State.withLastNow_ses (t : Option Nat) : (s.withLastNow t).ses = s.ses := rfl
@[simp] theorem State.withLastNow_calls (t : Option Nat) : (s.withLastNow t).calls = s.calls := rfl
@[simp] theorem State.withLastNow_waiting (t : Option Nat) : (s.withLastNow t).waiting = s.waiting := rfl
@[simp] theorem State.withLastNow_draws (t : Option Nat) : (s.withLastNow t).draws = s.draws := rfl
@[simp] theorem State.withLastNow_lastNow (t : Option Nat) : (s.withLastNow t).lastNow = t := rfl
@[simp] theorem State.withLastNow_result (t : Option Nat) : (s.withLastNow t).result = s.result := rfl
@[simp] theorem State.withLastNow_sent (t : Option Nat) : (s.withLastNow t).sent = s.sent := rfl
@[simp] theorem State.withLastNow_log (t : Option Nat) : (s.withLastNow t).log = s.log := rfl

@[simp] theorem State.withResult_cfg (r : Result) : (s.withResult r).cfg = s.cfg := rfl
@[simp] theorem State.withResult_par (r : Result) : (s.withResult r).par = s.par := rfl
@[simp] theorem State.withResult_ses (r : Result) : (s.withResult r).ses = s.ses := rfl
@[simp] theorem State.withResult_calls (r : Result) : (s.withResult r).calls = s.calls := rfl
@[simp] theorem State.withResult_waiting (r : Result) : (s.withResult r).waiting = s.waiting := rfl
@[simp] theorem State.withResult_draws (r : Result) : (s.withResult r).draws = s.draws := rfl
@[simp] theorem State.withResult_lastNow (r : Result) : (s.withResult r).lastNow = s.lastNow := rfl
@[simp] theorem State.withResult_result (r : Result) : (s.withResult r).result = r := rfl
@[simp] theorem State.withResult_sent (r : Result) : (s.withResult r).sent = s.sent := rfl
@[simp] theorem State.withResult_log (r : Result) : (s.withResult r).log = s.log := rfl

@[simp] theorem State.withSent_cfg (l : List SendCall) : (s.withSent l).cfg = s.cfg := rfl
@[simp] theorem State.withSent_par (l : List SendCall) : (s.withSent l).par = s.par := rfl
@[simp] theorem State.withSent_ses (l : List SendCall) : (s.withSent l).ses = s.ses := rfl
@[simp] theorem State.withSent_calls (l : List SendCall) : (s.withSent l).calls = s.calls := rfl
@[simp] theorem State.withSent_waiting (l : List SendCall) : (s.withSent l).waiting = s.waiting := rfl
@[simp] theorem State.withSent_draws (l : List SendCall) : (s.withSent l).draws = s.draws := rfl
@[simp] theorem State.withSent_lastNow (l : List SendCall) : (s.withSent l).lastNow = s.lastNow := rfl
@[simp] theorem State.withSent_result (l : List SendCall) : (s.withSent l).result = s.result := rfl
@[simp] theorem State.withSent_sent (l : List SendCall) : (s.withSent l).sent = l := rfl
@[simp] theorem State.withSent_log (l : List SendCall) : (s.withSent l).log = s.log := rfl

@[simp] theorem State.withLog_cfg (l : List LogEvent) : (s.withLog l).cfg = s.cfg := rfl
@[simp] theorem State.withLog_par (l : List LogEvent) : (s.withLog l).par = s.par := rfl
@[simp] theorem State.withLog_ses (l : List LogEvent) : (s.withLog l).ses = s.ses := rfl
@[simp] theorem State.withLog_calls (l : List LogEvent) : (s.withLog l).calls = s.calls := rfl
@[simp] theorem State.withLog_waiting (l : List LogEvent) : (s.withLog l).waiting = s.waiting := rfl
@[simp] theorem State.withLog_draws (l : List LogEvent) : (s.withLog l).draws = s.draws := rfl
@[simp] theorem State.withLog_lastNow (l : List LogEvent) : (s.withLog l).lastNow = s.lastNow := rfl
@[simp] theorem State.withLog_result (l : List LogEvent) : (s.withLog l).result = s.result := rfl
@[simp] theorem State.withLog_sent (l : List LogEvent) : (s.withLog l).sent = s.sent := rfl
@[simp] theorem State.withLog_log (l : List LogEvent) : (s.withLog l).log = l := rfl

@[simp] theorem State.note_cfg (e : LogEvent) : (s.note e).cfg = s.cfg := rfl
@[simp] theorem State.note_par (e : LogEvent) : (s.note e).par = s.par := rfl
@[simp] theorem State.note_ses (e : LogEvent) : (s.note e).ses = s.ses := rfl
@[simp] theorem State.note_calls (e : LogEvent) : (s.note e).calls = s.calls := rfl
@[simp] theorem State.note_waiting (e : LogEvent) : (s.note e).waiting = s.waiting := rfl
@[simp] theorem State.note_draws (e : LogEvent) : (s.note e).draws = s.draws := rfl
@[simp] theorem State.note_lastNow (e : LogEvent) : (s.note e).lastNow = s.lastNow := rfl
@[simp] theorem State.note_result (e : LogEvent) : (s.note e).result = s.result := rfl
@[simp] theorem State.note_sent (e : LogEvent) : (s.note e).sent = s.sent := rfl
@[simp] theorem State.note_log (e : LogEvent) : (s.note e).log = s.log ++ [e] := rfl

@[simp] theorem State.jobDrawn_cfg : s.jobDrawn.cfg = s.cfg := rfl
@[simp] theorem State.jobDrawn_par : s.jobDrawn.par = s.par := rfl
@[simp] theorem State.jobDrawn_ses : s.jobDrawn.ses = s.ses := rfl
@[simp] theorem State.jobDrawn_calls : s.jobDrawn.calls = s.calls := rfl
@[simp] theorem State.jobDrawn_waiting : s.jobDrawn.waiting = s.waiting := rfl
@[simp] theorem State.jobDrawn_draws : s.jobDrawn.draws = { s.draws with jobs := s.draws.jobs.rest } := rfl
@[simp] theorem State.jobDrawn_lastNow : s.jobDrawn.lastNow = s.lastNow := rfl
@[simp] theorem State.jobDrawn_result : s.jobDrawn.result = s.result := rfl
@[simp] theorem State.jobDrawn_sent : s.jobDrawn.sent = s.sent := rfl
@[simp] theorem State.jobDrawn_log : s.jobDrawn.log = s.log := rfl

@[simp] theorem State.shuffleDrawn_cfg : s.shuffleDrawn.cfg = s.cfg := rfl
@[simp] theorem State.shuffleDrawn_par : s.shuffleDrawn.par = s.par := rfl
@[simp] theorem State.shuffleDrawn_ses : s.shuffleDrawn.ses = s.ses := rfl
@[simp] theorem State.shuffleDrawn_calls : s.shuffleDrawn.calls = s.calls := rfl
@[simp] theorem State.shuffleDrawn_waiting : s.shuffleDrawn.waiting = s.waiting := rfl
@[simp] theorem State.shuffleDrawn_draws : s.shuffleDrawn.draws = { s.draws with shuffles := s.draws.shuffles.rest } := rfl
@[simp] theorem State.shuffleDrawn_lastNow : s.shuffleDrawn.lastNow = s.lastNow := rfl
@[simp] theorem State.shuffleDrawn_result : s.shuffleDrawn.result = s.result := rfl
@[simp] theorem State.shuffleDrawn_sent : s.shuffleDrawn.sent = s.sent := rfl
@[simp] theorem State.shuffleDrawn_log : s.shuffleDrawn.log = s.log := rfl

@[simp] theorem State.sendDrawn_cfg : s.sendDrawn.cfg = s.cfg := rfl
@[simp] theorem State.sendDrawn_par : s.sendDrawn.par = s.par := rfl
@[simp] theorem State.sendDrawn_ses : s.sendDrawn.ses = s.ses := rfl
@[simp] theorem State.sendDrawn_calls : s.sendDrawn.calls = s.calls := rfl
@[simp] theorem State.sendDrawn_waiting : s.sendDrawn.waiting = s.waiting := rfl
@[simp] theorem State.sendDrawn_draws : s.sendDrawn.draws = { s.draws with sends := s.draws.sends.rest } := rfl
@[simp] theorem State.sendDrawn_lastNow : s.sendDrawn.lastNow = s.lastNow := rfl
@[simp] theorem State.sendDrawn_result : s.sendDrawn.result = s.result := rfl
@[simp] theorem State.sendDrawn_sent : s.sendDrawn.sent = s.sent := rfl
@[simp] theorem State.sendDrawn_log : s.sendDrawn.log = s.log := rfl

@[simp] theorem State.requestTaken_cfg : s.requestTaken.cfg = s.cfg := rfl
@[simp] theorem State.requestTaken_par : s.requestTaken.par = s.par := rfl
@[simp] theorem State.requestTaken_ses : s.requestTaken.ses = s.ses := rfl
@[simp] theorem State.requestTaken_calls : s.requestTaken.calls = s.calls.tail := rfl
@[simp] theorem State.requestTaken_waiting : s.requestTaken.waiting = s.waiting := rfl
@[simp] theorem State.requestTaken_draws : s.requestTaken.draws = s.draws := rfl
@[simp] theorem State.requestTaken_lastNow : s.requestTaken.lastNow = s.lastNow := rfl
@[simp] theorem State.requestTaken_result : s.requestTaken.result = s.result := rfl
@[simp] theorem State.requestTaken_sent : s.requestTaken.sent = s.sent := rfl
@[simp] theorem State.requestTaken_log : s.requestTaken.log = s.log := rfl

@[simp] theorem State.withDie_cfg (d : Byte) (die : DieState) : (s.withDie d die).cfg = s.cfg := rfl
@[simp] theorem State.withDie_par (d : Byte) (die : DieState) : (s.withDie d die).par = s.par := rfl
@[simp] theorem State.withDie_ses (d : Byte) (die : DieState) : (s.withDie d die).ses = { s.ses with die := s.ses.die.set d.toNat die } := rfl
@[simp] theorem State.withDie_calls (d : Byte) (die : DieState) : (s.withDie d die).calls = s.calls := rfl
@[simp] theorem State.withDie_waiting (d : Byte) (die : DieState) : (s.withDie d die).waiting = s.waiting := rfl
@[simp] theorem State.withDie_draws (d : Byte) (die : DieState) : (s.withDie d die).draws = s.draws := rfl
@[simp] theorem State.withDie_lastNow (d : Byte) (die : DieState) : (s.withDie d die).lastNow = s.lastNow := rfl
@[simp] theorem State.withDie_result (d : Byte) (die : DieState) : (s.withDie d die).result = s.result := rfl
@[simp] theorem State.withDie_sent (d : Byte) (die : DieState) : (s.withDie d die).sent = s.sent := rfl
@[simp] theorem State.withDie_log (d : Byte) (die : DieState) : (s.withDie d die).log = s.log := rfl

@[simp] theorem sendCall_cfg (ch : Bytes) : (sendCall ch s).cfg = s.cfg := rfl
@[simp] theorem sendCall_par (ch : Bytes) : (sendCall ch s).par = s.par := rfl
@[simp] theorem sendCall_ses (ch : Bytes) : (sendCall ch s).ses = s.ses := rfl
@[simp] theorem sendCall_calls (ch : Bytes) : (sendCall ch s).calls = s.calls := rfl
@[simp] theorem sendCall_waiting (ch : Bytes) : (sendCall ch s).waiting = s.waiting := rfl
@[simp] theorem sendCall_draws (ch : Bytes) : (sendCall ch s).draws = { s.draws with sends := s.draws.sends.rest } := rfl
@[simp] theorem sendCall_lastNow (ch : Bytes) : (sendCall ch s).lastNow = s.lastNow := rfl
@[simp] theorem sendCall_result (ch : Bytes) : (sendCall ch s).result = s.result := rfl
@[simp] theorem sendCall_sent (ch : Bytes) : (sendCall ch s).sent = s.sent ++ [{ bytes := ch, ok := s.draws.sends.now }] := rfl
@[simp] theorem sendCall_log (ch : Bytes) : (sendCall ch s).log = s.log := rfl

@[simp] theorem resetSession_cfg : (resetSession s).cfg = s.cfg := rfl
@[simp] theorem resetSession_par : (resetSession s).par = s.par := rfl
@[simp] theorem resetSession_ses : (resetSession s).ses = { Session.reset with fwRev := s.ses.fwRev, hwRev := s.ses.hwRev, serial := s.ses.serial } := rfl
@[simp] theorem resetSession_calls : (resetSession s).calls = s.calls := rfl
@[simp] theorem resetSession_waiting : (resetSession s).waiting = s.waiting := rfl
@[simp] theorem resetSession_draws : (resetSession s).draws = s.draws := rfl
@[simp] theorem resetSession_lastNow : (resetSession s).lastNow = s.lastNow := rfl
@[simp] theorem resetSession_result : (resetSession s).result = s.result := rfl
@[simp] theorem resetSession_sent : (resetSession s).sent = s.sent := rfl
@[simp] theorem resetSession_log : (resetSession s).log = s.log := rfl

/-- Two updates of one field: the later one stands. -/
@[simp] theorem State.withResult_withResult (r r' : Result) : (s.withResult r).withResult r' = s.withResult r' := rfl

@[simp] theorem State.withPar_withPar (p p' : Parser) : (s.withPar p).withPar p' = s.withPar p' := rfl

@[simp] theorem State.withSes_withSes (x x' : Session) : (s.withSes x).withSes x' = s.withSes x' := rfl

@[simp] theorem State.withCalls_withCalls (c c' : List Request) : (s.withCalls c).withCalls c' = s.withCalls c' := rfl

@[simp] theorem State.withWaiting_withWaiting (b b' : Bytes) : (s.withWaiting b).withWaiting b' = s.withWaiting b' := rfl

/-- Writing a field back changes nothing. -/
@[simp] theorem State.withPar_self : s.withPar s.par = s := rfl

@[simp] theorem State.withSes_self : s.withSes s.ses = s := rfl

@[simp] theorem State.withWaiting_self : s.withWaiting s.waiting = s := rfl

theorem State.withWaiting_of_nil {s : State} (h : s.waiting = []) : s.withWaiting [] = s := by rw [← h]; rfl

end Sys2Proof.Machine
end

