-- ==== Sys2Proof/Laws/Ops.lean ====
section
/-! SUPPORT. What the shared operations of Ops.lean can do, said once each: sends, `tx`, TERMINATE, the timed guard,
the work table, the shuffle. -/

namespace Sys2Proof.Machine

/-! ## Timers (44_scheduler R191, R216) -/

@[simp] theorem due_none (now period : Nat) : due none now period = true := rfl
@[simp] theorem due_some (t now period : Nat) : due (some t) now period = true ↔ period ≤ now - t := by simp [due]

/-! ## Sends -/

/-- `SEND` of some chunks writes only the draws of sends and the trace: the trace grows by calls whose bytes are an
initial part of the chunks, all of them and all successful if the answer is true. -/
theorem sendChunks_spec : ∀ (chs : List Bytes) (s : State),
    (sendChunks chs s).1.cfg = s.cfg ∧ (sendChunks chs s).1.par = s.par ∧ (sendChunks chs s).1.ses = s.ses
    ∧ (sendChunks chs s).1.calls = s.calls ∧ (sendChunks chs s).1.lastNow = s.lastNow
    ∧ (sendChunks chs s).1.result = s.result ∧ (sendChunks chs s).1.log = s.log
    ∧ (sendChunks chs s).1.waiting = s.waiting
    ∧ (sendChunks chs s).1.draws.jobs = s.draws.jobs ∧ (sendChunks chs s).1.draws.shuffles = s.draws.shuffles
    ∧ ∃ l : List SendCall, (sendChunks chs s).1.sent = s.sent ++ l ∧ l.map SendCall.bytes <+: chs
        ∧ ((sendChunks chs s).2 = true → l = chs.map (fun b => { bytes := b, ok := true }))
  | [], s => by simp [sendChunks]
  | ch :: rest, s => by
    by_cases h : s.draws.sends.now = true
    · obtain ⟨h1, h2, h3, h4, h5, h6, h7, h8, h9, h10, l, hl, hp, ho⟩ := sendChunks_spec rest (sendCall ch s)
      simp only [sendChunks, h, if_true]
      refine ⟨h1, h2, h3, h4, h5, h6, h7, h8, h9, h10, { bytes := ch, ok := true } :: l, ?_, ?_, ?_⟩
      · simp [hl, h]
      · simpa using hp
      · intro hh; simp [ho hh]
    · have hf : s.draws.sends.now = false := by simpa using h
      simp only [sendChunks, hf]
      refine ⟨rfl, rfl, rfl, rfl, rfl, rfl, rfl, rfl, rfl, rfl, [{ bytes := ch, ok := false }], ?_, ?_, ?_⟩
      · simp [hf]
      · simp
      · simp

@[simp] theorem sendBytes_cfg (b : Bytes) (s : State) : (sendBytes b s).1.cfg = s.cfg := (sendChunks_spec _ s).1
@[simp] theorem sendBytes_par (b : Bytes) (s : State) : (sendBytes b s).1.par = s.par := (sendChunks_spec _ s).2.1
@[simp] theorem sendBytes_ses (b : Bytes) (s : State) : (sendBytes b s).1.ses = s.ses := (sendChunks_spec _ s).2.2.1
@[simp] theorem sendBytes_calls (b : Bytes) (s : State) : (sendBytes b s).1.calls = s.calls :=
  (sendChunks_spec _ s).2.2.2.1
@[simp] theorem sendBytes_lastNow (b : Bytes) (s : State) : (sendBytes b s).1.lastNow = s.lastNow :=
  (sendChunks_spec _ s).2.2.2.2.1
@[simp] theorem sendBytes_result (b : Bytes) (s : State) : (sendBytes b s).1.result = s.result :=
  (sendChunks_spec _ s).2.2.2.2.2.1
@[simp] theorem sendBytes_log (b : Bytes) (s : State) : (sendBytes b s).1.log = s.log :=
  (sendChunks_spec _ s).2.2.2.2.2.2.1
@[simp] theorem sendBytes_waiting (b : Bytes) (s : State) : (sendBytes b s).1.waiting = s.waiting :=
  (sendChunks_spec _ s).2.2.2.2.2.2.2.1

/-- A message that fits one chunk is one call of `send`, answered by the next draw (45_transport R232). -/
theorem sendBytes_oneChunk {b : Bytes} {s : State} (h : b.length ≤ s.cfg.maxSendSize) :
    sendBytes b s = (sendCall b s, s.draws.sends.now) := by
  unfold sendBytes chunks
  rw [if_pos h]
  by_cases hd : s.draws.sends.now = true
  · simp [sendChunks, hd]
  · have hf : s.draws.sends.now = false := by simpa using hd
    simp [sendChunks, hf]

/-! ## Runs -/

@[simp] theorem Run.andThen_done (s : State) (k : State → Run) : (Run.done s).andThen k = k s := rfl
@[simp] theorem Run.andThen_raise (e : FaultCode) (s : State) (k : State → Run) :
    (Run.raise e s).andThen k = .raise e s := rfl
@[simp] theorem Run.state_done (s : State) : (Run.done s).state = s := rfl
@[simp] theorem Run.state_raise (e : FaultCode) (s : State) : (Run.raise e s).state = s := rfl
@[simp] theorem Run.caught_done (s : State) : (Run.done s).caught = s := rfl
@[simp] theorem Run.caught_raise (e : FaultCode) (s : State) : (Run.raise e s).caught = terminate (.fault e) s := rfl

/-- What `tx` can do: nothing but sends, which all succeeded if it is done; or it raises (45_transport R231). -/
theorem tx_cases (op : Byte) (b : FrameBody) (s : State) :
    (∃ e, encodeBody s.cfg op b = .error e ∧ tx op b s = .raise .internal s)
    ∨ (∃ w, encodeBody s.cfg op b = .ok w ∧ (sendBytes w s).2 = true ∧ tx op b s = .done (sendBytes w s).1)
    ∨ (∃ w, encodeBody s.cfg op b = .ok w ∧ (sendBytes w s).2 = false
        ∧ tx op b s = .raise .transport (sendBytes w s).1) := by
  unfold tx
  cases h : encodeBody s.cfg op b with
  | error e => exact .inl ⟨e, rfl, rfl⟩
  | ok w =>
    cases h2 : (sendBytes w s).2 with
    | true => exact .inr (.inl ⟨w, rfl, h2, by simp [h2]⟩)
    | false => exact .inr (.inr ⟨w, rfl, h2, by simp [h2]⟩)

@[simp] theorem tx_cfg (op : Byte) (b : FrameBody) (s : State) : (tx op b s).state.cfg = s.cfg := by
  rcases tx_cases op b s with ⟨_, _, h⟩ | ⟨_, _, _, h⟩ | ⟨_, _, _, h⟩ <;> simp [h]
@[simp] theorem tx_par (op : Byte) (b : FrameBody) (s : State) : (tx op b s).state.par = s.par := by
  rcases tx_cases op b s with ⟨_, _, h⟩ | ⟨_, _, _, h⟩ | ⟨_, _, _, h⟩ <;> simp [h]
@[simp] theorem tx_ses (op : Byte) (b : FrameBody) (s : State) : (tx op b s).state.ses = s.ses := by
  rcases tx_cases op b s with ⟨_, _, h⟩ | ⟨_, _, _, h⟩ | ⟨_, _, _, h⟩ <;> simp [h]
@[simp] theorem tx_calls (op : Byte) (b : FrameBody) (s : State) : (tx op b s).state.calls = s.calls := by
  rcases tx_cases op b s with ⟨_, _, h⟩ | ⟨_, _, _, h⟩ | ⟨_, _, _, h⟩ <;> simp [h]
@[simp] theorem tx_lastNow (op : Byte) (b : FrameBody) (s : State) : (tx op b s).state.lastNow = s.lastNow := by
  rcases tx_cases op b s with ⟨_, _, h⟩ | ⟨_, _, _, h⟩ | ⟨_, _, _, h⟩ <;> simp [h]
@[simp] theorem tx_result (op : Byte) (b : FrameBody) (s : State) : (tx op b s).state.result = s.result := by
  rcases tx_cases op b s with ⟨_, _, h⟩ | ⟨_, _, _, h⟩ | ⟨_, _, _, h⟩ <;> simp [h]
@[simp] theorem tx_waiting (op : Byte) (b : FrameBody) (s : State) : (tx op b s).state.waiting = s.waiting := by
  rcases tx_cases op b s with ⟨_, _, h⟩ | ⟨_, _, _, h⟩ | ⟨_, _, _, h⟩ <;> simp [h]
@[simp] theorem tx_log (op : Byte) (b : FrameBody) (s : State) : (tx op b s).state.log = s.log := by
  rcases tx_cases op b s with ⟨_, _, h⟩ | ⟨_, _, _, h⟩ | ⟨_, _, _, h⟩ <;> simp [h]

/-! ## TERMINATE: what it writes, field by field (44_scheduler R219, 60_exceptions R252) -/

@[simp] theorem terminate_ses (r : TermReason) (s : State) :
    (terminate r s).ses = { s.ses with sstate := .terminated, termReason := some r } := by simp [terminate]
@[simp] theorem terminate_cfg (r : TermReason) (s : State) : (terminate r s).cfg = s.cfg := by simp [terminate]
@[simp] theorem terminate_par (r : TermReason) (s : State) : (terminate r s).par = s.par := by simp [terminate]
@[simp] theorem terminate_calls (r : TermReason) (s : State) : (terminate r s).calls = s.calls := by simp [terminate]
@[simp] theorem terminate_waiting (r : TermReason) (s : State) : (terminate r s).waiting = s.waiting := by
  simp [terminate]
@[simp] theorem terminate_lastNow (r : TermReason) (s : State) : (terminate r s).lastNow = s.lastNow := by
  simp [terminate]
@[simp] theorem terminate_result (r : TermReason) (s : State) : (terminate r s).result = s.result := by
  simp [terminate]
@[simp] theorem terminate_log (r : TermReason) (s : State) : (terminate r s).log = s.log ++ [.terminated r] := by
  simp [terminate]

/-! ## The result field is read by no operation -/

theorem sendChunks_withResult (r : Result) : ∀ (chs : List Bytes) (s : State),
    sendChunks chs (s.withResult r) = ((sendChunks chs s).1.withResult r, (sendChunks chs s).2)
  | [], _ => rfl
  | ch :: rest, s => by
    by_cases h : s.draws.sends.now = true
    · simp only [sendChunks, State.withResult_draws, h, if_true]
      exact sendChunks_withResult r rest (sendCall ch s)
    · simp only [sendChunks, State.withResult_draws, h]
      rfl

theorem tx_withResult (op : Byte) (b : FrameBody) (s : State) (r : Result) :
    (tx op b (s.withResult r)).state = (tx op b s).state.withResult r := by
  unfold tx
  rw [State.withResult_cfg]
  cases h : encodeBody s.cfg op b with
  | error e => rfl
  | ok w =>
    have : sendBytes w (s.withResult r) = ((sendBytes w s).1.withResult r, (sendBytes w s).2) :=
      sendChunks_withResult r _ s
    simp only [this]
    split <;> rfl

theorem terminate_withResult (t : TermReason) (s : State) (r : Result) :
    terminate t (s.withResult r) = (terminate t s).withResult r :=
  tx_withResult _ _ ((s.withSes { s.ses with sstate := .terminated, termReason := some t }).note (.terminated t)) r

/-! ## Ends of operations -/

/-- What a fatal error outside a cycle does: it ends a session that has not ended, and is the result. -/
theorem fatalResult_cases (e : FaultCode) (err : OpError) (s : State) :
    (s.ses.sstate = .terminated ∧ fatalResult e err s = .next (s.withResult (.raised err)))
    ∨ (s.ses.sstate ≠ .terminated
      ∧ fatalResult e err s = .next ((terminate (.fault e) s).withResult (.raised err))) := by
  unfold fatalResult ret
  by_cases h : s.ses.sstate = .terminated
  · exact .inl ⟨h, by simp [h]⟩
  · exact .inr ⟨h, by simp [h]⟩

/-- `ret` always answers a next state. -/
theorem ret_next (s : State) (r : Result) : ret s r = .next (s.withResult r) := rfl

/-- What the timed guard can do: refuse a time that goes back, or go on with the time noted. -/
theorem atTime_cases (now : Nat) (s : State) (k : State → StepOutcome) :
    (∃ t, s.lastNow = some t ∧ now < t ∧ atTime now s k = .refused .timeWentBack)
    ∨ ((∀ t, s.lastNow = some t → t ≤ now) ∧ atTime now s k = k (s.withLastNow (some now))) := by
  unfold atTime
  cases h : s.lastNow with
  | none => exact .inr ⟨by simp, rfl⟩
  | some t =>
    by_cases hlt : now < t
    · exact .inl ⟨t, rfl, hlt, by simp [hlt]⟩
    · refine .inr ⟨?_, by simp [hlt]⟩
      intro t' ht'
      cases ht'
      omega

/-- The timed guard at a time that does not go back. -/
theorem atTime_ok {now : Nat} {s : State} {k : State → StepOutcome} (h : ∀ t, s.lastNow = some t → t ≤ now) :
    atTime now s k = k (s.withLastNow (some now)) := by
  rcases atTime_cases now s k with ⟨t, ht, hlt, _⟩ | ⟨_, h'⟩
  · have := h t ht; omega
  · exact h'

/-- A cycle's step at a time that does not go back, in a session that is not Terminated. -/
theorem inCycle_ok {now : Nat} {s : State} {k : State → StepOutcome} (hs : s.ses.sstate ≠ .terminated)
    (h : ∀ t, s.lastNow = some t → t ≤ now) : inCycle now s k = k (s.withLastNow (some now)) := by
  unfold inCycle
  rw [atTime_ok h]
  simp [hs]

/-- A cycle's step in a Terminated session, at a time that does not go back, gives its outcome and changes nothing
(44_scheduler R194); the time is noted. -/
theorem inCycle_terminated {now : Nat} {s : State} {k : State → StepOutcome} (hs : s.ses.sstate = .terminated)
    (h : ∀ t, s.lastNow = some t → t ≤ now) :
    inCycle now s k = .next ((s.withLastNow (some now)).withResult (.outcome (.terminated s.ses.termReason))) := by
  unfold inCycle
  rw [atTime_ok h]
  simp [hs, cycleEnds, outcomeOf, ret]

/-- A cycle's step at a time that goes back is refused, in every state of the session (93 U19). -/
theorem inCycle_refused {now t : Nat} {s : State} {k : State → StepOutcome} (ht : s.lastNow = some t)
    (h : now < t) : inCycle now s k = .refused .timeWentBack := by
  simp [inCycle, atTime, ht, h]

/-! ## The work table (20_memory R49) -/

theorem workOk_iff (w : List (Half × WorkRecord)) :
    workOk w = true ↔ w.Pairwise (fun a b => a.1.toNat < b.1.toNat) := by simp [workOk]

theorem mem_workPut {w : List (Half × WorkRecord)} {k : Half} {r : WorkRecord} {e : Half × WorkRecord}
    (h : e ∈ workPut w k r) : e = (k, r) ∨ e ∈ w := by
  induction w with
  | nil => exact .inl (by simpa [workPut] using h)
  | cons a rest ih =>
    simp only [workPut] at h
    split at h
    · exact List.mem_cons.1 h
    · split at h
      · exact (List.mem_cons.1 h).imp id (List.mem_cons_of_mem _)
      · rcases List.mem_cons.1 h with h | h
        · exact .inr (h ▸ List.mem_cons_self)
        · exact (ih h).imp id (List.mem_cons_of_mem _)

/-- A write keeps the canonical form. -/
theorem workPut_ok {w : List (Half × WorkRecord)} (h : workOk w = true) (k : Half) (r : WorkRecord) :
    workOk (workPut w k r) = true := by
  rw [workOk_iff] at h ⊢
  induction w with
  | nil => simp [workPut]
  | cons a rest ih =>
    obtain ⟨k', r'⟩ := a
    obtain ⟨h1, h2⟩ := List.pairwise_cons.1 h
    simp only [workPut]
    split
    · rename_i hlt
      refine List.pairwise_cons.2 ⟨?_, h⟩
      intro e he
      rcases List.mem_cons.1 he with he | he
      · subst he; exact hlt
      · have := h1 e he; simp only at this ⊢; omega
    · rename_i hge
      split
      · rename_i heq
        subst heq
        exact List.pairwise_cons.2 ⟨h1, h2⟩
      · rename_i hne
        refine List.pairwise_cons.2 ⟨?_, ih h2⟩
        intro e he
        rcases mem_workPut he with he | he
        · subst he
          have : k.toNat ≠ k'.toNat := fun hh => hne (BitVec.eq_of_toNat_eq hh)
          simp only
          omega
        · exact h1 e he

/-- A deletion keeps the canonical form. -/
theorem workDelete_ok {w : List (Half × WorkRecord)} (h : workOk w = true) (k : Half) :
    workOk (workDelete w k) = true := by
  rw [workOk_iff] at h ⊢
  exact h.filter _

/-- A read of the key just written gives the record written. -/
@[simp] theorem workGet_workPut_self (w : List (Half × WorkRecord)) (k : Half) (r : WorkRecord) :
    workGet (workPut w k r) k = some r := by
  induction w with
  | nil => simp [workPut, workGet]
  | cons a rest ih =>
    obtain ⟨k', r'⟩ := a
    simp only [workPut]
    split
    · simp [workGet]
    · split
      · simp [workGet]
      · rename_i hne
        simp [workGet, Ne.symm hne, ih]

/-- A write leaves every other key alone. -/
theorem workGet_workPut_ne {w : List (Half × WorkRecord)} {k k2 : Half} (r : WorkRecord) (h : k2 ≠ k) :
    workGet (workPut w k r) k2 = workGet w k2 := by
  induction w with
  | nil => simp [workPut, workGet, Ne.symm h]
  | cons a rest ih =>
    obtain ⟨k', r'⟩ := a
    simp only [workPut]
    split
    · simp [workGet, Ne.symm h]
    · split
      · rename_i heq
        subst heq
        simp [workGet, Ne.symm h]
      · simp only [workGet, ih]

/-- The deleted key is absent. -/
@[simp] theorem workGet_workDelete_self (w : List (Half × WorkRecord)) (k : Half) :
    workGet (workDelete w k) k = none := by
  induction w with
  | nil => simp [workDelete, workGet]
  | cons a rest ih =>
    obtain ⟨k', r'⟩ := a
    unfold workDelete at ih ⊢
    by_cases h : k' = k
    · subst h; simpa using ih
    · simp [h, workGet, ih]

/-- A deletion leaves every other key alone. -/
theorem workGet_workDelete_ne {w : List (Half × WorkRecord)} {k k2 : Half} (h : k2 ≠ k) :
    workGet (workDelete w k) k2 = workGet w k2 := by
  induction w with
  | nil => simp [workDelete, workGet]
  | cons a rest ih =>
    obtain ⟨k', r'⟩ := a
    unfold workDelete at ih ⊢
    by_cases hk : k' = k
    · subst hk; simp [workGet, Ne.symm h, ih]
    · by_cases hk2 : k' = k2
      · subst hk2; simp [hk, workGet]
      · simp [hk, hk2, workGet, ih]

/-! ## The shuffle (44_scheduler R189 (b), R208) -/

/-- Every code names a permutation. -/
theorem shuffle_perm {α : Type} : ∀ (code : List Nat) (l : List α), (shuffle code l).Perm l
  | [], l => List.Perm.refl l
  | k :: ks, l => by
    unfold shuffle
    cases h : l[k % l.length]? with
    | none =>
      have hlen : l.length = 0 := by
        by_contra hne
        have : k % l.length < l.length := Nat.mod_lt _ (Nat.pos_of_ne_zero hne)
        rw [List.getElem?_eq_getElem this] at h
        cases h
      rw [List.length_eq_zero_iff.1 hlen]
    | some a =>
      obtain ⟨hlt, ha⟩ := List.getElem?_eq_some_iff.1 h
      refine ((shuffle_perm ks _).cons a).trans ?_
      subst ha
      exact List.getElem_cons_eraseIdx_perm hlt

end Sys2Proof.Machine
end

