-- ==== Sys2Proof/Laws/Codec.lean ====
section
/-! SUPPORT. What the codec's functions can answer, said once each: the wire form of a frame, `DECODE_BASE`, `ENCODE`,
the row of an opcode. -/

namespace Sys2Proof

/-! ## Bytes -/

theorem payloadOk_iff (data : Bytes) : payloadOk data = true ↔ data.length % 4 = 0 ∧ data.length ≤ 1020 := by
  simp [payloadOk]

/-- The length field of a payload that fits. -/
theorem lengthField_toNat {data : Bytes} (h : payloadOk data = true) :
    4 * (lengthField data).toNat = data.length := by
  rw [payloadOk_iff] at h
  simp only [lengthField, BitVec.toNat_ofNat]
  omega

/-- A half-word is its two bytes. -/
theorem half_eq_bytes (v : Half) : (v.extractLsb' 8 8 ++ v.extractLsb' 0 8 : Half) = v := by
  apply BitVec.eq_of_getLsbD_eq
  intro i hi
  rw [BitVec.getLsbD_append]
  by_cases h : i < 8
  · simp [h]
  · have h1 : i - 8 < 8 := by omega
    have h2 : 8 + (i - 8) = i := by omega
    simp [h, h1, h2]

/-- A word is its four bytes. -/
theorem word_eq_bytes (v : Word) :
    (v.extractLsb' 24 8 ++ v.extractLsb' 16 8 ++ v.extractLsb' 8 8 ++ v.extractLsb' 0 8 : Word) = v := by
  apply BitVec.eq_of_getLsbD_eq
  intro i hi
  rw [BitVec.getLsbD_append, BitVec.getLsbD_append, BitVec.getLsbD_append]
  by_cases h : i < 8
  · simp [h]
  · by_cases h' : i - 8 < 8
    · have h2 : 8 + (i - 8) = i := by omega
      simp [h, h', h2]
    · by_cases h'' : i - 8 - 8 < 8
      · have h2 : 16 + (i - 8 - 8) = i := by omega
        simp [h, h', h'', h2]
      · have h1 : i - 8 - 8 - 8 < 8 := by omega
        have h2 : 24 + (i - 8 - 8 - 8) = i := by omega
        simp [h, h', h'', h1, h2]

theorem le16_toLe16 (v : Half) (b : Bytes) : le16 (toLe16 v ++ b) 0 = v := half_eq_bytes v

theorem le32_toLe32 (v : Word) (b : Bytes) : le32 (toLe32 v ++ b) 0 = v := word_eq_bytes v

/-- A byte of an appended string, counted from the second part's beginning. -/
theorem byteAt_append_right (a b : Bytes) (i : Nat) : byteAt (a ++ b) (a.length + i) = byteAt b i := by
  simp [byteAt, List.getD_eq_getElem?_getD, List.getElem?_append]

theorem byteAt_append_left {a : Bytes} (b : Bytes) {i : Nat} (h : i < a.length) : byteAt (a ++ b) i = byteAt a i := by
  simp [byteAt, List.getD_eq_getElem?_getD, List.getElem?_append, h]

/-! ## The check byte -/

/-- With an odd polynomial a shift loses nothing. -/
theorem crcShift_injective {poly : Byte} (h : poly.getLsbD 0 = true) {a b : Byte}
    (e : crcShift poly a = crcShift poly b) : a = b := by
  have hb : ∀ i, (crcShift poly a).getLsbD i = (crcShift poly b).getLsbD i := by simp [e]
  have h7 : a.getLsbD 7 = b.getLsbD 7 := by
    have h0 := hb 0
    simp only [crcShift] at h0
    cases ha : a.getLsbD 7 <;> cases hb' : b.getLsbD 7 <;> simp_all
  apply BitVec.eq_of_getLsbD_eq
  intro i hi
  by_cases h8 : i = 7
  · exact h8 ▸ h7
  have hh := hb (i + 1)
  simp only [crcShift, h7] at hh
  have : i + 1 < 8 := by omega
  cases hb' : b.getLsbD 7 <;> simp_all

theorem crcShifts_injective {poly : Byte} (h : poly.getLsbD 0 = true) :
    ∀ (n : Nat) {a b : Byte}, crcShifts poly n a = crcShifts poly n b → a = b
  | 0, _, _, e => e
  | n + 1, _, _, e => crcShift_injective h (crcShifts_injective h n e)

theorem reflect_injective {a b : Byte} (e : reflect a = reflect b) : a = b := by
  have h : ∀ a : Byte, reflect (reflect a) = a := by decide +kernel
  rw [← h a, e, h]

/-- With an odd polynomial the register after the same bytes tells the registers before them apart. -/
theorem crcRegister_injective {k : CrcParams} (h : k.poly.getLsbD 0 = true) :
    ∀ (t : Bytes) {a b : Byte}, crcRegister k a t = crcRegister k b t → a = b
  | [], _, _, e => e
  | x :: t, a, b, e => by
    have := congrArg (· ^^^ (if k.refIn then reflect x else x))
      (crcShifts_injective h _ (crcRegister_injective h t e))
    simpa [BitVec.xor_assoc] using this

/-- With an odd polynomial a string with one byte changed leaves another register. -/
theorem crcRegister_set_ne {k : CrcParams} (h : k.poly.getLsbD 0 = true) {v x : Byte} (hv : v ≠ x) :
    ∀ (t : Bytes) (a : Byte) (i : Nat), t[i]? = some x → crcRegister k a (t.set i v) ≠ crcRegister k a t
  | [], _, _, hx => by simp at hx
  | y :: t, a, 0, hx => by
    obtain rfl : y = x := by simpa using hx
    intro e
    have := congrArg (a ^^^ ·) (crcShifts_injective h _ (crcRegister_injective h t e))
    simp only [← BitVec.xor_assoc, BitVec.xor_self, BitVec.zero_xor] at this
    split at this
    · exact hv (reflect_injective this)
    · exact hv this
  | _ :: t, _, i + 1, hx => crcRegister_set_ne h hv t _ i (by simpa using hx)

/-- Every CRC-8 with an odd polynomial detects a single-bit error (00_scope R6). -/
theorem family_detects {k : CrcParams} (h : k.poly.getLsbD 0 = true) : (Crc8Fn.family k).detects := by
  intro b i j hb hi hj e
  have hx : b[i]? = some (byteAt b i) := by simp [byteAt, hb, hi]
  have hne : byteAt b i ^^^ BitVec.ofNat 8 (2 ^ j) ≠ byteAt b i := by
    have h2 : ∀ j < 8, BitVec.ofNat 8 (2 ^ j) ≠ 0 := by decide
    intro e
    apply h2 j hj
    have := congrArg (byteAt b i ^^^ ·) e
    simpa [← BitVec.xor_assoc] using this
  refine crcRegister_set_ne h hne b k.init i hx ?_
  have e' := congrArg (· ^^^ k.xorOut) e
  simp only [crc8, crcFamily, BitVec.xor_assoc, BitVec.xor_self, BitVec.xor_zero] at e'
  split at e'
  · exact reflect_injective e'
  · exact e'

/-- The default configuration meets the constraints of R6. -/
theorem defaultCfg_wf : defaultCfg.wf := ⟨by decide, family_detects (by decide)⟩

/-! ## The wire form -/

/-- The wire form of a frame, byte by byte (30_encoding R60). -/
theorem wireBytes_eq (k : Crc8Fn) (op : Byte) (b : FrameBody) :
    wireBytes k op b = [marker, op, b.chip, b.core, b.hdata.extractLsb' 0 8, b.hdata.extractLsb' 8 8,
      lengthField b.data, crc8 k (coveredBytes op b)] ++ b.data := rfl

@[simp] theorem wireBytes_length (k : Crc8Fn) (op : Byte) (b : FrameBody) :
    (wireBytes k op b).length = 8 + b.data.length := by
  rw [wireBytes_eq]; simp; omega

/-- `DECODE_BASE` takes a frame's wire form apart into the fields it was made of. -/
theorem frameDecode_wireBytes (k : Crc8Fn) (op : Byte) {b : FrameBody} (h : payloadOk b.data = true) :
    frameDecode k (wireBytes k op b) = .ok
      { opcode := op, chip := b.chip, core := b.core, hdata := b.hdata, data := b.data,
        crc8 := crc8 k (coveredBytes op b) } := by
  have hl := lengthField_toNat h
  have h1 : ¬ (wireBytes k op b).length < 8 := by simp
  have h2 : byteAt (wireBytes k op b) 0 = marker := rfl
  have h3 : crc8 k (bytes1to6 (wireBytes k op b)) = byteAt (wireBytes k op b) 7 := rfl
  have h4 : (wireBytes k op b).length = 8 + 4 * (byteAt (wireBytes k op b) 6).toNat := by
    show _ = 8 + 4 * (lengthField b.data).toNat
    rw [wireBytes_length, hl]
  unfold frameDecode
  rw [if_neg h1, if_neg (not_not.2 h2), if_neg (not_not.2 h3), if_neg (not_not.2 h4)]
  have h5 : le16 (wireBytes k op b) 4 = b.hdata := le16_toLe16 b.hdata []
  have h6 : (wireBytes k op b).drop 8 = b.data := rfl
  simp only [frameOfBytes, h5, h6]
  rfl

/-- What `DECODE_BASE` accepts, byte by byte: the eight header bytes in wire order, and the payload the length field
declares. -/
theorem frameDecode_ok {k : Crc8Fn} {b : Bytes} {f : Frame} (h : frameDecode k b = .ok f) :
    8 ≤ b.length ∧ byteAt b 0 = marker ∧ crc8 k (bytes1to6 b) = byteAt b 7
      ∧ b.length = 8 + 4 * (byteAt b 6).toNat ∧ f = frameOfBytes b := by
  unfold frameDecode at h
  split at h <;> [cases h; skip]
  split at h <;> [cases h; skip]
  split at h <;> [cases h; skip]
  split at h <;> [cases h; skip]
  rename_i h1 h2 h3 h4
  exact ⟨by omega, not_not.1 h2, not_not.1 h3, not_not.1 h4, (Except.ok.inj h).symm⟩

/-- A string of eight bytes or more, its first eight named. -/
theorem eight_bytes {b : Bytes} (h : 8 ≤ b.length) :
    ∃ m o c r lo hi l x data, b = [m, o, c, r, lo, hi, l, x] ++ data := by
  match b, h with
  | m :: o :: c :: r :: lo :: hi :: l :: x :: data, _ => exact ⟨m, o, c, r, lo, hi, l, x, data, rfl⟩

/-- A half-word made of its two bytes gives them back. -/
theorem half_of_bytes (hi lo : Byte) :
    (hi ++ lo : Half).extractLsb' 0 8 = lo ∧ (hi ++ lo : Half).extractLsb' 8 8 = hi := by
  constructor <;> apply BitVec.eq_of_getLsbD_eq <;> intro i h
  · rw [BitVec.getLsbD_extractLsb', BitVec.getLsbD_append]
    simp [h]
  · rw [BitVec.getLsbD_extractLsb', BitVec.getLsbD_append]
    have h1 : ¬ 8 + i < 8 := by omega
    have h2 : 8 + i - 8 = i := by omega
    simp [h, h1, h2]

/-- What `DECODE_BASE` accepts is the wire form of the frame it gives, and that frame's payload fits. -/
theorem frameDecode_ok_wire {k : Crc8Fn} {b : Bytes} {f : Frame} (h : frameDecode k b = .ok f) :
    payloadOk f.data = true ∧ f.crc8 = crc8 k (coveredBytes f.opcode (Machine.bodyOf f))
      ∧ b = wireBytes k f.opcode (Machine.bodyOf f) := by
  obtain ⟨h8, hm, hc, hl, rfl⟩ := frameDecode_ok h
  obtain ⟨m, o, c, r, lo, hi, l, x, data, rfl⟩ := eight_bytes h8
  have hm : m = marker := hm
  have hc : crc8 k [o, c, r, lo, hi, l] = x := hc
  have hl : data.length = 4 * l.toNat := by
    have h6 : byteAt ([m, o, c, r, lo, hi, l, x] ++ data) 6 = l := rfl
    rw [h6] at hl
    simp only [List.length_append, List.length_cons, List.length_nil] at hl
    omega
  have hll := l.isLt
  have hp : payloadOk data = true := by rw [payloadOk_iff]; omega
  have hf : lengthField data = l := by
    apply BitVec.eq_of_toNat_eq
    have := lengthField_toNat hp
    omega
  obtain ⟨e1, e2⟩ := half_of_bytes hi lo
  have hcov : coveredBytes o (Machine.bodyOf (frameOfBytes ([m, o, c, r, lo, hi, l, x] ++ data)))
      = [o, c, r, lo, hi, l] := by
    show [o, c, r] ++ toLe16 (hi ++ lo) ++ [lengthField data] = _
    simp [toLe16, e1, e2, hf]
  have hop : (frameOfBytes ([m, o, c, r, lo, hi, l, x] ++ data)).opcode = o := rfl
  refine ⟨hp, ?_, ?_⟩
  · rw [hop, hcov, hc]; rfl
  · unfold wireBytes
    rw [hop, hcov, hc, hm]
    rfl

/-! ## ENCODE -/

/-- `ENCODE` of fields in range, of a known opcode, with a payload that fits: the wire form. -/
theorem frameEncode_bytes {c : Cfg} {op : Byte} (ho : op ∈ c.knownOpcodes) {b : FrameBody}
    (hp : payloadOk b.data = true) :
    frameEncode c op.toNat b.chip.toNat b.core.toNat b.hdata.toNat b.data = .ok (wireBytes c.crc op b) := by
  rw [payloadOk_iff] at hp
  have h1 : ∃ o ∈ c.knownOpcodes, (o.toNat : Int) = (op.toNat : Int) := ⟨op, ho, rfl⟩
  have h2 : ¬ ((b.chip.toNat : Int) < 0 ∨ 255 < (b.chip.toNat : Int)) := by have := b.chip.isLt; omega
  have h3 : ¬ ((b.core.toNat : Int) < 0 ∨ 255 < (b.core.toNat : Int)) := by have := b.core.isLt; omega
  have h4 : ¬ ((b.hdata.toNat : Int) < 0 ∨ 65535 < (b.hdata.toNat : Int)) := by have := b.hdata.isLt; omega
  unfold frameEncode
  rw [if_neg (not_not.2 h1), if_neg h2, if_neg h3, if_neg h4, if_neg (not_not.2 hp.1), if_neg (by omega)]
  simp

/-- What `ENCODE` accepts: fields in range, of a known opcode, with a payload that fits; it answers the wire form. -/
theorem frameEncode_ok {c : Cfg} {op chip core hdata : Int} {data w : Bytes}
    (h : frameEncode c op chip core hdata data = .ok w) :
    ∃ (o : Byte) (b : FrameBody), o ∈ c.knownOpcodes ∧ op = o.toNat ∧ chip = b.chip.toNat ∧ core = b.core.toNat
      ∧ hdata = b.hdata.toNat ∧ data = b.data ∧ payloadOk b.data = true ∧ w = wireBytes c.crc o b := by
  unfold frameEncode at h
  split at h <;> [cases h; skip]
  split at h <;> [cases h; skip]
  split at h <;> [cases h; skip]
  split at h <;> [cases h; skip]
  split at h <;> [cases h; skip]
  split at h <;> [cases h; skip]
  rename_i h1 h2 h3 h4 h5 h6
  obtain ⟨o, ho, rfl⟩ := not_not.1 h1
  refine ⟨o, ⟨BitVec.ofInt 8 chip, BitVec.ofInt 8 core, BitVec.ofInt 16 hdata, data⟩, ho, rfl, ?_, ?_, ?_, rfl, ?_, ?_⟩
  · simp only [BitVec.toNat_ofInt]; omega
  · simp only [BitVec.toNat_ofInt]; omega
  · simp only [BitVec.toNat_ofInt]; omega
  · rw [payloadOk_iff]; simp only; omega
  · have := Except.ok.inj h
    simpa using this.symm

/-! ## Rows -/

/-- The row of an opcode carries the opcode and the operands. -/
@[simp] theorem frameInstr_frameParts (d : Dir) (op : Byte) (b : FrameBody) :
    (frameInstr d op b).frameParts = some (d, op, b) := by
  have h : ∀ n : Nat, op.toNat = n → op = BitVec.ofNat 8 n := fun n hn => by rw [← hn]; simp
  unfold frameInstr
  split <;> first | rfl | (rename_i hn; rw [h _ hn]; rfl)

/-- The row of an opcode is well-formed if the payload fits: FRAME.UNKNOWN is given for no opcode of another row. -/
theorem frameInstr_wf (d : Dir) (op : Byte) {b : FrameBody} (h : bodyOk b = true) : (frameInstr d op b).wf = true := by
  unfold frameInstr
  split <;> first
    | exact h
    | (simp only [Instr.wf, h, Bool.and_true, Bool.not_eq_true']
       rw [← Bool.not_eq_true, List.contains_iff_mem]
       intro hm
       simp only [tableOpcodes, List.mem_cons, List.not_mem_nil, or_false] at hm
       rcases hm with hm | hm | hm | hm | hm | hm | hm | hm | hm | hm | hm | hm | hm | hm | hm | hm | hm | hm | hm
         | hm | hm | hm | hm | hm | hm | hm | hm | hm | hm | hm | hm | hm | hm | hm | hm <;>
       (subst hm; simp at *))

end Sys2Proof
end

