-- ==== Sys2Proof/Laws/Parser.lean ====
section
/-! SUPPORT. What the parser's operations can do, said once each: an emit, one byte fed, a string fed in two parts, a
run of garbage, a header and a payload fed. -/

namespace Sys2Proof.Machine

/-! ## Emits and the queue -/

/-- With room in the queue, an emit succeeds (41_stream_parser R131). -/
theorem emitThen_room {c : Cfg} {p : Parser} (h : ∀ n ∈ c.tokenFifoDepth, p.queue.length < n) (t : Token)
    (after : Parser → Parser) : emitThen c p t after = .ok (after { p with queue := p.queue ++ [t] }) := by
  unfold emitThen queueFull
  cases hd : c.tokenFifoDepth with
  | none => simp
  | some n =>
    have := h n (by simp [hd])
    simp [this]

/-- What an emit can do. -/
theorem emitThen_cases (c : Cfg) (p : Parser) (t : Token) (after : Parser → Parser) :
    (emitThen c p t after = .full ∧ ∃ n, c.tokenFifoDepth = some n ∧ n ≤ p.queue.length)
    ∨ emitThen c p t after = .ok (after { p with queue := p.queue ++ [t] }) := by
  unfold emitThen queueFull
  cases hd : c.tokenFifoDepth with
  | none => simp
  | some n =>
    by_cases h : n ≤ p.queue.length
    · exact .inl (by simp [h])
    · exact .inr (by simp [h])

@[simp] theorem queueWire_nil : queueWire [] = [] := rfl
@[simp] theorem queueWire_append (a b : List Token) : queueWire (a ++ b) = queueWire a ++ queueWire b := by
  simp [queueWire]
@[simp] theorem queueWire_singleton (t : Token) : queueWire [t] = tokenWire t := by simp [queueWire]

/-- Decoration keeps the frame it decorates (10_state R12). -/
theorem decorate_base {c : Cfg} {f : Frame} {v : Variant} (h : decorate c f = .ok v) : variantBase v = f := by
  unfold decorate decorateNonce decorateStatus decorateInitAck decorateNotice at h
  repeat' (split at h)
  all_goals first | (cases h; rfl) | cases h

/-- The token of a frame has the frame's wire bytes. -/
@[simp] theorem tokenWire_tokenOf (c : Cfg) (f : Frame) : tokenWire (tokenOf c f) = frameWire f := by
  unfold tokenOf
  cases h : decorate c f with
  | ok v => simp [tokenWire, decorate_base h]
  | error e => rfl

/-- A complete frame's bytes are the wire bytes of the frame read from them. -/
theorem frameWire_frameOfBytes {m o c r lo hi l k : Byte} {data : Bytes} (hm : m = marker)
    (hl : data.length = 4 * l.toNat) :
    frameWire (frameOfBytes ([m, o, c, r, lo, hi, l, k] ++ data)) = [m, o, c, r, lo, hi, l, k] ++ data := by
  have hll := l.isLt
  have hf : lengthField data = l := by
    apply BitVec.eq_of_toNat_eq
    have := lengthField_toNat (data := data) (by rw [payloadOk_iff]; omega)
    omega
  obtain ⟨e1, e2⟩ := half_of_bytes hi lo
  show marker :: ([o, c, r] ++ toLe16 (hi ++ lo) ++ [lengthField data]) ++ k :: data = _
  simp [toLe16, e1, e2, hf, hm]

/-! ## One byte -/

/-- In a parser that meets R38, a byte is not accepted only if the queue is full; else it is taken, the invariant
holds again, and the wire bytes of what was emitted followed by the accumulator are the old accumulator and the
byte. -/
theorem feedByte_spec {c : Cfg} {p : Parser} (x : Byte) (h : parserInv c p) :
    (feedByte c x p = .full ∧ ∃ n, c.tokenFifoDepth = some n ∧ n ≤ p.queue.length)
    ∨ ∃ p' q, feedByte c x p = .ok p' ∧ parserInv c p' ∧ p'.queue = p.queue ++ q
        ∧ queueWire q ++ p'.acc = p.acc ++ [x] := by
  obtain ⟨hH, hD, hN⟩ := h
  unfold feedByte feedCase
  cases hp : p.pstate with
  | outOfSync =>
    simp only [feedRule, feedOutOfSync]
    split
    · split
      · rcases emitThen_cases c p (.garbage (p.acc ++ [x])) (fun q => { q with acc := [] }) with h | h
        · exact .inl h
        · exact .inr ⟨_, _, h, by simp [parserInv, hp], rfl, by simp [tokenWire]⟩
      · exact .inr ⟨_, [], rfl, by simp [parserInv, hp], by simp, by simp⟩
    · rename_i hx
      have hx : x = marker := not_not.1 hx
      split
      · rename_i ha
        exact .inr ⟨_, [], rfl, by simp [parserInv, Parser.atHeader, byteAt], by simp [Parser.atHeader],
          by simp [Parser.atHeader, ha, hx]⟩
      · rcases emitThen_cases c p (.garbage p.acc) Parser.atHeader with h | h
        · exact .inl h
        · exact .inr ⟨_, _, h, by simp [parserInv, Parser.atHeader, byteAt], rfl,
            by simp [Parser.atHeader, tokenWire, hx]⟩
  | nextFrame =>
    have ha := hN hp
    simp only [feedRule, feedNextFrame]
    split
    · rename_i hx
      exact .inr ⟨_, [], rfl, by simp [parserInv, Parser.atHeader, byteAt], by simp [Parser.atHeader],
        by simp [Parser.atHeader, ha, hx]⟩
    · exact .inr ⟨_, [], rfl, by simp [parserInv], by simp, by simp [ha]⟩
  | parsingData =>
    obtain ⟨h8, hn, hneed, hl0, hm, hc⟩ := hD hp
    obtain ⟨m, o, a, r, lo, hi, l, k, data, hacc⟩ := eight_bytes h8
    have hm : m = marker := by rw [hacc] at hm; exact hm
    have h6 : byteAt p.acc 6 = l := by rw [hacc]; rfl
    have hlen : p.acc.length = 8 + data.length := by rw [hacc]; simp; omega
    simp only [feedRule, feedData]
    split
    · omega
    · split
      · rename_i hend
        rcases emitThen_cases c p (tokenOf c (frameOfBytes (p.acc ++ [x]))) Parser.atNextFrame with h | h
        · exact .inl h
        · refine .inr ⟨_, _, h, by simp [parserInv, Parser.atNextFrame], rfl, ?_⟩
          have hw : frameWire (frameOfBytes (p.acc ++ [x])) = p.acc ++ [x] := by
            rw [hacc]
            rw [show ([m, o, a, r, lo, hi, l, k] ++ data) ++ [x] = [m, o, a, r, lo, hi, l, k] ++ (data ++ [x]) by simp]
            refine frameWire_frameOfBytes hm ?_
            rw [h6] at hneed
            simp only [List.length_append, List.length_cons, List.length_nil]
            omega
          simp [Parser.atNextFrame, hw]
      · refine .inr ⟨_, [], rfl, ?_, by simp, by simp⟩
        have hb : ∀ i, i < 8 → byteAt (p.acc ++ [x]) i = byteAt p.acc i := fun i hi =>
          byteAt_append_left _ (by omega)
        refine ⟨by simp [hp], fun _ => ?_, by simp [hp]⟩
        refine ⟨by simp; omega, by simp; omega, ?_, ?_, ?_, ?_⟩
        · simpa [hb 6 (by omega)] using hneed
        · simpa [hb 6 (by omega)] using hl0
        · rw [hb 0 (by omega), hacc]; exact hm
        · have : bytes1to6 (p.acc ++ [x]) = bytes1to6 p.acc := by rw [hacc]; rfl
          simp only [this, hb 7 (by omega)]
          exact hc
  | parsingHeader =>
    obtain ⟨h1, h7, hm⟩ := hH hp
    simp only
    split
    · rename_i hlt
      simp only [feedRule, feedHeaderBody]
      refine .inr ⟨_, [], rfl, ?_, by simp, by simp⟩
      refine ⟨fun _ => ⟨by simp, by simp; omega, ?_⟩, by simp [hp], by simp [hp]⟩
      rw [byteAt_append_left _ (by omega)]; exact hm
    · rename_i hge
      obtain ⟨m, o, a, r, lo, hi, l, hacc⟩ : ∃ m o a r lo hi l, p.acc = [m, o, a, r, lo, hi, l] := by
        match hh : p.acc, (by omega : p.acc.length = 7) with
        | [m, o, a, r, lo, hi, l], _ => exact ⟨m, o, a, r, lo, hi, l, rfl⟩
      have hm : m = marker := by rw [hacc] at hm; exact hm
      have h6 : byteAt (p.acc ++ [x]) 6 = l := by rw [hacc]; rfl
      split
      · rename_i hcrc
        simp only [feedRule, feedHeaderCrcOk, h6]
        split
        · rename_i hl
          rcases emitThen_cases c p (tokenOf c (frameOfBytes (p.acc ++ [x]))) Parser.atNextFrame with h | h
          · exact .inl h
          · refine .inr ⟨_, _, h, by simp [parserInv, Parser.atNextFrame], rfl, ?_⟩
            have hw : frameWire (frameOfBytes (p.acc ++ [x])) = p.acc ++ [x] := by
              rw [hacc]
              exact frameWire_frameOfBytes (data := []) hm (by rw [hl]; rfl)
            simp [Parser.atNextFrame, hw]
        · rename_i hl
          refine .inr ⟨_, [], rfl, ⟨by simp, fun _ => ?_, by simp⟩, by simp, by simp⟩
          have hpos : l.toNat ≠ 0 := fun hh => hl (BitVec.eq_of_toNat_eq hh)
          refine ⟨by simp; omega, by simp only [List.length_append, List.length_cons, List.length_nil]; omega,
            by rw [h6], by rw [h6]; exact hl, by rw [hacc]; exact hm, ?_⟩
          rw [hacc] at hcrc ⊢
          exact hcrc
      · simp only [feedRule, feedHeaderCrcFail]
        rcases emitThen_cases c p (.garbage (p.acc ++ [x]))
          (fun q => { q with crcErr := bump c q.crcErr, acc := [], pstate := .outOfSync }) with h | h
        · exact .inl h
        · exact .inr ⟨_, _, h, by simp [parserInv], rfl, by simp [tokenWire]⟩

/-- What a byte that is taken does to the queue: nothing, or one token joins it, for which there was room
(41_stream_parser R131). -/
theorem feedByte_queue {c : Cfg} {x : Byte} {p p' : Parser} (h : feedByte c x p = .ok p') :
    p'.queue = p.queue
    ∨ ∃ t, p'.queue = p.queue ++ [t] ∧ ∀ n, c.tokenFifoDepth = some n → p.queue.length < n := by
  have key : ∀ {t after}, emitThen c p t after = .ok p' → (∀ q : Parser, (after q).queue = q.queue) →
      ∃ t, p'.queue = p.queue ++ [t] ∧ ∀ n, c.tokenFifoDepth = some n → p.queue.length < n := by
    intro t after he ha
    unfold emitThen at he
    by_cases hf : queueFull c p = true
    · simp [hf] at he
    · rw [if_neg hf] at he
      refine ⟨t, by rw [← Fed.ok.inj he, ha], fun n hn => ?_⟩
      simp only [queueFull, hn, decide_eq_true_eq] at hf
      omega
  unfold feedByte feedRule at h
  split at h
  · unfold feedOutOfSync at h
    split at h
    · split at h
      · exact .inr (key h (fun _ => rfl))
      · exact .inl (by rw [← Fed.ok.inj h])
    · split at h
      · exact .inl (by rw [← Fed.ok.inj h]; rfl)
      · exact .inr (key h (fun _ => rfl))
  · exact .inl (by rw [← Fed.ok.inj h])
  · unfold feedHeaderCrcFail at h
    exact .inr (key h (fun _ => rfl))
  · unfold feedHeaderCrcOk completeFrame at h
    split at h
    · exact .inr (key h (fun _ => rfl))
    · exact .inl (by rw [← Fed.ok.inj h])
  · unfold feedData completeFrame at h
    split at h
    · cases h
    · split at h
      · exact .inr (key h (fun _ => rfl))
      · exact .inl (by rw [← Fed.ok.inj h])
  · unfold feedNextFrame at h
    split at h
    · exact .inl (by rw [← Fed.ok.inj h]; rfl)
    · exact .inl (by rw [← Fed.ok.inj h])

/-! ## Byte strings -/

@[simp] theorem feedBytes_nil (c : Cfg) (p : Parser) : feedBytes c [] p = (p, .all) := rfl

/-- The first byte of a string, where it is taken. -/
theorem feedBytes_cons_ok {c : Cfg} {x : Byte} {b : Bytes} {p p' : Parser} (h : feedByte c x p = .ok p') :
    feedBytes c (x :: b) p = feedBytes c b p' := by simp [feedBytes, h]

/-- A string all of whose first part is taken (41_stream_parser R138). -/
theorem feedBytes_append {c : Cfg} {a b : Bytes} {p : Parser} (h : (feedBytes c a p).2 = .all) :
    feedBytes c (a ++ b) p = feedBytes c b (feedBytes c a p).1 := by
  induction a generalizing p with
  | nil => rfl
  | cons x a ih =>
    cases hx : feedByte c x p with
    | ok p' =>
      rw [List.cons_append, feedBytes_cons_ok hx, feedBytes_cons_ok hx]
      rw [feedBytes_cons_ok hx] at h
      exact ih h
    | full => simp [feedBytes, hx] at h
    | inconsistent => simp [feedBytes, hx] at h

/-- A string of whose first part a full parser has not accepted a rest (41_stream_parser R131): with more bytes behind
it the rest is that much longer, and nothing else changes. -/
theorem feedBytes_append_full {c : Cfg} {a rest : Bytes} (b : Bytes) {p : Parser}
    (h : (feedBytes c a p).2 = .full rest) :
    feedBytes c (a ++ b) p = ((feedBytes c a p).1, .full (rest ++ b)) := by
  induction a generalizing p with
  | nil => cases h
  | cons x a ih =>
    cases hx : feedByte c x p with
    | ok p' =>
      rw [List.cons_append, feedBytes_cons_ok hx, feedBytes_cons_ok hx]
      rw [feedBytes_cons_ok hx] at h
      exact ih h
    | full =>
      simp only [feedBytes, hx, FeedEnd.full.injEq] at h
      simp [feedBytes, hx, ← h]
    | inconsistent => simp [feedBytes, hx] at h

/-- What feeding a string can do: all of it is taken; or a full parser takes a first part and not the byte behind it; or
a byte raises. -/
theorem feedBytes_cases (c : Cfg) (b : Bytes) (p : Parser) :
    (feedBytes c b p).2 = .all
    ∨ (∃ taken x rest, b = taken ++ x :: rest ∧ (feedBytes c b p).2 = .full (x :: rest)
        ∧ feedBytes c taken p = ((feedBytes c b p).1, .all) ∧ feedByte c x (feedBytes c b p).1 = .full)
    ∨ (feedBytes c b p).2 = .inconsistent := by
  induction b generalizing p with
  | nil => exact .inl rfl
  | cons x b ih =>
    cases hx : feedByte c x p with
    | ok p' =>
      rw [feedBytes_cons_ok hx]
      rcases ih p' with h | ⟨taken, y, rest, rfl, h1, h2, h3⟩ | h
      · exact .inl h
      · exact .inr (.inl ⟨x :: taken, y, rest, rfl, h1, by rw [feedBytes_cons_ok hx, h2], h3⟩)
      · exact .inr (.inr h)
    | full => exact .inr (.inl ⟨[], x, b, rfl, by simp [feedBytes, hx], by simp [feedBytes, hx],
        by simp [feedBytes, hx]⟩)
    | inconsistent => exact .inr (.inr (by simp [feedBytes, hx]))

/-- In a parser that meets R38, feeding a string never raises: the invariant holds again, tokens join the queue's tail,
and what they and the accumulator hold, with the bytes not accepted, is the old accumulator and the string. -/
theorem feedBytes_spec {c : Cfg} {b : Bytes} {p : Parser} (h : parserInv c p) :
    ∃ q rest, parserInv c (feedBytes c b p).1 ∧ (feedBytes c b p).1.queue = p.queue ++ q
      ∧ queueWire q ++ (feedBytes c b p).1.acc ++ rest = p.acc ++ b
      ∧ ((feedBytes c b p).2 = .all ∧ rest = []
        ∨ (feedBytes c b p).2 = .full rest ∧ rest ≠ []
          ∧ ∃ n, c.tokenFifoDepth = some n ∧ n ≤ (feedBytes c b p).1.queue.length) := by
  induction b generalizing p with
  | nil => exact ⟨[], [], h, by simp, by simp, .inl ⟨rfl, rfl⟩⟩
  | cons x b ih =>
    rcases feedByte_spec x h with ⟨hx, hn⟩ | ⟨p', q, hx, hp, hq, hw⟩
    · exact ⟨[], x :: b, by simpa [feedBytes, hx] using h, by simp [feedBytes, hx], by simp [feedBytes, hx],
        .inr ⟨by simp [feedBytes, hx], by simp, by simpa [feedBytes, hx] using hn⟩⟩
    · rw [feedBytes_cons_ok hx]
      obtain ⟨q', rest, h1, h2, h3, h4⟩ := ih hp
      refine ⟨q ++ q', rest, h1, by rw [h2, hq, List.append_assoc], ?_, h4⟩
      rw [queueWire_append, List.append_assoc, List.append_assoc, ← List.append_assoc (queueWire q'), h3,
        ← List.append_assoc, hw, List.append_assoc]
      rfl

/-- A queue that keeps to its depth does so after a string is fed. -/
theorem feedBytes_queueInv {c : Cfg} {b : Bytes} {p : Parser} (h : queueInv c p) :
    queueInv c (feedBytes c b p).1 := by
  induction b generalizing p with
  | nil => exact h
  | cons x b ih =>
    cases hx : feedByte c x p with
    | ok p' =>
      rw [feedBytes_cons_ok hx]
      refine ih (fun n hn => ?_)
      rcases feedByte_queue hx with hq | ⟨t, hq, hlt⟩
      · rw [hq]; exact h n hn
      · have := hlt n hn
        rw [hq, List.length_append, List.length_singleton]
        omega
    | full => simpa [feedBytes, hx] using h
    | inconsistent => simpa [feedBytes, hx] using h

/-- Bytes free of the marker lengthen the garbage run, with an unbounded run (41_stream_parser R132). -/
theorem feedBytes_garbage {c : Cfg} (hc : c.garbageCap = none) {g : Bytes} (hg : ∀ x ∈ g, x ≠ marker) {p : Parser}
    (hp : p.pstate = .outOfSync) : feedBytes c g p = ({ p with acc := p.acc ++ g }, .all) := by
  induction g generalizing p with
  | nil => simp
  | cons x g ih =>
    have hx : feedByte c x p = .ok { p with acc := p.acc ++ [x] } := by
      have := hg x (by simp)
      simp [feedByte, feedCase, hp, feedRule, feedOutOfSync, this, hc]
    rw [feedBytes_cons_ok hx, ih (fun y hy => hg y (by simp [hy])) (by simp [hp])]
    simp

/-- Payload bytes short of the declared length are held (41_stream_parser R136). -/
theorem feedBytes_payload {c : Cfg} {b : Bytes} {p : Parser} (hp : p.pstate = .parsingData)
    (hn : p.acc.length + b.length < p.need) : feedBytes c b p = ({ p with acc := p.acc ++ b }, .all) := by
  induction b generalizing p with
  | nil => simp
  | cons x b ih =>
    simp only [List.length_cons] at hn
    have hx : feedByte c x p = .ok { p with acc := p.acc ++ [x] } := by
      have h1 : ¬ p.need ≤ p.acc.length := by omega
      have h2 : ¬ p.acc.length + 1 = p.need := by omega
      simp [feedByte, feedCase, hp, feedRule, feedData, h1, h2]
    rw [feedBytes_cons_ok hx, ih (by simp [hp]) (by simp; omega)]
    simp

/-- Header bytes short of the check byte are held (41_stream_parser R133). -/
theorem feedBytes_header {c : Cfg} {b : Bytes} {p : Parser} (hp : p.pstate = .parsingHeader)
    (hn : p.acc.length + b.length ≤ 7) : feedBytes c b p = ({ p with acc := p.acc ++ b }, .all) := by
  induction b generalizing p with
  | nil => simp
  | cons x b ih =>
    simp only [List.length_cons] at hn
    have hx : feedByte c x p = .ok { p with acc := p.acc ++ [x] } := by
      have h1 : p.acc.length < 7 := by omega
      simp [feedByte, feedCase, hp, h1, feedRule, feedHeaderBody]
    rw [feedBytes_cons_ok hx, ih (by simp [hp]) (by simp; omega)]
    simp

end Sys2Proof.Machine
end

