-- ==== Sys2Proof/Laws/PerInstr.lean ====
section
/-! SUPPORT. A family of statements with one lemma per constructor of `Instr`: the length of every encoding
(30_encoding R61). -/

namespace Sys2Proof.Laws

/-- Every encoding of the instruction, when it is well-formed, is 8 to 1028 bytes long, a multiple of 4
(30_encoding R61). -/
def WireLength.Statement (i : Instr) : Prop :=
  ∀ (k : Crc8Fn) (w : Bytes), i.wf = true → encode k i = some w →
    8 ≤ w.length ∧ w.length ≤ 1028 ∧ w.length % 4 = 0

/-- The wire form of a payload that fits. -/
theorem WireLength.ofBody (k : Crc8Fn) (op : Byte) (b : FrameBody) (h : bodyOk b = true) :
    8 ≤ (wireBytes k op b).length ∧ (wireBytes k op b).length ≤ 1028 ∧ (wireBytes k op b).length % 4 = 0 := by
  have hl : (wireBytes k op b).length = b.data.length + 8 := by simp [wireBytes, coveredBytes, toLe16]
  simp only [bodyOk, payloadOk, Bool.and_eq_true, beq_iff_eq, decide_eq_true_eq] at h
  omega

/-- A frame row: its encoding is the wire form of its parts. -/
theorem WireLength.ofParts {i : Instr} {d : Dir} {op : Byte} {b : FrameBody} (hp : i.frameParts = some (d, op, b))
    (hb : i.wf = true → bodyOk b = true) : WireLength.Statement i := by
  intro k w hwf he
  simp only [encode, hp, Option.some.injEq] at he
  exact he ▸ WireLength.ofBody k op b (hb hwf)

/-- An operation: it has no encoding. -/
theorem WireLength.ofNone {i : Instr} (hp : i.frameParts = none) : WireLength.Statement i := by
  intro k w _ he
  simp [encode, hp] at he

theorem WireLength.frame (d : Dir) (op : Byte) (b : FrameBody) : WireLength.Statement (.frame d op b) :=
  WireLength.ofParts rfl (fun h => h)
theorem WireLength.opNull (d : Dir) (b : FrameBody) : WireLength.Statement (.opNull d b) :=
  WireLength.ofParts rfl (fun h => h)
theorem WireLength.opRoot (d : Dir) (b : FrameBody) : WireLength.Statement (.opRoot d b) :=
  WireLength.ofParts rfl (fun h => h)
theorem WireLength.opReset (d : Dir) (b : FrameBody) : WireLength.Statement (.opReset d b) :=
  WireLength.ofParts rfl (fun h => h)
theorem WireLength.opPllConfig (d : Dir) (b : FrameBody) : WireLength.Statement (.opPllConfig d b) :=
  WireLength.ofParts rfl (fun h => h)
theorem WireLength.opAddress (d : Dir) (b : FrameBody) : WireLength.Statement (.opAddress d b) :=
  WireLength.ofParts rfl (fun h => h)
theorem WireLength.opReaddress (d : Dir) (b : FrameBody) : WireLength.Statement (.opReaddress d b) :=
  WireLength.ofParts rfl (fun h => h)
theorem WireLength.opHighest (d : Dir) (b : FrameBody) : WireLength.Statement (.opHighest d b) :=
  WireLength.ofParts rfl (fun h => h)
theorem WireLength.opBaud (d : Dir) (b : FrameBody) : WireLength.Statement (.opBaud d b) :=
  WireLength.ofParts rfl (fun h => h)
theorem WireLength.opUnroot (d : Dir) (b : FrameBody) : WireLength.Statement (.opUnroot d b) :=
  WireLength.ofParts rfl (fun h => h)
theorem WireLength.opHash (d : Dir) (b : FrameBody) : WireLength.Statement (.opHash d b) :=
  WireLength.ofParts rfl (fun h => h)
theorem WireLength.opNonce (d : Dir) (b : FrameBody) : WireLength.Statement (.opNonce d b) :=
  WireLength.ofParts rfl (fun h => h)
theorem WireLength.opAbort (d : Dir) (b : FrameBody) : WireLength.Statement (.opAbort d b) :=
  WireLength.ofParts rfl (fun h => h)
theorem WireLength.opStatus (d : Dir) (b : FrameBody) : WireLength.Statement (.opStatus d b) :=
  WireLength.ofParts rfl (fun h => h)
theorem WireLength.opGpio (d : Dir) (b : FrameBody) : WireLength.Statement (.opGpio d b) :=
  WireLength.ofParts rfl (fun h => h)
theorem WireLength.opConfig (d : Dir) (b : FrameBody) : WireLength.Statement (.opConfig d b) :=
  WireLength.ofParts rfl (fun h => h)
theorem WireLength.opStatistics (d : Dir) (b : FrameBody) : WireLength.Statement (.opStatistics d b) :=
  WireLength.ofParts rfl (fun h => h)
theorem WireLength.opGroup (d : Dir) (b : FrameBody) : WireLength.Statement (.opGroup d b) :=
  WireLength.ofParts rfl (fun h => h)
theorem WireLength.opClockgate (d : Dir) (b : FrameBody) : WireLength.Statement (.opClockgate d b) :=
  WireLength.ofParts rfl (fun h => h)
theorem WireLength.opInit (d : Dir) (b : FrameBody) : WireLength.Statement (.opInit d b) :=
  WireLength.ofParts rfl (fun h => h)
theorem WireLength.opGetTrace (d : Dir) (b : FrameBody) : WireLength.Statement (.opGetTrace d b) :=
  WireLength.ofParts rfl (fun h => h)
theorem WireLength.opLoopbackUsb (d : Dir) (b : FrameBody) : WireLength.Statement (.opLoopbackUsb d b) :=
  WireLength.ofParts rfl (fun h => h)
theorem WireLength.opLoopbackUart (d : Dir) (b : FrameBody) : WireLength.Statement (.opLoopbackUart d b) :=
  WireLength.ofParts rfl (fun h => h)
theorem WireLength.opDfu (d : Dir) (b : FrameBody) : WireLength.Statement (.opDfu d b) :=
  WireLength.ofParts rfl (fun h => h)
theorem WireLength.opShutdown (d : Dir) (b : FrameBody) : WireLength.Statement (.opShutdown d b) :=
  WireLength.ofParts rfl (fun h => h)
theorem WireLength.opDieStatus (d : Dir) (b : FrameBody) : WireLength.Statement (.opDieStatus d b) :=
  WireLength.ofParts rfl (fun h => h)
theorem WireLength.opGwqStatus (d : Dir) (b : FrameBody) : WireLength.Statement (.opGwqStatus d b) :=
  WireLength.ofParts rfl (fun h => h)
theorem WireLength.opWorkRestart (d : Dir) (b : FrameBody) : WireLength.Statement (.opWorkRestart d b) :=
  WireLength.ofParts rfl (fun h => h)
theorem WireLength.opUsbStats1 (d : Dir) (b : FrameBody) : WireLength.Statement (.opUsbStats1 d b) :=
  WireLength.ofParts rfl (fun h => h)
theorem WireLength.opUsbGwqstats (d : Dir) (b : FrameBody) : WireLength.Statement (.opUsbGwqstats d b) :=
  WireLength.ofParts rfl (fun h => h)
theorem WireLength.opNotice (d : Dir) (b : FrameBody) : WireLength.Statement (.opNotice d b) :=
  WireLength.ofParts rfl (fun h => h)
theorem WireLength.opPing (d : Dir) (b : FrameBody) : WireLength.Statement (.opPing d b) :=
  WireLength.ofParts rfl (fun h => h)
theorem WireLength.opCoreMap (d : Dir) (b : FrameBody) : WireLength.Statement (.opCoreMap d b) :=
  WireLength.ofParts rfl (fun h => h)
theorem WireLength.opVersion (d : Dir) (b : FrameBody) : WireLength.Statement (.opVersion d b) :=
  WireLength.ofParts rfl (fun h => h)
theorem WireLength.opFan (d : Dir) (b : FrameBody) : WireLength.Statement (.opFan d b) :=
  WireLength.ofParts rfl (fun h => h)
theorem WireLength.opName (d : Dir) (b : FrameBody) : WireLength.Statement (.opName d b) :=
  WireLength.ofParts rfl (fun h => h)
theorem WireLength.frameUnknown (d : Dir) (op : Byte) (b : FrameBody) : WireLength.Statement (.frameUnknown d op b) :=
  WireLength.ofParts rfl (fun h => by simp only [Instr.wf, Bool.and_eq_true] at h; exact h.2)
theorem WireLength.crc8 (h : Header) : WireLength.Statement (.crc8 h) := WireLength.ofNone rfl
theorem WireLength.encode (opcode chip core hdata : Int) (data : Bytes) : WireLength.Statement
    (.encode opcode chip core hdata data) :=
  WireLength.ofNone rfl
theorem WireLength.decode (b : Bytes) : WireLength.Statement (.decode b) := WireLength.ofNone rfl
theorem WireLength.decodeBase (b : Bytes) : WireLength.Statement (.decodeBase b) := WireLength.ofNone rfl
theorem WireLength.decorate (f : Frame) : WireLength.Statement (.decorate f) := WireLength.ofNone rfl
theorem WireLength.feed (b : Bytes) : WireLength.Statement (.feed b) := WireLength.ofNone rfl
theorem WireLength.feedByteOutOfSync (x : Byte) : WireLength.Statement (.feedByteOutOfSync x) := WireLength.ofNone rfl
theorem WireLength.feedByteHeaderBody (x : Byte) : WireLength.Statement (.feedByteHeaderBody x) :=
  WireLength.ofNone rfl
theorem WireLength.feedByteHeaderCrcFail (x : Byte) : WireLength.Statement (.feedByteHeaderCrcFail x) :=
  WireLength.ofNone rfl
theorem WireLength.feedByteHeaderCrcOk (x : Byte) : WireLength.Statement (.feedByteHeaderCrcOk x) :=
  WireLength.ofNone rfl
theorem WireLength.feedByteData (x : Byte) : WireLength.Statement (.feedByteData x) := WireLength.ofNone rfl
theorem WireLength.feedByteNextFrame (x : Byte) : WireLength.Statement (.feedByteNextFrame x) := WireLength.ofNone rfl
theorem WireLength.hasToken : WireLength.Statement .hasToken := WireLength.ofNone rfl
theorem WireLength.takeToken : WireLength.Statement .takeToken := WireLength.ofNone rfl
theorem WireLength.seqLe (a b : Half) : WireLength.Statement (.seqLe a b) := WireLength.ofNone rfl
theorem WireLength.seqLt (a b : Half) : WireLength.Statement (.seqLt a b) := WireLength.ofNone rfl
theorem WireLength.seqNext (d : Byte) : WireLength.Statement (.seqNext d) := WireLength.ofNone rfl
theorem WireLength.clz256 (digest : Bytes) : WireLength.Statement (.clz256 digest) := WireLength.ofNone rfl
theorem WireLength.verify (w : HeaderSource) (cand : CandidateNonce) : WireLength.Statement (.verify w cand) :=
  WireLength.ofNone rfl
theorem WireLength.classify (zeroBits : Nat) (difficulty : Byte) : WireLength.Statement
    (.classify zeroBits difficulty) :=
  WireLength.ofNone rfl
theorem WireLength.cycle (now throttle : Nat) (cancel : Bool) (rx : Rx) : WireLength.Statement
    (.cycle now throttle cancel rx) :=
  WireLength.ofNone rfl
theorem WireLength.cycleInitTick (now : Nat) : WireLength.Statement (.cycleInitTick now) := WireLength.ofNone rfl
theorem WireLength.cycleInitAckOk (ia : InitAck) : WireLength.Statement (.cycleInitAckOk ia) := WireLength.ofNone rfl
theorem WireLength.cycleInitAckFail (ia : InitAck) : WireLength.Statement (.cycleInitAckFail ia) :=
  WireLength.ofNone rfl
theorem WireLength.cycleNonceReport (nr : NonceReport) (now : Nat) : WireLength.Statement
    (.cycleNonceReport nr now) :=
  WireLength.ofNone rfl
theorem WireLength.cycleStatusThermal (st : StatusReport) : WireLength.Statement (.cycleStatusThermal st) :=
  WireLength.ofNone rfl
theorem WireLength.cycleStatusReconcile (st : StatusReport) : WireLength.Statement (.cycleStatusReconcile st) :=
  WireLength.ofNone rfl
theorem WireLength.cycleIssueAll (now throttle : Nat) : WireLength.Statement (.cycleIssueAll now throttle) :=
  WireLength.ofNone rfl
theorem WireLength.cycleIssueOne (d c : Byte) (now : Nat) : WireLength.Statement (.cycleIssueOne d c now) :=
  WireLength.ofNone rfl
theorem WireLength.cycleReportTick (now : Nat) : WireLength.Statement (.cycleReportTick now) := WireLength.ofNone rfl
theorem WireLength.cycleTerminate (reason : TermReason) : WireLength.Statement (.cycleTerminate reason) :=
  WireLength.ofNone rfl
theorem WireLength.sessionReset : WireLength.Statement .sessionReset := WireLength.ofNone rfl
theorem WireLength.send (b : Bytes) : WireLength.Statement (.send b) := WireLength.ofNone rfl

end Sys2Proof.Laws
end

