-- ==== Sys2Proof/Laws/Sched.lean ====
section
/-! SUPPORT. What the session's operations can do, said once each: the die table, the frame of a session step, one
issue, the issuance of a list of cores, the drain, the chunks of a message, what the session does not read, the bytes of
a cycle. -/

namespace Sys2Proof.Machine

/-! ## The die table -/

theorem dieAt_eq_some {s : State} {d : Byte} {die : DieState} :
    dieAt s d = some die ↔ d.toNat < s.ses.dies.toNat ∧ s.ses.die[d.toNat]? = some die := by
  unfold dieAt
  by_cases h : d.toNat < s.ses.dies.toNat <;> simp [h]

theorem dieAt_missing {s : State} {d : Byte} (h : s.ses.dies.toNat ≤ d.toNat) : dieAt s d = none := by
  unfold dieAt
  simp [h]

/-- A die just written is read back. -/
theorem dieAt_withDie_self {s : State} {d : Byte} {die die' : DieState} (h : dieAt s d = some die) :
    dieAt (s.withDie d die') d = some die' := by
  rw [dieAt_eq_some] at h ⊢
  obtain ⟨h1, h2⟩ := h
  have := (List.getElem?_eq_some_iff.1 h2).1
  simp [h1, this]

/-- A write to one die leaves the others (44_scheduler R222). -/
theorem dieAt_withDie_ne {s : State} {d d' : Byte} (die : DieState) (h : d' ≠ d) :
    dieAt (s.withDie d die) d' = dieAt s d' := by
  have : d.toNat ≠ d'.toNat := fun hh => h (BitVec.eq_of_toNat_eq hh.symm)
  simp [dieAt, this]

/-! ## The frame of a session step -/

/-- What no step of a session changes: everything but the session, the draws and the two traces, which only grow. -/
structure SessionOnly (s t : State) : Prop where
  cfg     : t.cfg = s.cfg
  par     : t.par = s.par
  calls   : t.calls = s.calls
  waiting : t.waiting = s.waiting
  lastNow : t.lastNow = s.lastNow
  result  : t.result = s.result
  sent    : s.sent <+: t.sent
  log     : s.log <+: t.log

theorem SessionOnly.refl (s : State) : SessionOnly s s :=
  ⟨rfl, rfl, rfl, rfl, rfl, rfl, List.prefix_refl _, List.prefix_refl _⟩

theorem SessionOnly.trans {s t u : State} (h : SessionOnly s t) (h' : SessionOnly t u) : SessionOnly s u :=
  ⟨h'.cfg.trans h.cfg, h'.par.trans h.par, h'.calls.trans h.calls,
    h'.waiting.trans h.waiting, h'.lastNow.trans h.lastNow,
    h'.result.trans h.result, h.sent.trans h'.sent, h.log.trans h'.log⟩

theorem SessionOnly.withSes (s : State) (x : Session) : SessionOnly s (s.withSes x) :=
  ⟨rfl, rfl, rfl, rfl, rfl, rfl, List.prefix_refl _, List.prefix_refl _⟩

theorem SessionOnly.withDraws (s : State) (d : Draws) : SessionOnly s (s.withDraws d) :=
  ⟨rfl, rfl, rfl, rfl, rfl, rfl, List.prefix_refl _, List.prefix_refl _⟩

theorem SessionOnly.note (s : State) (e : LogEvent) : SessionOnly s (s.note e) :=
  ⟨rfl, rfl, rfl, rfl, rfl, rfl, List.prefix_refl _, List.prefix_append _ _⟩

theorem SessionOnly.sendBytes (b : Bytes) (s : State) : SessionOnly s (Machine.sendBytes b s).1 := by
  obtain ⟨h1, h2, _, h4, h5, h6, h7, h8, _, _, l, hl, _⟩ := sendChunks_spec (chunks s.cfg.maxSendSize b) s
  exact ⟨h1, h2, h4, h8, h5, h6, ⟨l, hl.symm⟩, ⟨[], by simp⟩⟩

theorem SessionOnly.tx (op : Byte) (b : FrameBody) (s : State) : SessionOnly s (Machine.tx op b s).state := by
  rcases tx_cases op b s with ⟨_, _, h⟩ | ⟨w, _, _, h⟩ | ⟨w, _, _, h⟩ <;> rw [h]
  · exact SessionOnly.refl s
  · exact SessionOnly.sendBytes w s
  · exact SessionOnly.sendBytes w s

theorem SessionOnly.terminate (r : TermReason) (s : State) : SessionOnly s (Machine.terminate r s) :=
  ((SessionOnly.withSes s _).trans (SessionOnly.note _ _)).trans (SessionOnly.tx _ _ _)

/-- A run caught: its own frame, or that of the termination after it. -/
theorem SessionOnly.caught {s : State} {r : Run} (h : SessionOnly s r.state) : SessionOnly s r.caught := by
  cases r with
  | done t => exact h
  | raise e t => exact h.trans (SessionOnly.terminate _ _)

theorem SessionOnly.andThen {s : State} {r : Run} {k : State → Run} (h : SessionOnly s r.state)
    (hk : ∀ t, SessionOnly t (k t).state) : SessionOnly s (r.andThen k).state := by
  cases r with
  | done t => exact SessionOnly.trans h (hk t)
  | raise e t => exact h

theorem SessionOnly.initTick (now : Nat) (s : State) : SessionOnly s (Machine.initTick now s).state := by
  unfold Machine.initTick
  split
  · exact SessionOnly.andThen (SessionOnly.tx _ _ _) (fun t => SessionOnly.withSes t _)
  · exact SessionOnly.refl s

theorem SessionOnly.issueOne (d c : Byte) (now : Nat) (s : State) :
    SessionOnly s (Machine.issueOne d c now s).state := by
  unfold Machine.issueOne
  split
  · exact SessionOnly.refl s
  · exact ((SessionOnly.withDraws s _).trans (SessionOnly.withSes _ _)).trans (SessionOnly.tx _ _ _)

theorem SessionOnly.issueCores (d : Byte) (now : Nat) (l : List Byte) :
    ∀ s, SessionOnly s (Machine.issueCores d now l s).state := by
  induction l with
  | nil => exact SessionOnly.refl
  | cons c rest ih => exact fun s => SessionOnly.andThen (SessionOnly.issueOne d c now s) ih

theorem SessionOnly.clearSlots (d : Byte) (s : State) : SessionOnly s (Machine.clearSlots d s) := by
  unfold Machine.clearSlots
  split
  · exact SessionOnly.refl s
  · exact SessionOnly.withSes s _

theorem SessionOnly.issueDie (now throttle : Nat) (d : Byte) (s : State) :
    SessionOnly s (Machine.issueDie now throttle d s).state := by
  refine SessionOnly.andThen (SessionOnly.andThen (SessionOnly.issueCores _ _ _ _) fun t => ?_)
    (fun t => SessionOnly.clearSlots d t)
  split
  · exact SessionOnly.issueCores _ _ _ _
  · exact SessionOnly.refl t

theorem SessionOnly.issueAll (now throttle : Nat) (s : State) :
    SessionOnly s (Machine.issueAll now throttle s).state := by
  unfold Machine.issueAll
  generalize indicesBelow s.ses.dies = l
  induction l generalizing s with
  | nil => exact SessionOnly.refl s
  | cons d rest ih => exact SessionOnly.andThen (SessionOnly.issueDie now throttle d s) ih

theorem SessionOnly.reportTick (now : Nat) (s : State) : SessionOnly s (Machine.reportTick now s) := by
  unfold Machine.reportTick
  split
  · exact (SessionOnly.note s _).trans (SessionOnly.withSes _ _)
  · exact SessionOnly.refl s

theorem SessionOnly.logToken (t : Token) (s : State) : SessionOnly s (Machine.logToken t s) := by
  unfold Machine.logToken
  split <;> exact SessionOnly.note s _

theorem SessionOnly.checkNonce (d : Byte) (now : Nat) (s : State) (cand : CandidateNonce) :
    SessionOnly s (Machine.checkNonce d now s cand) := by
  unfold Machine.checkNonce goodNonce
  split
  · exact SessionOnly.withSes s _
  · split <;> exact SessionOnly.withSes s _

theorem SessionOnly.nonceReport (nr : NonceReport) (now : Nat) (s : State) :
    SessionOnly s (Machine.nonceReport nr now s) := by
  unfold Machine.nonceReport
  generalize nr.nonces = l
  induction l generalizing s with
  | nil => exact SessionOnly.refl s
  | cons cand rest ih => exact (SessionOnly.checkNonce _ _ _ _).trans (ih _)

theorem SessionOnly.statusReport (st : StatusReport) (s : State) : SessionOnly s (Machine.statusReport st s) := by
  unfold Machine.statusReport badDie thermalCutoff reconcile
  split
  · exact (SessionOnly.withSes s _).trans (SessionOnly.note _ _)
  · split
    · exact (SessionOnly.withSes s _).trans (SessionOnly.terminate _ _)
    · exact ((SessionOnly.withDraws s _).trans (SessionOnly.withDraws _ _)).trans (SessionOnly.withSes _ _)

/-- The dispatch of a token (44_scheduler R197, R198). -/
theorem SessionOnly.dispatch (t : Token) (now : Nat) (s : State) : SessionOnly s (Machine.dispatch t now s) := by
  unfold Machine.dispatch dispatchStarting dispatchRunning initAckStarting initAckOk
  split
  · split
    · split
      · exact SessionOnly.withSes s _
      · exact SessionOnly.terminate _ s
    · exact SessionOnly.logToken _ s
  · split
    · exact SessionOnly.nonceReport _ _ _
    · exact SessionOnly.statusReport _ _
    · exact SessionOnly.note s _
    · exact SessionOnly.logToken _ s
    · exact SessionOnly.logToken _ s
    · exact SessionOnly.logToken _ s
    · exact (SessionOnly.withSes s _).trans (SessionOnly.logToken _ _)
  · exact SessionOnly.refl s

/-! ## What a drain changes outside the session -/

/-- The frame of a drain: as of a session step, but that tokens leave the head of the queue. -/
structure DrainOnly (s t : State) : Prop where
  cfg     : t.cfg = s.cfg
  queue   : t.par.queue <:+ s.par.queue
  par     : t.par = { s.par with queue := t.par.queue }
  calls   : t.calls = s.calls
  waiting : t.waiting = s.waiting
  lastNow : t.lastNow = s.lastNow
  result  : t.result = s.result
  sent    : s.sent <+: t.sent
  log     : s.log <+: t.log

theorem DrainOnly.refl (s : State) : DrainOnly s s :=
  ⟨rfl, List.suffix_refl _, rfl, rfl, rfl, rfl, rfl, List.prefix_refl _, List.prefix_refl _⟩

theorem DrainOnly.trans {s t u : State} (h : DrainOnly s t) (h' : DrainOnly t u) : DrainOnly s u := by
  refine ⟨h'.cfg.trans h.cfg, h'.queue.trans h.queue, ?_, h'.calls.trans h.calls,
    h'.waiting.trans h.waiting, h'.lastNow.trans h.lastNow,
    h'.result.trans h.result, h.sent.trans h'.sent, h.log.trans h'.log⟩
  rw [h'.par, h.par]

/-- One token taken and dispatched. -/
theorem DrainOnly.one (t : Token) (now : Nat) (s : State) :
    DrainOnly s (dispatch t now (s.withPar s.par.tokenTaken)) := by
  have h := SessionOnly.dispatch t now (s.withPar s.par.tokenTaken)
  exact ⟨h.cfg, h.par ▸ List.tail_suffix _, by rw [h.par]; rfl, h.calls, h.waiting, h.lastNow, h.result, h.sent, h.log⟩

theorem DrainOnly.drainTokens (now : Nat) (l : List Token) : ∀ s, DrainOnly s (Machine.drainTokens now l s) := by
  induction l with
  | nil => exact DrainOnly.refl
  | cons t rest ih =>
    intro s
    unfold Machine.drainTokens
    simp only
    split
    · exact DrainOnly.one t now s
    · exact (DrainOnly.one t now s).trans (ih _)

/-- The drain (44_scheduler R190). -/
theorem DrainOnly.drain (now : Nat) (s : State) : DrainOnly s (Machine.drain now s) :=
  DrainOnly.drainTokens now _ s

/-! ## Sends that succeed -/

/-- While every send succeeds, a send leaves every later one succeeding. -/
theorem sendsSucceed_sendCall {s : State} (h : sendsSucceed s) (ch : Bytes) : sendsSucceed (sendCall ch s) := by
  unfold sendsSucceed at *
  simp only [sendCall_draws, Draw.rest]
  cases hl : s.draws.sends.later with
  | nil => simpa [hl] using h
  | cons a l =>
    rw [hl] at h
    exact ⟨h.2 a (by simp), fun b hb => h.2 b (by simp [hb])⟩

/-- While every send succeeds, all chunks are sent. -/
theorem sendChunks_succeed : ∀ (chs : List Bytes) {s : State}, sendsSucceed s →
    (sendChunks chs s).2 = true ∧ sendsSucceed (sendChunks chs s).1
      ∧ (sendChunks chs s).1.sent = s.sent ++ chs.map (fun b => { bytes := b, ok := true })
  | [], s, h => by simpa [sendChunks] using h
  | ch :: rest, s, h => by
    obtain ⟨h1, h2, h3⟩ := sendChunks_succeed rest (sendsSucceed_sendCall h ch)
    simp only [sendChunks, h.1, if_true]
    exact ⟨h1, h2, by simp [h3, h.1]⟩

/-- No chunk sent. -/
@[simp] theorem chunksSent_zero (s : State) (cs : List Bytes) : chunksSent s cs 0 = s := by
  simp [chunksSent, State.withDraws, State.withSent]

/-- One more chunk sent first. -/
theorem chunksSent_cons (s : State) (ch : Bytes) (cs : List Bytes) (n : Nat) :
    chunksSent s (ch :: cs) (n + 1) = chunksSent (sendCall ch s) cs n := by
  simp [chunksSent, sendCall, State.withDraws, State.withSent, State.sendDrawn, Function.iterate_succ,
    List.zipIdx_succ, List.zipIdx_cons, Function.comp_def, Draw.nth]

/-- What sending chunks does: all of them where every call succeeds, else those up to the first that fails
(45_transport R231). -/
theorem sendChunks_eq : ∀ (cs : List Bytes) (s : State),
    ((∀ i, i < cs.length → s.draws.sends.nth i = true) → sendChunks cs s = (chunksSent s cs cs.length, true))
    ∧ ∀ i, i < cs.length → (∀ j, j < i → s.draws.sends.nth j = true) → s.draws.sends.nth i = false →
      sendChunks cs s = (chunksSent s cs (i + 1), false)
  | [], s => by simp [sendChunks]
  | ch :: cs, s => by
    have hd : ∀ i, (sendCall ch s).draws.sends.nth i = s.draws.sends.nth (i + 1) := fun i => by
      simp [Draw.nth, Function.iterate_succ]
    have h0 : s.draws.sends.nth 0 = s.draws.sends.now := rfl
    obtain ⟨h1, h2⟩ := sendChunks_eq cs (sendCall ch s)
    refine ⟨fun h => ?_, fun i hi hb hf => ?_⟩
    · have hn := h 0 (by simp)
      rw [h0] at hn
      rw [sendChunks, if_pos hn, List.length_cons, chunksSent_cons]
      exact h1 (fun i hi => by rw [hd]; exact h _ (by simpa using hi))
    · cases i with
      | zero =>
        rw [h0] at hf
        rw [sendChunks, if_neg (by simp [hf]), chunksSent_cons, chunksSent_zero]
      | succ i =>
        have hn := hb 0 (by omega)
        rw [h0] at hn
        rw [sendChunks, if_pos hn, chunksSent_cons]
        exact h2 i (by simpa using hi) (fun j hj => by rw [hd]; exact hb _ (by omega)) (by rw [hd]; exact hf)

/-! ## What the session does not read

No operation of the session reads the bytes that wait or the last result: it does the same with others in their place,
and leaves them there. -/

/-- `s` with other bytes waiting and another result. -/
def State.aside (s : State) (w : Bytes) (r : Result) : State := (s.withWaiting w).withResult r

/-- A run that ends in such a state. -/
def Run.aside (x : Run) (w : Bytes) (r : Result) : Run :=
  match x with
  | .done s => .done (s.aside w r)
  | .raise e s => .raise e (s.aside w r)

section Aside
variable (w : Bytes) (r : Result)

@[simp] theorem aside_cfg (s : State) : (s.aside w r).cfg = s.cfg := rfl
@[simp] theorem aside_par (s : State) : (s.aside w r).par = s.par := rfl
@[simp] theorem aside_ses (s : State) : (s.aside w r).ses = s.ses := rfl
@[simp] theorem aside_lastNow (s : State) : (s.aside w r).lastNow = s.lastNow := rfl
@[simp] theorem aside_waiting (s : State) : (s.aside w r).waiting = w := rfl
@[simp] theorem aside_result (s : State) : (s.aside w r).result = r := rfl
@[simp] theorem Run.aside_state (x : Run) : (x.aside w r).state = x.state.aside w r := by cases x <;> rfl

theorem sendChunks_aside : ∀ (cs : List Bytes) (s : State),
    sendChunks cs (s.aside w r) = ((sendChunks cs s).1.aside w r, (sendChunks cs s).2)
  | [], _ => rfl
  | ch :: cs, s => by
    have h : (s.aside w r).draws.sends.now = s.draws.sends.now := rfl
    have h2 : sendCall ch (s.aside w r) = (sendCall ch s).aside w r := rfl
    simp only [sendChunks, h, h2, sendChunks_aside cs]
    split <;> rfl

theorem tx_aside (op : Byte) (b : FrameBody) (s : State) : tx op b (s.aside w r) = (tx op b s).aside w r := by
  unfold tx
  rw [aside_cfg]
  cases encodeBody s.cfg op b with
  | error e => rfl
  | ok m =>
    simp only [sendBytes, aside_cfg, sendChunks_aside]
    split <;> simp [Run.aside, *]

theorem terminate_aside (e : TermReason) (s : State) : terminate e (s.aside w r) = (terminate e s).aside w r := by
  unfold terminate
  rw [← Run.aside_state, ← tx_aside]
  rfl

theorem Run.aside_caught (x : Run) : (x.aside w r).caught = x.caught.aside w r := by
  cases x with
  | done s => rfl
  | raise e s => exact terminate_aside w r _ s

theorem Run.aside_andThen (x : Run) {k : State → Run} (hk : ∀ s, k (s.aside w r) = (k s).aside w r) :
    (x.aside w r).andThen k = (x.andThen k).aside w r := by
  cases x with
  | done s => exact hk s
  | raise e s => rfl

theorem whenIn_aside (x : SState) {k : State → Run} (hk : ∀ s, k (s.aside w r) = (k s).aside w r) (s : State) :
    whenIn x k (s.aside w r) = (whenIn x k s).aside w r := by
  unfold whenIn
  rw [aside_ses]
  split
  · exact hk s
  · rfl

theorem initTick_aside (now : Nat) (s : State) : initTick now (s.aside w r) = (initTick now s).aside w r := by
  unfold initTick
  rw [aside_ses, aside_cfg, tx_aside]
  split
  · exact Run.aside_andThen w r _ (fun _ => rfl)
  · rfl

theorem checkNonce_aside (d : Byte) (now : Nat) (s : State) (cand : CandidateNonce) :
    checkNonce d now (s.aside w r) cand = (checkNonce d now s cand).aside w r := by
  unfold checkNonce
  rw [show recordOf d cand (s.aside w r) = recordOf d cand s from rfl]
  cases recordOf d cand s with
  | none => rfl
  | some x => simp only; split <;> rfl

theorem nonceReport_aside (nr : NonceReport) (now : Nat) (s : State) :
    nonceReport nr now (s.aside w r) = (nonceReport nr now s).aside w r := by
  unfold nonceReport
  generalize nr.nonces = l
  induction l generalizing s with
  | nil => rfl
  | cons c l ih => rw [List.foldl_cons, checkNonce_aside, ih]; rfl

theorem statusReport_aside (st : StatusReport) (s : State) :
    statusReport st (s.aside w r) = (statusReport st s).aside w r := by
  unfold statusReport
  rw [show dieAt (s.aside w r) st.base.chip = dieAt s st.base.chip from rfl]
  cases dieAt s st.base.chip with
  | none => rfl
  | some die =>
    simp only
    split
    · exact terminate_aside w r _ (s.withDie _ _)
    · rfl

theorem dispatch_aside (t : Token) (now : Nat) (s : State) :
    dispatch t now (s.aside w r) = (dispatch t now s).aside w r := by
  unfold dispatch
  rw [aside_ses]
  cases s.ses.sstate with
  | starting =>
    rcases t with (_ | _ | ia | _ | _) | _ | _ <;> try rfl
    simp only [dispatchStarting, initAckStarting]
    split
    · rfl
    · exact terminate_aside w r _ _
  | running =>
    rcases t with (_ | _ | ia | _ | _) | _ | _ <;> try rfl
    · exact nonceReport_aside w r _ _ _
    · exact statusReport_aside w r _ _
  | terminated => rfl

theorem drainTokens_aside (now : Nat) : ∀ (l : List Token) (s : State),
    drainTokens now l (s.aside w r) = (drainTokens now l s).aside w r
  | [], _ => rfl
  | t :: l, s => by
    rw [drainTokens, drainTokens,
      show (s.aside w r).withPar (s.aside w r).par.tokenTaken = (s.withPar s.par.tokenTaken).aside w r from rfl,
      dispatch_aside]
    by_cases h : (dispatch t now (s.withPar s.par.tokenTaken)).ses.sstate = .terminated
    · simp [h]
    · simp only [aside_ses, h, if_false]
      exact drainTokens_aside now l _

theorem drain_aside (now : Nat) (s : State) : drain now (s.aside w r) = (drain now s).aside w r :=
  drainTokens_aside w r now _ s

theorem issueOne_aside (d c : Byte) (now : Nat) (s : State) :
    issueOne d c now (s.aside w r) = (issueOne d c now s).aside w r := by
  unfold issueOne
  rw [show dieAt (s.aside w r) d = dieAt s d from rfl]
  cases dieAt s d with
  | none => rfl
  | some die => simp only [issueOn]; rw [← tx_aside]; rfl

theorem issueCores_aside (d : Byte) (now : Nat) : ∀ (l : List Byte) (s : State),
    issueCores d now l (s.aside w r) = (issueCores d now l s).aside w r
  | [], _ => rfl
  | c :: l, s => by
    rw [issueCores, issueOne_aside]
    exact Run.aside_andThen w r _ (issueCores_aside d now l)

theorem issueDie_aside (now throttle : Nat) (d : Byte) (s : State) :
    issueDie now throttle d (s.aside w r) = (issueDie now throttle d s).aside w r := by
  unfold issueDie
  rw [show freeActiveOf (s.aside w r) d = freeActiveOf s d from rfl, aside_cfg, issueCores_aside,
    Run.aside_andThen w r _ ?_, Run.aside_andThen w r _ ?_]
  · intro s
    unfold clearSlots
    rw [show dieAt (s.aside w r) d = dieAt s d from rfl]
    cases dieAt s d <;> rfl
  · intro s
    rw [show freePendingOf (s.aside w r) d = freePendingOf s d from rfl]
    split
    · exact issueCores_aside w r _ _ _ _
    · rfl

theorem issueDies_aside (now throttle : Nat) : ∀ (l : List Byte) (s : State),
    issueDies now throttle l (s.aside w r) = (issueDies now throttle l s).aside w r
  | [], _ => rfl
  | d :: l, s => by
    rw [issueDies, issueDie_aside]
    exact Run.aside_andThen w r _ (issueDies_aside now throttle l)

theorem issueAll_aside (now throttle : Nat) (s : State) :
    issueAll now throttle (s.aside w r) = (issueAll now throttle s).aside w r :=
  issueDies_aside w r now throttle _ s

theorem reportTick_aside (now : Nat) (s : State) : reportTick now (s.aside w r) = (reportTick now s).aside w r := by
  unfold reportTick
  rw [aside_ses]
  split <;> rfl

theorem cycleTail_aside (now throttle : Nat) (s : State) :
    cycleTail now throttle (s.aside w r) = (cycleTail now throttle s).aside w r := by
  unfold cycleTail
  rw [whenIn_aside w r _ (initTick_aside w r now), Run.aside_andThen w r _ ?_, Run.aside_andThen w r _ ?_]
  · exact whenIn_aside w r _ (fun s => by rw [reportTick_aside]; rfl)
  · exact whenIn_aside w r _ (issueAll_aside w r now throttle)

end Aside

/-! ## The bytes of a cycle -/

/-- Where a drain did not end the session it left the queue empty. -/
theorem drain_queue {now : Nat} {s : State} (h : (drain now s).ses.sstate ≠ .terminated) :
    (drain now s).par.queue = [] := by
  have key : ∀ (l : List Token) (s : State), s.par.queue = l → (drainTokens now l s).ses.sstate ≠ .terminated →
      (drainTokens now l s).par.queue = [] := by
    intro l
    induction l with
    | nil => exact fun s h _ => h
    | cons t l ih =>
      intro s h hn
      rw [drainTokens] at hn ⊢
      by_cases hh : (dispatch t now (s.withPar s.par.tokenTaken)).ses.sstate = .terminated
      · simp only [hh, if_true] at hn
        exact absurd rfl hn
      · simp only [hh, if_false] at hn ⊢
        refine ih _ ?_ hn
        rw [(SessionOnly.dispatch _ _ _).par]
        simp [Parser.tokenTaken, h]
  exact key _ s rfl h

/-- A drained queue has nothing to drain. -/
theorem drain_of_empty {now : Nat} {s : State} (h : s.par.queue = []) : drain now s = s := by
  simp [drain, h, drainTokens]

/-- The bytes of a cycle whose first part the parser takes. -/
theorem cycleFeed_append {now : Nat} {b : Bytes} (b' : Bytes) {s : State} (h : (feedBytes s.cfg b s.par).2 = .all) :
    cycleFeed now (b ++ b') s = cycleFeed now b' (s.withPar (feedBytes s.cfg b s.par).1) := by
  induction b generalizing s with
  | nil => rfl
  | cons x b ih =>
    rw [List.cons_append, cycleFeed]
    cases hx : feedByte s.cfg x s.par with
    | ok p =>
      rw [feedBytes_cons_ok hx] at h ⊢
      exact ih (s := s.withPar p) h
    | full => simp [feedBytes, hx] at h
    | inconsistent => simp [feedBytes, hx] at h

/-- The bytes of a cycle, where the parser takes them all: FEED (44_scheduler R190). -/
theorem cycleFeed_all {now : Nat} {b : Bytes} {s : State} (h : (feedBytes s.cfg b s.par).2 = .all) :
    cycleFeed now b s = .done (s.withPar (feedBytes s.cfg b s.par).1) := by
  have := cycleFeed_append (now := now) [] h
  rwa [List.append_nil] at this

end Sys2Proof.Machine
end

