-- ==== Sys2Proof/Tests/Slice0.lean ====
section
/-! SUPPORT. The model's own tests. Expected values come from spec/95_test_vectors (V, PR), 30_encoding and a
calculation by hand; the words of the decode tests are written out from 30_encoding R60 to R64, their check bytes
calculated outside the model by R100. `witness_<Name>`: states and operands that meet the hypotheses of the statement
of that name, each of its clauses at a boundary. -/

namespace Sys2Proof.Tests

-- one theorem after the other: the checker's threads are few
set_option Elab.async false

open Sys2Proof.Machine

/-! ## States and helpers -/

/-- One step that runs the operation `i` ends in a next state that passes `p`. -/
def after (s : State) (i : Instr) (p : State → Bool) : Bool :=
  match step (s.withCalls [.call i]) with
  | .next t => p t
  | _ => false

/-- One execution of `i` ends in a next state that passes `p`. -/
def gives (s : State) (i : Instr) (p : State → Bool) : Bool :=
  match exec i s with
  | .next t => p t
  | _ => false

/-- The state right after reset: Starting. -/
def start : State := State.reset

/-- A record of core `c` of die 0. -/
def record0 (c : Byte) : WorkRecord :=
  { issueTime := 1, job := HashJob.zero, searchDifficulty := 8, die := 0, core := c }

/-- The die of PR3 with slots to fill: core 1 is free in both lists. -/
def dieA : DieState :=
  { seqNext := 65535, work := [(7, record0 1), (65530, record0 0)], coreSeq := [some 65530, some 7, none],
    lastSeqSeen := none, freeActive := [1, 2], freePending := [1], thermal := false, monitor := none }

/-- Running, with 2 dies of 3 cores, at the time 100. -/
def running : State :=
  { State.reset with
    ses := { Session.reset with sstate := .running, dies := 2, cores := 3, die := [dieA, freshDie 3] }
    lastNow := some 100 }

/-- Terminated. -/
def ended : State :=
  { running with ses := { running.ses with sstate := .terminated, termReason := some .cancelled } }

/-- `s` with its parser in the state `x`, holding `acc`, awaiting `need`. -/
def holding (s : State) (x : PState) (acc : Bytes) (need : Nat) : State :=
  s.withPar { Parser.reset with pstate := x, acc := acc, need := need }

/-- `s` with a queue of at most `n` tokens. -/
def bounded (s : State) (n : Nat) : State := { s with cfg := { s.cfg with tokenFifoDepth := some n } }

/-- `s` with every send failing. -/
def mute (s : State) : State := s.withDraws { s.draws with sends := ⟨false, []⟩ }

/-- `s` with its first `n` sends succeeding and the later ones failing. -/
def failingFrom (s : State) (n : Nat) : State :=
  s.withDraws { s.draws with sends := ⟨decide (0 < n), (List.range n).map (fun i => decide (i + 1 < n))⟩ }

/-- V7. -/
def ping : Bytes := [0xAA, 0x8C, 0x01, 0x02, 0x34, 0x12, 0x01, 0xD6, 0xDE, 0xAD, 0xBE, 0xEF]

/-- The frame of V7. -/
def pingFrame : Frame :=
  { opcode := 0x8C, chip := 1, core := 2, hdata := 0x1234, data := [0xDE, 0xAD, 0xBE, 0xEF], crc8 := 0xD6 }

/-- A status report of die `d`: `bitmap`, last sequence `q`, thermal bit `hot`. -/
def report (d : Byte) (q : Half) (hot : Bool) (bitmap : Bytes) : StatusReport :=
  { base := { opcode := 12, chip := d, core := 0, hdata := q, data := [], crc8 := 0 }
    thermal := hot, tach := 0, lastSeq := q
    monitor := { temperature := 0x0110, voltage := #v[1, 2, 3, 4, 5, 6] }, bitmap := bitmap }

/-- An acknowledgement of 1 die of 8 cores (V28) with operation status `op`. -/
def ack (op : Byte) : InitAck :=
  { base := { opcode := 128, chip := 1, core := 8, hdata := 0, data := [], crc8 := 0xAE }
    dies := 1, cores := 8, fwRev := 3, hwRev := 1, serial := 0x12345678, opStatus := op
    coreBitmap := [0xFF, 0, 0, 0] }

/-- A nonce report of die `d` with one candidate for each sequence. -/
def nonces (d : Byte) (qs : List Half) : NonceReport :=
  { base := { opcode := 10, chip := d, core := 0, hdata := 0, data := [], crc8 := 0 }
    nonces := qs.map (fun q => { nonce := 1, sequence := q, ntimeOffset := 0, searchForward := false }) }

/-- A digest with `v` at index `i`, zeros elsewhere. -/
def digestWith (i : Nat) (v : Byte) : Bytes := (List.replicate 32 0).set i v

/-! ## Well-formedness: what each check refuses -/

/-- A payload of 6 bytes is refused in every frame row. -/
theorem test_wf_framePayload :
    (([fun d b => .frame d 9 b, .opNull, .opRoot, .opReset, .opPllConfig, .opAddress, .opReaddress, .opHighest,
      .opBaud, .opUnroot, .opHash, .opNonce, .opAbort, .opStatus, .opGpio, .opConfig, .opStatistics, .opGroup,
      .opClockgate, .opInit, .opGetTrace, .opLoopbackUsb, .opLoopbackUart, .opDfu, .opShutdown, .opDieStatus,
      .opGwqStatus, .opWorkRestart, .opUsbStats1, .opUsbGwqstats, .opNotice, .opPing, .opCoreMap, .opVersion,
      .opFan, .opName, fun d b => .frameUnknown d 0x55 b] : List (Dir → FrameBody → Instr)).map
      (fun k => ((k .rx { data := List.replicate 6 0 }).wf, (k .tx { data := List.replicate 4 0 }).wf)))
    = List.replicate 37 (false, true) := by decide +kernel

theorem test_wf_payloadTooLong : (Instr.opPing .rx { data := List.replicate 1024 0 }).wf = false
    ∧ (Instr.opPing .rx { data := List.replicate 1020 0 }).wf = true := by decide +kernel

theorem test_wf_unknownOpcodeOfATableRow : (Instr.frameUnknown .rx 0x90 {}).wf = false
    ∧ (Instr.frameUnknown .rx 0x91 {}).wf = true := by decide +kernel

theorem test_wf_decorateNoFrame : (Instr.decorate { pingFrame with data := [1] }).wf = false
    ∧ (Instr.decorate pingFrame).wf = true := by decide +kernel

theorem test_wf_digestLength : (Instr.clz256 (List.replicate 31 0)).wf = false
    ∧ (Instr.clz256 (List.replicate 32 0)).wf = true := by decide +kernel

theorem test_wf_zeroBits : (Instr.classify 257 0).wf = false ∧ (Instr.classify 256 0).wf = true := by decide +kernel

theorem test_wf_ackRows : (Instr.cycleInitAckOk (ack 1)).wf = false ∧ (Instr.cycleInitAckFail (ack 0)).wf = false
    ∧ (Instr.cycleInitAckOk (ack 0)).wf = true ∧ (Instr.cycleInitAckFail (ack 1)).wf = true := by decide +kernel

theorem test_wf_statusRows : (Instr.cycleStatusThermal (report 0 0 false [])).wf = false
    ∧ (Instr.cycleStatusReconcile (report 0 0 true [])).wf = false
    ∧ (Instr.cycleStatusThermal (report 0 0 true [])).wf = true
    ∧ (Instr.cycleStatusReconcile (report 0 0 false [])).wf = true := by decide +kernel

/-! ## Decoding: one word of every frame row (30_encoding R60, R64, R66) -/

theorem test_decode_opNull : decode defaultCrc
    [0xAA, 0x00, 0x11, 0xE0, 0x34, 0x12, 0x01, 0xAB, 0x90, 0xAA, 0x00, 0x0F]
    = .ok (.opNull .rx { chip := 0x11, core := 0xE0, hdata := 0x1234, data := [0x90, 0xAA, 0x00, 0x0F] }) := by
  decide +kernel

theorem test_decode_opRoot : decode defaultCrc
    [0xAA, 0x01, 0x12, 0xDF, 0x37, 0x13, 0x00, 0xF0]
    = .ok (.opRoot .rx { chip := 0x12, core := 0xDF, hdata := 0x1337, data := [] }) := by
  decide +kernel

theorem test_decode_opReset : decode defaultCrc
    [0xAA, 0x02, 0x13, 0xDE, 0x3A, 0x14, 0x01, 0x02, 0x92, 0xAA, 0x00, 0x0F]
    = .ok (.opReset .rx { chip := 0x13, core := 0xDE, hdata := 0x143A, data := [0x92, 0xAA, 0x00, 0x0F] }) := by
  decide +kernel

theorem test_decode_opPllConfig : decode defaultCrc
    [0xAA, 0x03, 0x14, 0xDD, 0x3D, 0x15, 0x00, 0x3C]
    = .ok (.opPllConfig .rx { chip := 0x14, core := 0xDD, hdata := 0x153D, data := [] }) := by
  decide +kernel

theorem test_decode_opAddress : decode defaultCrc
    [0xAA, 0x04, 0x15, 0xDC, 0x40, 0x16, 0x01, 0x59, 0x94, 0xAA, 0x00, 0x0F]
    = .ok (.opAddress .rx { chip := 0x15, core := 0xDC, hdata := 0x1640, data := [0x94, 0xAA, 0x00, 0x0F] }) := by
  decide +kernel

theorem test_decode_opReaddress : decode defaultCrc
    [0xAA, 0x05, 0x16, 0xDB, 0x43, 0x17, 0x00, 0x1B]
    = .ok (.opReaddress .rx { chip := 0x16, core := 0xDB, hdata := 0x1743, data := [] }) := by
  decide +kernel

theorem test_decode_opHighest : decode defaultCrc
    [0xAA, 0x06, 0x17, 0xDA, 0x46, 0x18, 0x01, 0x10, 0x96, 0xAA, 0x00, 0x0F]
    = .ok (.opHighest .rx { chip := 0x17, core := 0xDA, hdata := 0x1846, data := [0x96, 0xAA, 0x00, 0x0F] }) := by
  decide +kernel

theorem test_decode_opBaud : decode defaultCrc
    [0xAA, 0x07, 0x18, 0xD9, 0x49, 0x19, 0x00, 0x66]
    = .ok (.opBaud .rx { chip := 0x18, core := 0xD9, hdata := 0x1949, data := [] }) := by
  decide +kernel

theorem test_decode_opUnroot : decode defaultCrc
    [0xAA, 0x08, 0x19, 0xD8, 0x4C, 0x1A, 0x01, 0x7A, 0x98, 0xAA, 0x00, 0x0F]
    = .ok (.opUnroot .rx { chip := 0x19, core := 0xD8, hdata := 0x1A4C, data := [0x98, 0xAA, 0x00, 0x0F] }) := by
  decide +kernel

theorem test_decode_opHash : decode defaultCrc
    [0xAA, 0x09, 0x1A, 0xD7, 0x4F, 0x1B, 0x00, 0x88]
    = .ok (.opHash .rx { chip := 0x1A, core := 0xD7, hdata := 0x1B4F, data := [] }) := by
  decide +kernel

theorem test_decode_opNonce : decode defaultCrc
    [0xAA, 0x0A, 0x1B, 0xD6, 0x52, 0x1C, 0x01, 0xD8, 0x9A, 0xAA, 0x00, 0x0F]
    = .ok (.opNonce .rx { chip := 0x1B, core := 0xD6, hdata := 0x1C52, data := [0x9A, 0xAA, 0x00, 0x0F] }) := by
  decide +kernel

theorem test_decode_opAbort : decode defaultCrc
    [0xAA, 0x0B, 0x1C, 0xD5, 0x55, 0x1D, 0x00, 0xE6]
    = .ok (.opAbort .rx { chip := 0x1C, core := 0xD5, hdata := 0x1D55, data := [] }) := by
  decide +kernel

theorem test_decode_opStatus : decode defaultCrc
    [0xAA, 0x0C, 0x1D, 0xD4, 0x58, 0x1E, 0x01, 0xE4, 0x9C, 0xAA, 0x00, 0x0F]
    = .ok (.opStatus .rx { chip := 0x1D, core := 0xD4, hdata := 0x1E58, data := [0x9C, 0xAA, 0x00, 0x0F] }) := by
  decide +kernel

theorem test_decode_opGpio : decode defaultCrc
    [0xAA, 0x0D, 0x1E, 0xD3, 0x5B, 0x1F, 0x00, 0xA6]
    = .ok (.opGpio .rx { chip := 0x1E, core := 0xD3, hdata := 0x1F5B, data := [] }) := by
  decide +kernel

theorem test_decode_opConfig : decode defaultCrc
    [0xAA, 0x0E, 0x1F, 0xD2, 0x5E, 0x20, 0x01, 0x54, 0x9E, 0xAA, 0x00, 0x0F]
    = .ok (.opConfig .rx { chip := 0x1F, core := 0xD2, hdata := 0x205E, data := [0x9E, 0xAA, 0x00, 0x0F] }) := by
  decide +kernel

theorem test_decode_opStatistics : decode defaultCrc
    [0xAA, 0x0F, 0x20, 0xD1, 0x61, 0x21, 0x00, 0x95]
    = .ok (.opStatistics .rx { chip := 0x20, core := 0xD1, hdata := 0x2161, data := [] }) := by
  decide +kernel

theorem test_decode_opGroup : decode defaultCrc
    [0xAA, 0x10, 0x21, 0xD0, 0x64, 0x22, 0x01, 0x17, 0xA0, 0xAA, 0x00, 0x0F]
    = .ok (.opGroup .rx { chip := 0x21, core := 0xD0, hdata := 0x2264, data := [0xA0, 0xAA, 0x00, 0x0F] }) := by
  decide +kernel

theorem test_decode_opClockgate : decode defaultCrc
    [0xAA, 0x11, 0x22, 0xCF, 0x67, 0x23, 0x00, 0x82]
    = .ok (.opClockgate .rx { chip := 0x22, core := 0xCF, hdata := 0x2367, data := [] }) := by
  decide +kernel

theorem test_decode_opInit : decode defaultCrc
    [0xAA, 0x80, 0x23, 0xCE, 0x6A, 0x24, 0x01, 0x50, 0xA2, 0xAA, 0x00, 0x0F]
    = .ok (.opInit .rx { chip := 0x23, core := 0xCE, hdata := 0x246A, data := [0xA2, 0xAA, 0x00, 0x0F] }) := by
  decide +kernel

theorem test_decode_opGetTrace : decode defaultCrc
    [0xAA, 0x81, 0x24, 0xCD, 0x6D, 0x25, 0x00, 0x6E]
    = .ok (.opGetTrace .rx { chip := 0x24, core := 0xCD, hdata := 0x256D, data := [] }) := by
  decide +kernel

theorem test_decode_opLoopbackUsb : decode defaultCrc
    [0xAA, 0x82, 0x25, 0xCC, 0x70, 0x26, 0x01, 0x6A, 0xA4, 0xAA, 0x00, 0x0F]
    = .ok (.opLoopbackUsb .rx { chip := 0x25, core := 0xCC, hdata := 0x2670, data := [0xA4, 0xAA, 0x00, 0x0F] }) := by
  decide +kernel

theorem test_decode_opLoopbackUart : decode defaultCrc
    [0xAA, 0x83, 0x26, 0xCB, 0x73, 0x27, 0x00, 0x28]
    = .ok (.opLoopbackUart .rx { chip := 0x26, core := 0xCB, hdata := 0x2773, data := [] }) := by
  decide +kernel

theorem test_decode_opDfu : decode defaultCrc
    [0xAA, 0x84, 0x27, 0xCA, 0x76, 0x28, 0x01, 0x87, 0xA6, 0xAA, 0x00, 0x0F]
    = .ok (.opDfu .rx { chip := 0x27, core := 0xCA, hdata := 0x2876, data := [0xA6, 0xAA, 0x00, 0x0F] }) := by
  decide +kernel

theorem test_decode_opShutdown : decode defaultCrc
    [0xAA, 0x85, 0x28, 0xC9, 0x79, 0x29, 0x00, 0xF1]
    = .ok (.opShutdown .rx { chip := 0x28, core := 0xC9, hdata := 0x2979, data := [] }) := by
  decide +kernel

theorem test_decode_opDieStatus : decode defaultCrc
    [0xAA, 0x86, 0x29, 0xC8, 0x7C, 0x2A, 0x01, 0x06, 0xA8, 0xAA, 0x00, 0x0F]
    = .ok (.opDieStatus .rx { chip := 0x29, core := 0xC8, hdata := 0x2A7C, data := [0xA8, 0xAA, 0x00, 0x0F] }) := by
  decide +kernel

theorem test_decode_opGwqStatus : decode defaultCrc
    [0xAA, 0x87, 0x2A, 0xC7, 0x7F, 0x2B, 0x00, 0xF4]
    = .ok (.opGwqStatus .rx { chip := 0x2A, core := 0xC7, hdata := 0x2B7F, data := [] }) := by
  decide +kernel

theorem test_decode_opWorkRestart : decode defaultCrc
    [0xAA, 0x88, 0x2B, 0xC6, 0x82, 0x2C, 0x01, 0x81, 0xAA, 0xAA, 0x00, 0x0F]
    = .ok (.opWorkRestart .rx { chip := 0x2B, core := 0xC6, hdata := 0x2C82, data := [0xAA, 0xAA, 0x00, 0x0F] }) := by
  decide +kernel

theorem test_decode_opUsbStats1 : decode defaultCrc
    [0xAA, 0x89, 0x2C, 0xC5, 0x85, 0x2D, 0x00, 0xBF]
    = .ok (.opUsbStats1 .rx { chip := 0x2C, core := 0xC5, hdata := 0x2D85, data := [] }) := by
  decide +kernel

theorem test_decode_opUsbGwqstats : decode defaultCrc
    [0xAA, 0x8A, 0x2D, 0xC4, 0x88, 0x2E, 0x01, 0x19, 0xAC, 0xAA, 0x00, 0x0F]
    = .ok (.opUsbGwqstats .rx { chip := 0x2D, core := 0xC4, hdata := 0x2E88, data := [0xAC, 0xAA, 0x00, 0x0F] }) := by
  decide +kernel

theorem test_decode_opNotice : decode defaultCrc
    [0xAA, 0x8B, 0x2E, 0xC3, 0x8B, 0x2F, 0x00, 0x5B]
    = .ok (.opNotice .rx { chip := 0x2E, core := 0xC3, hdata := 0x2F8B, data := [] }) := by
  decide +kernel

theorem test_decode_opPing : decode defaultCrc
    [0xAA, 0x8C, 0x2F, 0xC2, 0x8E, 0x30, 0x01, 0xA3, 0xAE, 0xAA, 0x00, 0x0F]
    = .ok (.opPing .rx { chip := 0x2F, core := 0xC2, hdata := 0x308E, data := [0xAE, 0xAA, 0x00, 0x0F] }) := by
  decide +kernel

theorem test_decode_opCoreMap : decode defaultCrc
    [0xAA, 0x8D, 0x30, 0xC1, 0x91, 0x31, 0x00, 0x45]
    = .ok (.opCoreMap .rx { chip := 0x30, core := 0xC1, hdata := 0x3191, data := [] }) := by
  decide +kernel

theorem test_decode_opVersion : decode defaultCrc
    [0xAA, 0x8E, 0x31, 0xC0, 0x94, 0x32, 0x01, 0xB2, 0xB0, 0xAA, 0x00, 0x0F]
    = .ok (.opVersion .rx { chip := 0x31, core := 0xC0, hdata := 0x3294, data := [0xB0, 0xAA, 0x00, 0x0F] }) := by
  decide +kernel

theorem test_decode_opFan : decode defaultCrc
    [0xAA, 0x8F, 0x32, 0xBF, 0x97, 0x33, 0x00, 0x72]
    = .ok (.opFan .rx { chip := 0x32, core := 0xBF, hdata := 0x3397, data := [] }) := by
  decide +kernel

theorem test_decode_opName : decode defaultCrc
    [0xAA, 0x90, 0x33, 0xBE, 0x9A, 0x34, 0x01, 0xF5, 0xB2, 0xAA, 0x00, 0x0F]
    = .ok (.opName .rx { chip := 0x33, core := 0xBE, hdata := 0x349A, data := [0xB2, 0xAA, 0x00, 0x0F] }) := by
  decide +kernel

/-- V22: an opcode of no row. -/
theorem test_decode_frameUnknown : decode defaultCrc [0xAA, 0x55, 0x01, 0x02, 0x03, 0x00, 0x00, 0x39]
    = .ok (.frameUnknown .rx 0x55 { chip := 1, core := 2, hdata := 3 }) := by
  decide +kernel

theorem test_decode_firstGap : decode defaultCrc [0xAA, 0x12, 0x07, 0x08, 0x09, 0x00, 0x01, 0xC7, 0x01, 0x02, 0x03, 0x04]
    = .ok (.frameUnknown .rx 0x12 { chip := 7, core := 8, hdata := 9, data := [1, 2, 3, 4] }) := by
  decide +kernel

/-- A table word without a check byte, and its arrival at the machine right after reset (V15, V8). -/
theorem test_tableWord : decodeTableWord 64 0xAA80000000000000 = some (.opInit .rx {})
    ∧ decodeTableWord 96 0xAA8C0102341201D6DEADBEEF
      = some (.opPing .rx { chip := 1, core := 2, hdata := 0x1234, data := [0xDE, 0xAD, 0xBE, 0xEF] })
    ∧ decodeTableWord 64 0xAB80000000000043 = none := by decide +kernel

theorem test_fetchedWord : (match step (State.reset.withFetchWord 64 0xAA05000000000000) with
    | .next t => t.par.queue == [.frame (.generic
        { opcode := 5, chip := 0, core := 0, hdata := 0, data := [], crc8 := 0x22 })]
    | _ => false) = true := by decide +kernel

/-! ## Frame rows -/

/-- V23: a nonce report arrives. -/
theorem test_opNonce_received : after start
    (.opNonce .rx { core := 2, data := [0x78, 0x56, 0x34, 0x12, 0x05, 0x00, 0x03, 0x10] })
    (fun t => match t.par.queue with
      | [.frame (.nonceReport r)] =>
        r.nonces == [{ nonce := 0x12345678, sequence := 5, ntimeOffset := 3, searchForward := true }]
      | _ => false) = true := by decide +kernel

/-- V9: a shutdown frame is transmitted. -/
theorem test_opShutdown_transmitted : after start (.opShutdown .tx {})
    (fun t => t.sent == [{ bytes := [0xAA, 0x85, 0, 0, 0, 0, 0, 0xCE], ok := true }] && t.result == .unit) = true := by
  decide +kernel

/-- 60_exceptions R244: an opcode that is not known is rejected before any I/O. -/
theorem test_frameUnknown_transmitted : after start (.frameUnknown .tx 0x55 {})
    (fun t => t.sent.isEmpty && t.result == .raised (.validation .badOpcode)) = true := by decide +kernel

/-- V29: the block's own initialization frame, received. -/
theorem test_frame_received : after start (.frame .rx 0x80 {})
    (fun t => match t.par.queue with | [.protoErr .initAckShort _] => true | _ => false) = true := by decide +kernel

/-- 60_exceptions R240, E4: a send that fails ends the session; the shutdown frame is attempted. -/
theorem test_send_fails : after (mute running) (.opPing .tx {})
    (fun t => t.result == .raised .transport && t.ses.termReason == some (.fault .transport)
      && t.sent.map (fun x => x.bytes.getD 1 0) == [0x8C, 0x85]) = true := by decide +kernel

/-! ## CODEC -/

/-- V3. -/
theorem test_crc8 : after start (.crc8 ⟨9, 0, 3, 5, 0, 15⟩) (fun t => t.result == .byte 0x1E) = true := by
  decide +kernel

/-- V7. -/
theorem test_encode : after start (.encode 0x8C 1 2 0x1234 [0xDE, 0xAD, 0xBE, 0xEF])
    (fun t => t.result == .bytes ping) = true := by decide +kernel

/-- V12g: alignment is tested before length. -/
theorem test_encode_order : after start (.encode 0x8C 0 0 0 (List.replicate 1022 0))
    (fun t => t.result == .raised (.validation .badDataAlign)) = true := by decide +kernel

/-- V30. -/
theorem test_decode_notice : after start
    (.decode [0xAA, 0x8B, 0, 0, 2, 0, 2, 0xAF, 1, 0, 0, 0, 0x68, 0x6F, 0x74, 0])
    (fun t => match t.result with
      | .variant (.notice n) => n.code == 2 && n.extra == some 1 && n.message == some [0x68, 0x6F, 0x74]
      | _ => false) = true := by decide +kernel

/-- V24. -/
theorem test_decode_nonceLen : after start (.decode [0xAA, 0x0A, 0, 0, 0, 0, 1, 0xB5, 0, 0, 0, 0])
    (fun t => t.result == .raised (.protocol .nonceLen
      { opcode := 0x0A, chip := 0, core := 0, hdata := 0, data := [0, 0, 0, 0], crc8 := 0xB5 })) = true := by
  decide +kernel

/-- V21: marker and check byte both wrong. -/
theorem test_decodeBase_order : after start
    (.decodeBase [0xAB, 0x8C, 0x01, 0x02, 0x34, 0x12, 0x01, 0xD7])
    (fun t => t.result == .raised (.framing .badMarker)) = true := by decide +kernel

/-- V20: the payload is one byte short. -/
theorem test_decodeBase_length : after start (.decodeBase (ping.take 11))
    (fun t => t.result == .raised (.framing .badLength)) = true := by decide +kernel

/-- V25, and the thermal bit of V26. -/
theorem test_decorate_status : after start
    (.decorate { opcode := 12, chip := 0, core := 0x85, hdata := 7, crc8 := 0
                 data := [0x10, 1, 1, 2, 3, 4, 5, 6, 0x55, 0x55, 0, 0] })
    (fun t => match t.result with
      | .variant (.statusReport r) => r.thermal && r.tach == 5 && r.lastSeq == 7
        && r.monitor == { temperature := 0x0110, voltage := #v[1, 2, 3, 4, 5, 6] }
        && r.bitmap == [0x55, 0x55, 0, 0]
      | _ => false) = true := by decide +kernel

/-! ## PARSER -/

/-- PR1. -/
theorem test_feed_resync : after start
    (.feed ([1, 2, 3] ++ ping ++ [0xFF, 0] ++ [0xAA, 0, 0, 0, 0, 0, 0, 0xAF]))
    (fun t => t.par.pstate == .nextFrame && t.par.acc.isEmpty && t.par.crcErr == 0
      && (match t.par.queue with
        | [.garbage [1, 2, 3], .frame (.generic f), .garbage [0xFF, 0], .frame (.generic g)] =>
          f == pingFrame && g.opcode == 0
        | _ => false)) = true := by decide +kernel

/-- V33. -/
theorem test_feed_falseHeader : after start
    (.feed [0x11, 0xAA, 0x22, 0xAA, 0, 0, 0, 0, 0, 0, 0xAF, 0xAA, 0, 0, 0, 0, 0, 0, 0xAF])
    (fun t => t.par.crcErr == 1 && (match t.par.queue with
        | [.garbage a, .garbage b, .garbage c, .frame _] =>
          a == [0x11] && b == [0xAA, 0x22, 0xAA, 0, 0, 0, 0, 0] && c == [0, 0xAF]
        | _ => false)) = true := by decide +kernel

/-- V42, one byte at a time. -/
theorem test_feedByteOutOfSync : after (holding start .outOfSync [1, 2] 0) (.feedByteOutOfSync 0xAA)
    (fun t => t.par.pstate == .parsingHeader && t.par.acc == [0xAA] && t.par.queue == [.garbage [1, 2]]) = true := by
  decide +kernel

/-- V39: a marker value in a header is data. -/
theorem test_feedByteHeaderBody : after (holding start .parsingHeader [0xAA, 0x8C] 0) (.feedByteHeaderBody 0xAA)
    (fun t => t.par.pstate == .parsingHeader && t.par.acc == [0xAA, 0x8C, 0xAA]) = true := by decide +kernel

/-- V34. -/
theorem test_feedByteHeaderCrcFail :
    after (holding start .parsingHeader (ping.take 7) 0) (.feedByteHeaderCrcFail 0xD7)
    (fun t => t.par.pstate == .outOfSync && t.par.acc.isEmpty && t.par.crcErr == 1
      && t.par.queue == [.garbage (ping.take 7 ++ [0xD7])]) = true := by decide +kernel

/-- PR1, byte 10. -/
theorem test_feedByteHeaderCrcOk : after (holding start .parsingHeader (ping.take 7) 0) (.feedByteHeaderCrcOk 0xD6)
    (fun t => t.par.pstate == .parsingData && t.par.need == 12 && t.par.acc == ping.take 8) = true := by
  decide +kernel

/-- PR1, byte 14. -/
theorem test_feedByteData : after (holding start .parsingData (ping.take 11) 12) (.feedByteData 0xEF)
    (fun t => t.par.pstate == .nextFrame && t.par.acc.isEmpty
      && t.par.queue == [.frame (.generic pingFrame)]) = true := by decide +kernel

/-- PR1, byte 15. -/
theorem test_feedByteNextFrame : after (holding start .nextFrame [] 0) (.feedByteNextFrame 0xFF)
    (fun t => t.par.pstate == .outOfSync && t.par.acc == [0xFF]) = true := by decide +kernel

/-- 41_stream_parser R131: a byte that would emit into a full queue waits, and the bytes behind it. -/
theorem test_feed_stalls : after (bounded start 1) (.feed ([1] ++ [0xAA, 0, 0, 0, 0, 0, 0, 0xAF, 2]))
    (fun t => t.result == .stalled [0xAF, 2] && t.waiting == [0xAF, 2] && t.par.queue == [.garbage [1]]
      && t.par.acc == [0xAA, 0, 0, 0, 0, 0, 0]) = true := by decide +kernel

/-- The bytes that wait go first, once there is room. -/
theorem test_feed_waiting : after ((bounded start 1).withWaiting [0xAA, 0, 0, 0]) (.feed [0, 0, 0, 0xAF])
    (fun t => t.waiting.isEmpty && t.result == .unit && t.par.queue.length == 1) = true := by decide +kernel

theorem test_tokens : after (start.withPar { Parser.reset with queue := [.garbage [1], .garbage [2]] }) .takeToken
      (fun t => t.result == .token (some (.garbage [1])) && t.par.queue == [.garbage [2]]) = true
    ∧ after start .hasToken (fun t => t.result == .bit false) = true := by decide +kernel

/-! ## Sequence numbers and POW -/

/-- V46, V45. -/
theorem test_seqLe : after start (.seqLe 0 32768) (fun t => t.result == .bit false) = true
    ∧ after start (.seqLe 65530 5) (fun t => t.result == .bit true) = true := by decide +kernel

/-- V48, V49. -/
theorem test_seqLt : after start (.seqLt 7 7) (fun t => t.result == .bit false) = true
    ∧ after start (.seqLt 6 7) (fun t => t.result == .bit true) = true := by decide +kernel

/-- V55. -/
theorem test_seqNext : after running (.seqNext 0)
    (fun t => t.result == .sequence 65535 && t.ses.die == [{ dieA with seqNext := 0 }, freshDie 3]) = true := by
  decide +kernel

/-- V57, V58. -/
theorem test_clz256 : after start (.clz256 (digestWith 31 1)) (fun t => t.result == .zeroBits 7) = true
    ∧ after start (.clz256 (digestWith 0 1)) (fun t => t.result == .zeroBits 255) = true := by decide +kernel

/-- 30_encoding R90: the 80-byte header given is the one hashed. -/
theorem test_verify_header : headerIn (.header (Vector.replicate 80 7)) ⟨1, 2, 3, false⟩ = List.replicate 80 7 := by
  decide +kernel

/-- V59g. -/
theorem test_classify : after start (.classify 7 8) (fun t => t.result == .bit false) = true
    ∧ after start (.classify 256 255) (fun t => t.result == .bit true) = true := by decide +kernel

/-! ## The session -/

/-- V64 at 0, and at 4999 after 0. -/
theorem test_cycleInitTick : gives start (.cycleInitTick 0)
      (fun t => t.ses.lastInitTx == some 0 && t.sent.map SendCall.bytes == [[0xAA, 0x80, 0, 0, 0, 0, 0, 0x43]]) = true
    ∧ gives (start.withSes { start.ses with lastInitTx := some 0 }) (.cycleInitTick 4999)
      (fun t => t.ses.lastInitTx == some 0 && t.sent.isEmpty) = true := by decide +kernel

/-- PR2, the acknowledgement. -/
theorem test_cycleInitAckOk : gives start (.cycleInitAckOk (ack 0))
    (fun t => t.ses.sstate == .running && t.ses.dies == 1 && t.ses.cores == 8 && t.ses.serial == 0x12345678
      && t.ses.coreOk == [List.replicate 8 true] && t.ses.die == [freshDie 8]) = true := by decide +kernel

/-- PR6: an operation status of 1. -/
theorem test_cycleInitAckFail : gives start (.cycleInitAckFail (ack 1))
    (fun t => t.ses.termReason == some (.fault .initFailed) && t.ses.die.isEmpty
      && t.sent.map SendCall.bytes == [[0xAA, 0x85, 0, 0, 0, 0, 0, 0xCE]]) = true := by decide +kernel

/-- V63: a die that does not exist. -/
theorem test_cycleNonceReport_badDie : gives running (.cycleNonceReport (nonces 2 [7, 7]) 100)
    (fun t => t.ses.errUnknownSeq == 2 && t.ses.sstate == .running) = true := by decide +kernel

/-- V63: the thermal bit of a die that does not exist. -/
theorem test_cycleStatusThermal_badDie : gives running (.cycleStatusThermal (report 2 0 true []))
    (fun t => t.ses.errBadDie == 1 && t.ses.sstate == .running && t.log == [.badDie 2]) = true := by decide +kernel

/-- PR5. -/
theorem test_cycleStatusThermal : gives running (.cycleStatusThermal (report 1 7 true []))
    (fun t => t.ses.termReason == some (.thermal 1) && t.ses.die.map DieState.thermal == [false, true]
      && t.result == .outcome (.terminated (some (.thermal 1)))) = true := by decide +kernel

/-- PR3: core 1 waits for its sequence 7. -/
theorem test_cycleStatusReconcile : gives running (.cycleStatusReconcile (report 0 5 false [0x15, 0, 0, 0]))
    (fun t => t.ses.die.map DieState.freeActive == [[0, 2], []] && t.ses.die.map DieState.freePending == [[], []]
      && t.ses.die.map DieState.lastSeqSeen == [some 5, none]) = true := by decide +kernel

/-- R211: the active list, then the pending one, across the wrap of the counter. -/
theorem test_cycleIssueAll : gives running (.cycleIssueAll 100 0)
    (fun t => t.sent.map (fun x => x.bytes.take 6) == [[0xAA, 9, 0, 1, 0xFF, 0xFF], [0xAA, 9, 0, 2, 0, 0],
        [0xAA, 9, 0, 1, 1, 0]]
      && t.ses.die.map DieState.coreSeq == [[some 65530, some 1, some 0], [none, none, none]]
      && t.ses.die.map DieState.freePending == [[], []]) = true := by decide +kernel

/-- V61: one slot while throttled, in the two readings of the number. -/
theorem test_cycleIssueAll_throttled :
    gives running (.cycleIssueAll 100 2) (fun t => t.sent.map (fun x => x.bytes.getD 3 0) == [1, 2]) = true
    ∧ gives { running with cfg := { running.cfg with throttleMode := .dropLast } } (.cycleIssueAll 100 1)
      (fun t => t.sent.map (fun x => x.bytes.getD 3 0) == [1]) = true := by decide +kernel

/-- PR3: core 0 gets a job, its record 65530 goes. -/
theorem test_cycleIssueOne : gives running (.cycleIssueOne 0 0 100)
    (fun t => (t.ses.die.map (fun d => d.work.map (fun e => (e.1, e.2.core)))) == [[(7, 1), (65535, 0)], []]
      && t.ses.die.map DieState.seqNext == [0, 0]) = true := by decide +kernel

/-- R215: a send that fails leaves the bookkeeping in place. -/
theorem test_cycleIssueOne_sendFails : gives (mute running) (.cycleIssueOne 0 0 100)
    (fun t => t.ses.termReason == some (.fault .transport) && t.ses.die.map DieState.seqNext == [0, 0]) = true := by
  decide +kernel

/-- PR2: the first report has no figure. -/
theorem test_cycleReportTick : gives running (.cycleReportTick 100)
    (fun t => t.log == [.hashRate none] && t.ses.lastReport == some 100) = true := by decide +kernel

/-- PR6: cancellation. -/
theorem test_cycleTerminate : gives running (.cycleTerminate .cancelled)
    (fun t => t.ses.termReason == some .cancelled
      && t.sent.map SendCall.bytes == [[0xAA, 0x85, 0, 0, 0, 0, 0, 0xCE]]) = true := by decide +kernel

/-- 30_encoding R90: a step of CYCLE is "not separately invocable". -/
theorem test_cycleStep_refused : (match step (running.withCalls [.call (.cycleIssueAll 100 0)]) with
    | .refused .notInvocable => true
    | _ => false) = true := by decide +kernel

/-- 44_scheduler R215, R211: the second send fails; the third slot is not filled, no list is cleared. -/
theorem test_cycleIssueAll_sendFails : gives (failingFrom running 1) (.cycleIssueAll 100 0)
    (fun t => t.sent.map (fun x => x.bytes.getD 1 0) == [9, 9, 0x85]
      && t.ses.termReason == some (.fault .transport) && t.ses.die.map DieState.seqNext == [1, 0]
      && t.ses.die.map DieState.freeActive == [[1, 2], []]) = true := by decide +kernel

/-- 41_stream_parser R131: a cycle's bytes that the full queue did not take when its drain ended the session wait. -/
theorem test_cycle_waiting : after
    ((bounded running 1).withPar { Parser.reset with queue := [.frame (.statusReport (report 0 0 true []))] })
    (.cycle 100 0 false (.bytes [1, 0xAA, 0x55]))
    (fun t => t.ses.termReason == some (.thermal 0) && t.waiting == [0xAA, 0x55] && t.par.acc == [1]) = true := by
  decide +kernel

/-- V62 in one cycle: a status report, then two jobs for core 0. -/
theorem test_cycle : after (running.withSes { running.ses with dies := 1, cores := 8, die := [freshDie 8] })
    (.cycle 300 0 false (.bytes [0xAA, 0x0C, 0, 0, 0, 0, 3, 0x4D, 0x10, 1, 1, 2, 3, 4, 5, 6, 3, 0, 0, 0]))
    (fun t => t.sent.map (fun x => x.bytes.take 6) == [[0xAA, 9, 0, 0, 0, 0], [0xAA, 9, 0, 0, 1, 0]]
      && (t.ses.die.map (fun d => d.work.map (fun e => (e.1, e.2.core)))) == [[(1, 0)]]
      && t.ses.die.map DieState.seqNext == [2]) = true := by decide +kernel

/-- PR5: the token behind the thermal report stays queued. -/
theorem test_cycle_thermal : after running
    (.cycle 200 0 false (.bytes ([0xAA, 0x0C, 0, 0x80, 7, 0, 3, 0x6A, 0x10, 1, 1, 2, 3, 4, 5, 6, 0, 0, 0, 0]
      ++ [0xAA, 0x0A, 0, 2, 0, 0, 2, 0x90, 0x78, 0x56, 0x34, 0x12, 5, 0, 3, 0x10])))
    (fun t => t.ses.termReason == some (.thermal 0) && t.par.queue.length == 1 && t.ses.errUnknownSeq == 0) = true := by
  decide +kernel

/-- PR5, second half. -/
theorem test_sessionReset : after ended .sessionReset
    (fun t => t.ses == Session.reset && t.par == ended.par && t.lastNow == ended.lastNow) = true := by decide +kernel

/-- 44_scheduler R186, 93 U19: the time of a cycle in Terminated is held against the one before, and counts for the
cycle after a SESSION_RESET. -/
theorem test_cycle_timeInTerminated :
    after ended (.cycle 150 0 false (.bytes [])) (fun t => t.lastNow == some 150 && t.ses == ended.ses) = true
    ∧ (match step ((ended.withLastNow (some 150)).withCalls [.call (.cycle 149 0 false (.bytes []))]) with
      | .refused .timeWentBack => true
      | _ => false) = true
    ∧ after (ended.withLastNow (some 150)) .sessionReset (fun t => t.lastNow == some 150) = true := by decide +kernel

/-- V68, V65. -/
theorem test_send : after { start with cfg := { start.cfg with maxSendSize := 64 } } (.send (List.replicate 128 7))
      (fun t => t.sent.map (fun x => x.bytes.length) == [64, 64, 0]) = true
    ∧ after { start with cfg := { start.cfg with maxSendSize := 64 } } (.send (List.replicate 8 7))
      (fun t => t.sent.map (fun x => x.bytes.length) == [8]) = true := by decide +kernel

/-! ## Witnesses of the statements' hypotheses -/

theorem witness_StepRunsTheRequest :
    (start.withCalls [.call .hasToken]).calls = .call .hasToken :: [] ∧ isCycleStep .hasToken = false
    ∧ (start.withCalls [.call (.cycleInitTick 0)]).calls = .call (.cycleInitTick 0) :: []
    ∧ isCycleStep (.cycleInitTick 0) = true
    ∧ (start.withCalls [.wire ping]).calls = .wire ping :: []
    ∧ decode start.cfg.crc ping
      = .ok (.opPing .rx { chip := 1, core := 2, hdata := 0x1234, data := [0xDE, 0xAD, 0xBE, 0xEF] })
    ∧ start.calls = [] := by decide +kernel

/-- A run of bytes that is a frame, and one that is none. -/
theorem witness_ArrivingBytesAreFed : (start.withCalls [.wire ping]).calls = .wire ping :: []
    ∧ (start.withCalls [.wire [1]]).calls = .wire [1] :: []
    ∧ gives (start.withCalls []) (.feed [1]) (fun t => t.par.acc == [1]) = true := by decide +kernel

/-- A received row, a transmitted one, the generic row, the longest payload, and an operation. -/
theorem witness_DecodeOfEncodeIsTheInstruction :
    (Instr.opHash .rx {}).wf = true ∧ (Instr.opHash .rx {}).frameParts = some (.rx, 9, {})
    ∧ (Instr.opName .tx { data := List.replicate 1020 1 }).wf = true
    ∧ (Instr.frame .rx 0x91 {}).wf = true ∧ (Instr.frame .rx 0x91 {}).frameParts = some (.rx, 0x91, {})
    ∧ Instr.hasToken.wf = true ∧ Instr.hasToken.frameParts = none := by decide +kernel

theorem witness_EncodeOfDecodeIsTheWord :
    decode defaultCrc [0xAA, 0x55, 1, 2, 3, 0, 0, 0x39] = .ok (.frameUnknown .rx 0x55 ⟨1, 2, 3, []⟩) := by
  decide +kernel

/-- The first and the last byte and bit of the range, and what a flip there gives. -/
theorem witness_HeaderBitFlipIsDetected : start.cfg.wf
    ∧ gives start (.decodeBase ping) (fun t => t.result == .frame pingFrame) = true
    ∧ gives start (.decodeBase (ping.set 1 (byteAt ping 1 ^^^ BitVec.ofNat 8 (2 ^ 0))))
      (fun t => t.result == .raised (.framing .badCrc)) = true
    ∧ gives start (.decodeBase (ping.set 7 (byteAt ping 7 ^^^ BitVec.ofNat 8 (2 ^ 7))))
      (fun t => t.result == .raised (.framing .badCrc)) = true :=
  ⟨defaultCfg_wf, by decide +kernel⟩

/-- The last good and the first bad value of each operand. -/
theorem witness_EncodeFollowsItsRule :
    (∀ o ∈ start.cfg.knownOpcodes, (o.toNat : Int) ≠ 145) ∧ (0x90 : Byte) ∈ start.cfg.knownOpcodes
    ∧ ((256 : Int) < 0 ∨ (255 : Int) < 256) ∧ (255 : Int) = ((255 : Byte).toNat : Int)
    ∧ ((-1 : Int) < 0 ∨ (255 : Int) < -1) ∧ ((65536 : Int) < 0 ∨ (65535 : Int) < 65536)
    ∧ (65535 : Int) = ((65535 : Half).toNat : Int)
    ∧ (List.replicate 1021 (0 : Byte)).length % 4 ≠ 0 ∧ (List.replicate 1024 (0 : Byte)).length % 4 = 0
    ∧ 1020 < (List.replicate 1024 (0 : Byte)).length
    ∧ (List.replicate 1020 (0 : Byte)).length = 4 * (255 : Byte).toNat := by decide +kernel

theorem witness_DecodeBaseFollowsItsRule :
    (ping.take 7).length < 8 ∧ ping = [0xAA, 0x8C, 1, 2, 0x34, 0x12, 1, 0xD6] ++ [0xDE, 0xAD, 0xBE, 0xEF]
    ∧ (0xAB : Byte) ≠ 0xAA ∧ crc8 start.cfg.crc [0x8C, 1, 2, 0x34, 0x12, 1] ≠ 0xD7
    ∧ crc8 start.cfg.crc [0x8C, 1, 2, 0x34, 0x12, 1] = 0xD6
    ∧ ([0xDE, 0xAD, 0xBE] : Bytes).length ≠ 4 * (1 : Byte).toNat
    ∧ ([0xDE, 0xAD, 0xBE, 0xEF] : Bytes).length = 4 * (1 : Byte).toNat := by decide +kernel

/-- No record, the longest report (127 records), and a length that is none. -/
theorem witness_NonceReportDecoration : start.cfg.ntOffMask = 0x0FFF ∧ start.cfg.opNonce = 10
    ∧ payloadOk (List.replicate 1016 1) = true ∧ (List.replicate 1016 (1 : Byte)).length % 8 = 0
    ∧ 126 < (List.replicate 1016 (1 : Byte)).length / 8
    ∧ payloadOk [] = true ∧ ([] : Bytes).length % 8 = 0
    ∧ payloadOk (List.replicate 4 1) = true ∧ (List.replicate 4 (1 : Byte)).length % 8 ≠ 0 := by decide +kernel

theorem witness_StatusReportDecoration : start.cfg.wf ∧ start.cfg.layoutOk = true ∧ start.cfg.opStatus = 12
    ∧ payloadOk (List.replicate 4 1) = true ∧ (List.replicate 4 (1 : Byte)).length < start.cfg.monLen
    ∧ payloadOk (List.replicate 8 1) = true ∧ start.cfg.monLen ≤ (List.replicate 8 (1 : Byte)).length :=
  ⟨defaultCfg_wf, by decide +kernel⟩

theorem witness_InitAckDecoration : start.cfg.wf ∧ start.cfg.layoutOk = true ∧ start.cfg.opInitAck = 128
    ∧ payloadOk (List.replicate 28 1) = true ∧ (List.replicate 28 (1 : Byte)).length < start.cfg.iaFixedLen
    ∧ payloadOk (List.replicate 32 1) = true ∧ start.cfg.iaFixedLen ≤ (List.replicate 32 (1 : Byte)).length :=
  ⟨defaultCfg_wf, by decide +kernel⟩

theorem witness_NoticeAndGenericDecoration : start.cfg.wf ∧ start.cfg.opNotice = 139
    ∧ (payloadOk pingFrame.data = true ∧ pingFrame.opcode ≠ start.cfg.opNonce ∧ pingFrame.opcode ≠ start.cfg.opStatus
      ∧ pingFrame.opcode ≠ start.cfg.opInitAck ∧ pingFrame.opcode ≠ start.cfg.opNotice)
    ∧ payloadOk [] = true ∧ payloadOk [1, 0, 0, 0] = true
    ∧ payloadOk [1, 0, 0, 0, 5, 6, 7, 8] = true ∧ 4 < ([1, 0, 0, 0, 5, 6, 7, 8] : Bytes).length
    ∧ (∀ x ∈ ([1, 0, 0, 0, 5, 6, 7, 8] : Bytes).drop 4, x ≠ 0)
    ∧ ([1, 0, 0, 0, 0, 6, 7, 8] : Bytes).drop 4 = [] ++ 0 :: [6, 7, 8]
    ∧ (∀ x ∈ ([] : Bytes), x ≠ 0) :=
  ⟨defaultCfg_wf, by decide +kernel⟩

theorem witness_EncodeDecodeRoundTrip :
    gives start (.encode 0x8C 1 2 0x1234 [0xDE, 0xAD, 0xBE, 0xEF]) (fun t => t.result == .bytes ping) = true
    ∧ gives start (.decode ping) (fun t => t.result == .variant (.generic pingFrame)) = true
    ∧ gives start (.decodeBase ping) (fun t => t.result == .frame pingFrame) = true
    ∧ pingFrame.opcode ∈ start.cfg.knownOpcodes := by decide +kernel

/-- The empty and the longest payload, in both states between frames, with the last free entry of a bounded queue. -/
theorem witness_ReceivedFrameQueuesItsToken :
    (Instr.frameUnknown .rx 0x55 {}).frameParts = some (.rx, 0x55, {}) ∧ payloadOk [] = true
    ∧ payloadOk (List.replicate 1020 1) = true ∧ betweenFrames start.par
    ∧ betweenFrames (holding start .nextFrame [] 0).par ∧ roomFor start ∧ roomFor (bounded start 1)
    ∧ start.waiting = [] := by decide +kernel

theorem witness_TransmittedFrameIsSent :
    (Instr.frame .tx 0x55 {}).frameParts = some (.tx, 0x55, {}) ∧ (0x55 : Byte) ∉ start.cfg.knownOpcodes
    ∧ (Instr.opPing .tx {}).frameParts = some (.tx, 0x8C, {}) ∧ (0x8C : Byte) ∈ start.cfg.knownOpcodes
    ∧ (List.replicate 1022 (1 : Byte)).length % 4 ≠ 0 ∧ 1020 < (List.replicate 1024 (1 : Byte)).length
    ∧ payloadOk (List.replicate 1020 1) = true
    ∧ start.draws.sends.now = true ∧ (mute start).draws.sends.now = false ∧ ended.ses.sstate = .terminated
    ∧ 8 + (List.replicate 1020 (1 : Byte)).length ≤ start.cfg.maxSendSize := by decide +kernel

/-- A message of exactly the maximum, and one byte more (V67, V66); every call succeeds, the first fails, the second. -/
theorem witness_SendChunksTheMessage : 1 ≤ start.cfg.maxSendSize
    ∧ (∀ i, i < 2 → start.draws.sends.nth i = true)
    ∧ (∀ i, i < 1 → (failingFrom start 1).draws.sends.nth i = true) ∧ (failingFrom start 1).draws.sends.nth 1 = false
    ∧ (mute start).draws.sends.nth 0 = false
    ∧ (List.replicate 1028 (0 : Byte)).length ≤ start.cfg.maxSendSize
    ∧ start.cfg.maxSendSize < (List.replicate 1029 (0 : Byte)).length ∧ 0 < 1029 / start.cfg.maxSendSize := by
  decide +kernel

/-- The time that goes back, in Running and in Terminated. -/
theorem witness_OutOfBlockInputsStop : ended.ses.sstate = .terminated ∧ ended.lastNow = some 100 ∧
    (Instr.opPing .rx { data := [1] }).frameParts = some (.rx, 0x8C, { data := [1] }) ∧ payloadOk [1] = false
    ∧ payloadOk (List.replicate 1024 0) = false ∧ (List.replicate 33 (0 : Byte)).length ≠ 32
    ∧ running.ses.dies.toNat ≤ (2 : Byte).toNat
    ∧ running.ses.sstate ≠ .terminated ∧ running.lastNow = some 100 ∧ 99 < 100
    ∧ running.ses.sstate = .running ∧ timeOk running 100
    ∧ (1 : Byte).toNat < running.ses.dies.toNat ∧ running.ses.die[(1 : Byte).toNat]? = some (freshDie 3)
    ∧ running.ses.cores.toNat ≤ (3 : Byte).toNat := by decide +kernel

/-- No cap, a cap this byte reaches, a cap it does not; an empty run and one to flush. -/
theorem witness_FeedByteOutOfSync : start.waiting = [] ∧ start.par.pstate = .outOfSync ∧ (0xAB : Byte) ≠ 0xAA
    ∧ start.cfg.garbageCap ≠ some (start.par.acc.length + 1)
    ∧ (let s := { holding start .outOfSync [1] 0 with cfg := { start.cfg with garbageCap := some 2 } }
      s.waiting = [] ∧ s.par.pstate = .outOfSync ∧ s.cfg.garbageCap = some (s.par.acc.length + 1) ∧ roomFor s
      ∧ s.par.acc ≠ [])
    ∧ start.par.acc = [] := by decide +kernel

theorem witness_FeedByteHeaderBody : (holding start .parsingHeader (ping.take 6) 0).waiting = [] ∧
    (holding start .parsingHeader (ping.take 6) 0).par.pstate = .parsingHeader
    ∧ (holding start .parsingHeader (ping.take 6) 0).par.acc.length < 7 := by decide +kernel

/-- An unbounded counter, one with a value to go, and one that is full. -/
theorem witness_FeedByteHeaderCrcFail :
    (let s := holding start .parsingHeader [0xAA, 0x8C, 1, 2, 0x34, 0x12, 1] 0;
      s.waiting = [] ∧ s.par.pstate = .parsingHeader ∧ s.par.acc = [0xAA, 0x8C, 1, 2, 0x34, 0x12, 1]
      ∧ crc8 s.cfg.crc [0x8C, 1, 2, 0x34, 0x12, 1] ≠ 0xD7 ∧ roomFor s ∧ s.cfg.ctrW = none)
    ∧ (254 < 2 ^ 8 - 1) ∧ 255 = 2 ^ 8 - 1 := by decide +kernel

theorem witness_FeedByteHeaderCrcOk :
    (let s := holding start .parsingHeader [0xAA, 0, 0, 0, 0, 0, 0] 0;
      s.waiting = [] ∧ s.par.pstate = .parsingHeader ∧ s.par.acc = [0xAA, 0, 0, 0, 0, 0, 0]
      ∧ crc8 s.cfg.crc [0, 0, 0, 0, 0, 0] = 0xAF ∧ roomFor s)
    ∧ (let s := holding start .parsingHeader [0xAA, 0, 0, 0, 0, 0, 1] 0;
      s.par.acc = [0xAA, 0, 0, 0, 0, 0, 1] ∧ crc8 s.cfg.crc [0, 0, 0, 0, 0, 1] = 0xA8 ∧ (1 : Byte) ≠ 0) := by
  decide +kernel

/-- The byte before the last, the last, and one too many. -/
theorem witness_FeedByteData : (holding start .parsingData ping 12).waiting = [] ∧
    (holding start .parsingData (ping.take 10) 12).par.acc.length + 1 < 12
    ∧ (holding start .parsingData (ping.take 11) 12).par.acc
      = [0xAA, 0x8C, 1, 2, 0x34, 0x12, 1, 0xD6] ++ [0xDE, 0xAD, 0xBE]
    ∧ (holding start .parsingData (ping.take 11) 12).par.need = 8 + ([0xDE, 0xAD, 0xBE] : Bytes).length + 1
    ∧ roomFor (holding start .parsingData (ping.take 11) 12)
    ∧ (holding start .parsingData ping 12).par.need ≤ (holding start .parsingData ping 12).par.acc.length := by
  decide +kernel

theorem witness_FeedByteNextFrame : (holding start .nextFrame [] 0).waiting = []
    ∧ (holding start .nextFrame [] 0).par.pstate = .nextFrame := by decide +kernel

theorem witness_FeedIsChunkingInvariant : start.waiting = []
    ∧ gives (bounded start 1) (.feed [1, 0xAA, 1, 0xAA]) (fun t => t.result == .unit) = true
    ∧ gives (bounded start 1) (.feed [1, 0xAA, 0, 0, 0, 0, 0, 0, 0xAF, 2])
      (fun t => t.result == .stalled [0xAF, 2]) = true
    ∧ gives start (.feed ping) (fun t => t.result == .unit) = true
    ∧ (holding start .parsingHeader (ping.take 7) 0).par.acc.length = 7
    ∧ crc8 start.cfg.crc (bytes1to6 (ping.take 7)) = 0xD6
    ∧ crc8 start.cfg.crc (bytes1to6 (ping.take 7)) ≠ 0xD7
    ∧ (holding start .parsingHeader [0xAA] 0).par.acc.length < 7 := by decide +kernel

/-- In every parser state, the header one byte short and the payload one byte short. -/
theorem witness_FeedNeverRaises : parserInv start.cfg start.par
    ∧ parserInv start.cfg (holding start .parsingHeader (ping.take 7) 0).par
    ∧ parserInv start.cfg (holding start .parsingData (ping.take 11) 12).par
    ∧ parserInv start.cfg (holding start .nextFrame [] 0).par
    ∧ (bounded start 1).cfg.tokenFifoDepth = some 1 ∧ (bounded start 1).par.queue.length ≤ 1
    ∧ ((bounded start 1).withPar { Parser.reset with queue := [.garbage [1]] }).par.queue.length ≤ 1 := by
  refine ⟨?_, ?_, ?_, ?_, ?_⟩ <;> decide +kernel

theorem witness_FeedConservesBytes : parserInv start.cfg start.par
    ∧ gives start (.feed (ping ++ [1])) (fun t => t.result == .unit && t.par.acc == [1]) = true
    ∧ gives (bounded start 1) (.feed [1, 0xAA, 0, 0, 0, 0, 0, 0, 0xAF])
      (fun t => t.waiting == [0xAF]) = true := by decide +kernel

theorem witness_ParserResynchronizes : betweenFrames start.par ∧ start.waiting = [] ∧ start.cfg.tokenFifoDepth = none
    ∧ start.cfg.garbageCap = none ∧ (∀ x ∈ ([1, 2, 3] : Bytes), x ≠ 0xAA) ∧ (∀ x ∈ ([0xFF] : Bytes), x ≠ 0xAA)
    ∧ payloadOk [0xDE, 0xAD, 0xBE, 0xEF] = true ∧ payloadOk [] = true := by decide +kernel

theorem witness_TokenQueueOperations : start.par.queue = []
    ∧ (start.withPar { Parser.reset with queue := [.garbage [1]] }).par.queue = .garbage [1] :: [] := by decide +kernel

/-- Both sides of the window (V47, V46). -/
theorem witness_SeqLeFollowsItsRule :
    (((0 : Half).toNat : Int) - (32767 : Half).toNat).natAbs < 32768
    ∧ 32768 ≤ (((0 : Half).toNat : Int) - (32768 : Half).toNat).natAbs := by decide +kernel

theorem witness_SeqComparatorLaws : (0 : Half) ≠ 32768 ∧ ((32767 : Half) - 0).toNat < 32768
    ∧ 32768 < ((32769 : Half) - 0).toNat ∧ ((32768 : Half) - 0).toNat = 32768 := by decide +kernel

theorem witness_SeqNextPostIncrements : (1 : Byte).toNat < running.ses.dies.toNat
    ∧ running.ses.die[(1 : Byte).toNat]? = some (freshDie 3) ∧ running.ses.die[(0 : Byte).toNat]? = some dieA := by
  decide +kernel

theorem witness_Clz256CountsTheLeadingZeros : (digestWith 31 0x80).length = 32 ∧ (digestWith 0 0).length = 32 := by
  decide +kernel

/-- Equality, and one less. -/
theorem witness_ClassifyComparesTheCount : (record0 0).searchDifficulty.toNat ≤ 8
    ∧ 7 < (record0 0).searchDifficulty.toNat := by decide +kernel

theorem witness_StepsOutsideTheirStateDoNothing : ended.ses.sstate = .terminated ∧ timeOk ended 100
    ∧ start.ses.sstate = .starting
    ∧ timeOk start 0 := by decide +kernel

theorem witness_TerminateSavesAndNotifies : start.cfg.wf ∧ payloadOk start.cfg.shutdownFields.data = true
    ∧ start.ses.sstate ≠ .terminated
    ∧ running.ses.sstate ≠ .terminated :=
  ⟨defaultCfg_wf, by decide +kernel⟩

theorem witness_CycleIsCancelledOrFailsAtReceive : running.ses.sstate ≠ .terminated ∧ timeOk running 100
    ∧ start.ses.sstate ≠ .terminated ∧ timeOk start 0 := by decide +kernel

/-- The last moment that is not due and the first that is; a session that never sent. -/
theorem witness_InitTickSendsWhenDue : start.cfg.wf ∧ payloadOk start.cfg.initFields.data = true
    ∧ timeOk start 0 ∧ start.ses.sstate = .starting
    ∧ (∀ t₀ ∈ start.ses.lastInitTx, t₀ + 5000 ≤ 0) ∧ 4999 < 0 + 5000 ∧ 0 + 5000 ≤ 5000
    ∧ running.ses.sstate = .running ∧ timeOk running 100 ∧ sendsSucceed start :=
  ⟨defaultCfg_wf, by decide +kernel⟩

theorem witness_HandshakeCreatesTheDies : start.ses.sstate = .starting ∧ (ack 0).opStatus = 0
    ∧ 0 < (ack 0).dies.toNat ∧ 7 < (ack 0).cores.toNat := by decide +kernel

theorem witness_HandshakeRefusalTerminates : start.ses.sstate = .starting ∧ (ack 1).opStatus ≠ 0 := by decide +kernel

theorem witness_ReportsWithoutADieAreIgnored : start.ses.sstate = .starting ∧ timeOk start 0
    ∧ running.ses.sstate = .running
    ∧ running.ses.dies.toNat ≤ (report 2 0 true []).base.chip.toNat := by decide +kernel

/-- A report with a candidate that names a record and one that names none. -/
theorem witness_NonceReportCounts : running.ses.sstate = .running ∧ timeOk running 100
    ∧ unknownCount 0 running (nonces 0 [7, 8]).nonces = 1
    ∧ recordOf 0 ⟨1, 7, 0, false⟩ running = some (record0 1) := by decide +kernel

/-- What VERIFY of that record and candidate answers. -/
theorem witness_NonceReportCounts_verify : ∃ z digest, exec (.verify (.record (record0 1)) ⟨1, 7, 0, false⟩) running
    = .next (running.withResult (.verified z digest)) := ⟨_, _, rfl⟩

theorem witness_ThermalCutoffTerminates : running.ses.sstate = .running ∧ (report 1 0 true []).thermal = true
    ∧ (report 1 0 true []).base.chip.toNat < running.ses.dies.toNat
    ∧ running.ses.die[(report 1 0 true []).base.chip.toNat]? = some (freshDie 3) := by decide +kernel

theorem witness_StatusReportReconcilesSlots : running.ses.sstate = .running
    ∧ (report 0 5 false [0x15, 0, 0, 0]).thermal = false
    ∧ (report 0 5 false [0x15, 0, 0, 0]).base.chip.toNat < running.ses.dies.toNat
    ∧ running.ses.die[(report 0 5 false [0x15, 0, 0, 0]).base.chip.toNat]? = some dieA := by decide +kernel

/-- The report frees the cores 0 and 2, and the other order of them. -/
theorem witness_EveryOrderCanBeDrawn : gives running (.cycleStatusReconcile (report 0 5 false [0x15, 0, 0, 0]))
    (fun t => match t.ses.die[(0 : Byte).toNat]? with
      | some die' => decide (([2, 0] : List Byte).Perm die'.freeActive) && decide (([] : List Byte).Perm die'.freePending)
      | none => false) = true := by decide +kernel

theorem witness_IssueOneRecordsAndSends : running.cfg.wf ∧ running.ses.sstate = .running ∧ timeOk running 100
    ∧ (0 : Byte).toNat < running.ses.dies.toNat ∧ running.ses.die[(0 : Byte).toNat]? = some dieA
    ∧ (2 : Byte).toNat < running.ses.cores.toNat ∧ coreSeqAt dieA 0 = some 65530 ∧ sendsSucceed running
    ∧ gives (mute running) (.send [1]) (fun u => u.result == .raised .transport) = true :=
  ⟨defaultCfg_wf, by decide +kernel⟩

/-- Three slots, core 1 served twice and core 0 not at all; one slot while throttled. Every send succeeds; the first
fails; the last does. -/
theorem witness_IssueAllFillsAndClears : running.cfg.wf ∧ running.ses.sstate = .running ∧ timeOk running 100
    ∧ 68 + running.cfg.jobPad ≤ running.cfg.maxSendSize ∧ running.ses.die[0]? = some dieA
    ∧ (allSlots running.cfg 0 running.ses.die).map Slot.core = [1, 2, 1]
    ∧ (allSlots running.cfg 1 running.ses.die).length = 1
    ∧ (∀ i, i < 3 → running.draws.sends.nth i = true)
    ∧ (mute running).draws.sends.nth 0 = false
    ∧ (∀ i, i < 2 → (failingFrom running 2).draws.sends.nth i = true)
    ∧ (failingFrom running 2).draws.sends.nth 2 = false :=
  ⟨defaultCfg_wf, by decide +kernel⟩

/-- The three states of the statement before meet the invariant. -/
theorem witness_IssueAllFillsAndClears_inv : stateInv running ∧ stateInv (mute running)
    ∧ stateInv (failingFrom running 2) := by
  refine ⟨?_, ?_, ?_⟩ <;> decide +kernel

/-- The last moment that is not due and the first that is; a rate that is defined and one that is not. -/
theorem witness_ReportTickReportsWhenDue : running.ses.sstate = .running ∧ timeOk running 100
    ∧ (∀ t₀ ∈ running.ses.lastReport, t₀ + 2000 ≤ 100) ∧ (∀ t₀ ∈ running.ses.firstGood, 100 ≤ t₀)
    ∧ (let s := running.withSes { running.ses with lastReport := some 100, firstGood := some 100 }
      s.ses.lastReport = some 100 ∧ 2099 < 100 + 2000 ∧ 100 + 2000 ≤ 2100 ∧ s.ses.firstGood = some 100 ∧ 100 < 2100
      ∧ timeOk s 2100) := by decide +kernel

/-- Bytes to feed; bytes a full queue does not take, with a drain that ends the session and one that does not; a token
that ends the session and one that does not; an empty queue in Starting and in Running, with an issuance that succeeds
and one that ends the session. -/
theorem witness_CycleFeedsDrainsAndIssues : running.ses.sstate ≠ .terminated ∧ timeOk running 100
    ∧ gives running (.feed ping) (fun u => u.result == .unit) = true
    ∧ gives (running.withPar { Parser.reset with queue := [.frame (.statusReport (report 0 0 true []))] }) .takeToken
      (fun u => match u.result with
        | .token (some x) => (dispatch x 100 (u.withLastNow (some 100))).ses.sstate == .terminated
        | _ => false) = true
    ∧ gives (running.withPar { Parser.reset with queue := [.garbage [1]] }) .takeToken
      (fun u => match u.result with
        | .token (some x) => (dispatch x 100 (u.withLastNow (some 100))).ses.sstate == .running
        | _ => false) = true
    ∧ gives (bounded running 1) (.feed ping) (fun u => u.result == .unit) = true
    ∧ gives (bounded running 1) (.feed [1, 0xAA, 0, 0, 0, 0, 0, 0, 0xAF]) (fun u => u.result == .stalled [0xAF]
        && (drain 100 (u.withLastNow (some 100))).ses.sstate == .running) = true
    ∧ gives ((bounded running 1).withPar { Parser.reset with queue := [.frame (.statusReport (report 0 0 true []))] })
        (.feed [1, 0xAA]) (fun u => u.result == .stalled [0xAA]
        && (drain 100 (u.withLastNow (some 100))).ses.sstate == .terminated) = true
    ∧ start.waiting = [] ∧ running.waiting = []
    ∧ start.par.queue = [] ∧ start.ses.sstate = .starting ∧ timeOk start 0
    ∧ running.par.queue = [] ∧ running.ses.sstate = .running
    ∧ gives running (.cycleIssueAll 100 0) (fun u => u.ses.sstate == .running) = true
    ∧ gives (mute running) (.cycleIssueAll 100 0) (fun u => u.ses.sstate == .terminated) = true := by decide +kernel

/-- In Running and in Starting. -/
theorem witness_DispatchRunsTheTokensRow : running.ses.sstate ≠ .terminated ∧ running.lastNow = some 100
    ∧ running.ses.sstate = .running ∧ (start.withLastNow (some 0)).ses.sstate ≠ .terminated
    ∧ (start.withLastNow (some 0)).lastNow = some 0 ∧ (start.withLastNow (some 0)).ses.sstate = .starting := by
  decide +kernel

theorem witness_CycleAlwaysCompletes : timeOk ended 100 ∧ timeOk running 100
    ∧ gives running (.cycle 100 0 true (.bytes [])) (fun t => t.ses.sstate == .terminated) = true
    ∧ gives running (.cycle 100 0 false (.bytes [])) (fun t => t.ses.sstate == .running) = true := by decide +kernel

/-- A state with dies, records and free slots, and a step from it that changes them. -/
theorem witness_StepKeepsTheInvariant : stateInv running
    ∧ after running (.cycle 100 0 false (.bytes [])) (fun t => t.ses != running.ses) = true := by decide +kernel

theorem witness_WorkHoldsOneRecordPerCore : stateInv running ∧ dieA ∈ running.ses.die
    ∧ (7, record0 1) ∈ dieA.work := by decide +kernel

/-- Each session state, and SESSION_RESET. -/
theorem witness_SessionOnlyMovesForward :
    after ended (.cycle 100 0 false (.bytes [])) (fun t => t.ses.sstate == .terminated) = true
    ∧ after running (.cycle 100 0 false (.bytes [])) (fun t => t.lastNow == some 100) = true
    ∧ after running .sessionReset (fun t => t.ses.sstate == .starting) = true := by decide +kernel

end Sys2Proof.Tests
end

section
/-! PROOFS. DECODE, DECODE_BASE and DECORATE as steps: one equation for each result that `frameDecode` and `decorate`
can give, and O10 from them. -/

namespace Sys2Proof.Machine

/-! ## The three rows -/

theorem exec_decode (b : Bytes) (s : State) :
    exec (.decode b) s = .next (s.withResult (decodeResult s.cfg b)) := rfl

theorem exec_decodeBase (b : Bytes) (s : State) :
    exec (.decodeBase b) s = .next (s.withResult (decodeBaseResult s.cfg b)) := rfl

/-- DECORATE of a frame a wire frame can carry is not refused. -/
theorem exec_decorate {f : Frame} (h : payloadOk f.data = true) (s : State) :
    exec (.decorate f) s = .next (s.withResult (decorateResult s.cfg f)) := if_pos h

/-! ## The base decode, by its result (40_crc8_codec R111) -/

section
variable {s : State} {b : Bytes}

theorem exec_decodeBase_of_ok {f : Frame} (h : frameDecode s.cfg.crc b = .ok f) :
    exec (.decodeBase b) s = .next (s.withResult (.frame f)) := by
  rw [exec_decodeBase, decodeBaseResult, h]

theorem exec_decodeBase_of_error {e : FramingReason} (h : frameDecode s.cfg.crc b = .error e) :
    exec (.decodeBase b) s = .next (s.withResult (.raised (.framing e))) := by
  rw [exec_decodeBase, decodeBaseResult, h]

theorem exec_decode_of_error {e : FramingReason} (h : frameDecode s.cfg.crc b = .error e) :
    exec (.decode b) s = .next (s.withResult (.raised (.framing e))) := by
  rw [exec_decode, decodeResult, h]

/-- DECODE of bytes that hold a frame is DECORATE of that frame (40_crc8_codec R110): the base decode gives only
frames that DECORATE takes. -/
theorem exec_decode_of_ok {f : Frame} (h : frameDecode s.cfg.crc b = .ok f) :
    exec (.decode b) s = exec (.decorate f) s := by
  obtain ⟨hpayload, -, -⟩ := frameDecode_ok_wire h
  rw [exec_decorate hpayload, exec_decode, decodeResult, h]

end

/-! ## The decoration, by its result (40_crc8_codec R112) -/

theorem exec_decorate_of_ok {s : State} {f : Frame} {v : Variant} (hf : payloadOk f.data = true)
    (h : decorate s.cfg f = .ok v) : exec (.decorate f) s = .next (s.withResult (.variant v)) := by
  rw [exec_decorate hf, decorateResult, h]

theorem exec_decorate_of_error {s : State} {f : Frame} {e : ProtoCode} (hf : payloadOk f.data = true)
    (h : decorate s.cfg f = .error e) :
    exec (.decorate f) s = .next (s.withResult (.raised (.protocol e f))) := by
  rw [exec_decorate hf, decorateResult, h]

/-! ## DECODE is DECORATE of DECODE_BASE -/

/-- Settles O10, by the result of the base decode and then that of the decoration. -/
theorem decodeIsDecorateOfDecodeBase : Obligations.DecodeIsDecorateOfDecodeBase := by
  intro s b
  cases hbase : frameDecode s.cfg.crc b with
  | error e => exact .inl ⟨e, exec_decodeBase_of_error hbase, exec_decode_of_error hbase⟩
  | ok f =>
    refine .inr ⟨f, exec_decodeBase_of_ok hbase, ?_⟩
    obtain ⟨hpayload, -, -⟩ := frameDecode_ok_wire hbase
    rw [exec_decode_of_ok hbase]
    cases hdec : decorate s.cfg f with
    | ok v => exact .inl ⟨v, exec_decorate_of_ok hpayload hdec, exec_decorate_of_ok hpayload hdec⟩
    | error e => exact .inr ⟨e, exec_decorate_of_error hpayload hdec, exec_decorate_of_error hpayload hdec⟩

end Sys2Proof.Machine
end

section
/-! PROOFS. FEED_BYTE in ParsingHeader on frame bytes 1 to 6 as a step: what a FEED_BYTE row does in its own case when
its rule takes the byte, which bytes are header bytes, and O21 from the two. -/

namespace Sys2Proof.Machine

/-! ## A FEED_BYTE row in its own case -/

/-- A row whose rule takes the byte: the parser goes on as the rule says, and the caller is given nothing. -/
theorem feedRow_of_ok {k : FeedCase} {rule : Cfg → Byte → Parser → Fed} {x : Byte} {s : State} {p : Parser}
    (hwait : s.waiting = []) (hcase : feedCase s.cfg x s.par = k) (hrule : rule s.cfg x s.par = .ok p) :
    feedRow k rule x s = .next ((s.withPar p).withResult .unit) := by
  rw [feedRow, if_pos ⟨hwait, hcase⟩, hrule]
  rfl

/-! ## Header bytes before the check byte (41_stream_parser R133) -/

theorem exec_feedByteHeaderBody (x : Byte) (s : State) :
    exec (.feedByteHeaderBody x) s = feedRow .headerBody (fun _ => feedHeaderBody) x s := rfl

/-- In ParsingHeader with fewer than 7 bytes held, a byte of any value, the marker too, is a header byte. -/
theorem feedCase_of_header_short {p : Parser} (hstate : p.pstate = .parsingHeader) (hshort : p.acc.length < 7)
    (c : Cfg) (x : Byte) : feedCase c x p = .headerBody := by
  simp only [feedCase, hstate, if_pos hshort]

/-- Settles O21: the row is in its own case, whatever the byte, and its rule always takes the byte. -/
theorem feedByteHeaderBody : Obligations.FeedByteHeaderBody := by
  intro s x hwait hstate hshort
  have hcase : feedCase s.cfg x s.par = .headerBody := feedCase_of_header_short hstate hshort s.cfg x
  rw [exec_feedByteHeaderBody]
  exact feedRow_of_ok hwait hcase rfl

end Sys2Proof.Machine
end

section
/-! PROOFS. SEQ_LE and SEQ_NEXT as steps: the raw distance of two sequence numbers, the comparator on each side of the
window, the counter's increment as a number, and O31 and O33 from them. -/

namespace Sys2Proof.Machine

/-! ## The comparator on each side of the window (42_seqcmp R160) -/

theorem exec_seqLe (a b : Half) (s : State) : exec (.seqLe a b) s = .next (s.withResult (.bit (seqLe a b))) := rfl

/-- The model's distance, a sum of two truncated differences, is `|a - b|` in the integers. -/
theorem absDiff_eq_natAbs (a b : Half) : absDiff a b = ((a.toNat : Int) - b.toNat).natAbs := by
  rw [absDiff]
  omega

theorem seqLe_of_within {a b : Half} (h : absDiff a b < seqHalf) : seqLe a b = decide (a.toNat ≤ b.toNat) :=
  if_pos h

theorem seqLe_of_beyond {a b : Half} (h : seqHalf ≤ absDiff a b) : seqLe a b = decide (b.toNat < a.toNat) :=
  if_neg (Nat.not_lt.mpr h)

/-- Settles O31, by the side of the window on which the raw distance lies. -/
theorem seqLeFollowsItsRule : Obligations.SeqLeFollowsItsRule := by
  intro s a b
  rw [← absDiff_eq_natAbs, exec_seqLe]
  constructor
  · intro hwithin
    rw [seqLe_of_within hwithin]
  · intro hbeyond
    rw [seqLe_of_beyond hbeyond]

/-! ## The counter after SEQ_NEXT (42_seqcmp R165) -/

/-- SEQ_NEXT of a die that exists. -/
theorem exec_seqNext_of_dieAt {s : State} {d : Byte} {die : DieState} (h : dieAt s d = some die) :
    exec (.seqNext d) s = .next ((s.withDie d (seqAdvanced die)).withResult (.sequence (seqTaken die))) := by
  change execSeqNext d s = _
  rw [execSeqNext, h]
  rfl

/-- The increment of a sequence number is the increment of its value, modulo 65536. -/
theorem half_add_one_eq_ofNat (x : Half) : x + 1 = BitVec.ofNat 16 ((x.toNat + 1) % 65536) := by
  apply BitVec.eq_of_toNat_eq
  rw [BitVec.toNat_add, BitVec.toNat_ofNat, Nat.mod_mod]
  rfl

theorem seqAdvanced_eq (die : DieState) :
    seqAdvanced die = { die with seqNext := BitVec.ofNat 16 ((die.seqNext.toNat + 1) % 65536) } := by
  rw [seqAdvanced, half_add_one_eq_ofNat]

/-- Settles O33: the die exists, and its state after SEQ_NEXT is the one the statement writes out. -/
theorem seqNextPostIncrements : Obligations.SeqNextPostIncrements := by
  intro s d die hd hdie
  have hat : dieAt s d = some die := dieAt_eq_some.mpr ⟨hd, hdie⟩
  rw [exec_seqNext_of_dieAt hat, seqAdvanced_eq]
  rfl

end Sys2Proof.Machine
end

section
/-! PROOFS. CLASSIFY as a step: the classification on each side of the difficulty, and O36 from the two. -/

namespace Sys2Proof.Machine

/-! ## The classification on each side of the difficulty (43_pow_clz R178) -/

theorem exec_classify (z : Nat) (difficulty : Byte) (s : State) :
    exec (.classify z difficulty) s = .next (s.withResult (.bit (classify z difficulty))) := rfl

theorem classify_of_reached {z : Nat} {difficulty : Byte} (h : difficulty.toNat ≤ z) :
    classify z difficulty = true := decide_eq_true h

theorem classify_of_short {z : Nat} {difficulty : Byte} (h : z < difficulty.toNat) :
    classify z difficulty = false := decide_eq_false (Nat.not_le.mpr h)

/-- Settles O36, by the side of the difficulty on which the count lies. -/
theorem classifyComparesTheCount : Obligations.ClassifyComparesTheCount := by
  intro s z w
  rw [exec_classify]
  constructor
  · intro hreached
    rw [classify_of_reached hreached]
  · intro hshort
    rw [classify_of_short hshort]

end Sys2Proof.Machine
end

section
/-! PROOFS. TERMINATE and the two rows that end in it: the end of a terminated cycle, the shutdown frame as SEND's
calls, a refused acknowledgement, a thermal report, and O38, O43, O46 from them. -/

namespace Sys2Proof.Machine

/-! ## The end of a cycle that terminated (44_scheduler R186) -/

/-- A cycle that has just run TERMINATE answers the reason saved. -/
theorem cycleEnds_terminate (r : TermReason) (s : State) :
    cycleEnds (terminate r s) = .next ((terminate r s).withResult (.outcome (.terminated (some r)))) := by
  simp [cycleEnds, outcomeOf, ret]

theorem exec_cycleTerminate_of_live {s : State} (hlive : s.ses.sstate ≠ .terminated) (r : TermReason) :
    exec (.cycleTerminate r) s = .next ((terminate r s).withResult (.outcome (.terminated (some r)))) := by
  change execCycleTerminate r s = _
  rw [execCycleTerminate, if_neg hlive, cycleEnds_terminate]

/-! ## The shutdown frame (44_scheduler R219, 45_transport R231) -/

/-- The opcodes the session sends and reads are known ones (00_scope R6). -/
theorem sessionOpcodes_known {c : Cfg} (h : c.wf) :
    ∀ op ∈ [c.opHash, c.opNonce, c.opStatus, c.opInit, c.opInitAck, c.opShutdown, c.opNotice],
      op ∈ c.knownOpcodes := by
  have hbounds : c.bounds = true := h.1
  simp only [Cfg.bounds, Bool.and_eq_true, List.all_eq_true, decide_eq_true_eq] at hbounds
  obtain ⟨⟨⟨⟨⟨⟨⟨-, hknown⟩, -⟩, -⟩, -⟩, -⟩, -⟩, -⟩ := hbounds
  exact hknown

/-- `tx` of a frame that encodes leaves the state that SEND of its wire bytes leaves, whether a call fails or not. -/
theorem tx_state_eq_sendBytes {op : Byte} {b : FrameBody} {s : State} (hop : op ∈ s.cfg.knownOpcodes)
    (hpayload : payloadOk b.data = true) : (tx op b s).state = (sendBytes (wireBytes s.cfg.crc op b) s).1 := by
  have hencode : encodeBody s.cfg op b = .ok (wireBytes s.cfg.crc op b) := frameEncode_bytes hop hpayload
  rcases tx_cases op b s with ⟨e, he, -⟩ | ⟨w, hw, -, htx⟩ | ⟨w, hw, -, htx⟩
  · simp [hencode] at he
  · obtain rfl := Except.ok.inj (hencode.symm.trans hw)
    rw [htx, Run.state_done]
  · obtain rfl := Except.ok.inj (hencode.symm.trans hw)
    rw [htx, Run.state_raise]

/-- Sends neither read nor write the log. -/
theorem sendChunks_withLog (l : List LogEvent) : ∀ (chs : List Bytes) (s : State),
    sendChunks chs (s.withLog l) = ((sendChunks chs s).1.withLog l, (sendChunks chs s).2)
  | [], _ => rfl
  | ch :: rest, s => by
    have hcall : sendCall ch (s.withLog l) = (sendCall ch s).withLog l := rfl
    simp only [sendChunks, State.withLog_draws, hcall, sendChunks_withLog l rest]
    split <;> rfl

theorem sendBytes_note (b : Bytes) (s : State) (e : LogEvent) :
    (sendBytes b (s.note e)).1 = (sendBytes b s).1.withLog (s.log ++ [e]) :=
  congrArg Prod.fst (sendChunks_withLog _ _ s)

/-- `s` with the session ended for the reason `r`, no shutdown frame sent and nothing logged yet. -/
def State.endedBy (s : State) (r : TermReason) : State :=
  s.withSes { s.ses with sstate := .terminated, termReason := some r }

/-- TERMINATE is SEND of the shutdown frame in the session just ended, and one log event. -/
theorem terminate_eq_sendBytes {s : State} (hwf : s.cfg.wf) (hpayload : payloadOk s.cfg.shutdownFields.data = true)
    (r : TermReason) : terminate r s
      = (sendBytes (wireBytes s.cfg.crc s.cfg.opShutdown s.cfg.shutdownFields) (s.endedBy r)).1.withLog
        (s.log ++ [.terminated r]) := by
  have hop : s.cfg.opShutdown ∈ s.cfg.knownOpcodes := sessionOpcodes_known hwf _ (by simp)
  calc terminate r s
      = (tx s.cfg.opShutdown s.cfg.shutdownFields ((s.endedBy r).note (.terminated r))).state := rfl
    _ = (sendBytes (wireBytes s.cfg.crc s.cfg.opShutdown s.cfg.shutdownFields)
          ((s.endedBy r).note (.terminated r))).1 := tx_state_eq_sendBytes hop hpayload
    _ = _ := sendBytes_note _ _ _

/-- SEND in a session that has ended: its calls and a result, no second termination (60_exceptions R253). -/
theorem exec_send_of_terminated {s : State} (hended : s.ses.sstate = .terminated) (b : Bytes) :
    ∃ res, exec (.send b) s = .next ((sendBytes b s).1.withResult res) := by
  change ∃ res, sendOp b s = _
  rw [sendOp]
  cases (sendBytes b s).2 with
  | true => exact ⟨.unit, rfl⟩
  | false =>
    rcases fatalResult_cases .transport .transport (sendBytes b s).1 with ⟨-, h⟩ | ⟨hlive, -⟩
    · exact ⟨.raised .transport, h⟩
    · rw [sendBytes_ses] at hlive
      exact absurd hended hlive

/-- Settles O38: TERMINATE is SEND of the shutdown frame in the ended session, where SEND itself ends nothing. -/
theorem terminateSavesAndNotifies : Obligations.TerminateSavesAndNotifies := by
  intro s r hwf hpayload hlive
  obtain ⟨res, hsend⟩ := exec_send_of_terminated (s := s.endedBy r) rfl
    (wireBytes s.cfg.crc s.cfg.opShutdown s.cfg.shutdownFields)
  have hcalls := terminate_eq_sendBytes hwf hpayload r
  have hsent := congrArg State.sent hcalls
  have hdraws := congrArg State.draws hcalls
  exact ⟨_, exec_cycleTerminate_of_live hlive r, terminate_ses r s, rfl, terminate_cfg r s, terminate_par r s,
    terminate_calls r s, terminate_waiting r s, terminate_lastNow r s, _, hsend, hsent, hdraws⟩

/-! ## A refused acknowledgement (44_scheduler R196) -/

theorem dispatch_of_starting {s : State} (hstate : s.ses.sstate = .starting) (t : Token) (now : Nat) :
    dispatch t now s = dispatchStarting t s := by
  rw [dispatch, hstate]

theorem initAckStarting_of_refused {ia : InitAck} (hrefused : ia.opStatus ≠ 0) (s : State) :
    initAckStarting ia s = terminate (.fault .initFailed) s := if_neg hrefused

/-- Settles O43: the acknowledgement reaches TERMINATE, which writes no die. -/
theorem handshakeRefusalTerminates : Obligations.HandshakeRefusalTerminates := by
  intro s ia hstate hrefused
  constructor
  · change cycleEnds (dispatch (.frame (.initAck ia)) 0 s) = _
    rw [dispatch_of_starting hstate, dispatchStarting, initAckStarting_of_refused hrefused, cycleEnds_terminate]
  · rw [terminate_ses]

/-! ## A thermal report (44_scheduler R205) -/

theorem dispatch_of_running {s : State} (hstate : s.ses.sstate = .running) (t : Token) (now : Nat) :
    dispatch t now s = dispatchRunning t now s := by
  rw [dispatch, hstate]

/-- A report with the thermal bit, for a die that exists: nothing else of it is read. -/
theorem statusReport_of_thermal {st : StatusReport} {s : State} {die : DieState}
    (hdie : dieAt s st.base.chip = some die) (hthermal : st.thermal = true) :
    statusReport st s = thermalCutoff st.base.chip die s := by
  rw [statusReport, hdie]
  exact if_pos hthermal

/-- Settles O46: the die exists, so the report is the thermal cutoff, which is the mark and TERMINATE. -/
theorem thermalCutoffTerminates : Obligations.ThermalCutoffTerminates := by
  intro s st die hstate hthermal hchip hdie
  have hat : dieAt s st.base.chip = some die := dieAt_eq_some.mpr ⟨hchip, hdie⟩
  change cycleEnds (dispatch (.frame (.statusReport st)) 0 s) = _
  rw [dispatch_of_running hstate, dispatchRunning, statusReport_of_thermal hat hthermal, thermalCutoff,
    cycleEnds_terminate]
  rfl

end Sys2Proof.Machine
end

section
/-! PROOFS. Encodings: which row a well-formed instruction is, what the decoder takes and gives, and O3, O4, O5 from
them. -/

namespace Sys2Proof

/-! ## The row of an opcode -/

/-- The payload of a well-formed frame row fits a frame. -/
theorem bodyOk_of_wf {i : Instr} {d : Dir} {op : Byte} {b : FrameBody} (hwf : i.wf = true)
    (hparts : i.frameParts = some (d, op, b)) : bodyOk b = true := by
  cases i with
  | frameUnknown d' op' b' =>
    obtain ⟨-, -, rfl⟩ : d' = d ∧ op' = op ∧ b' = b := by simpa [Instr.frameParts] using hparts
    exact (Bool.and_eq_true _ _ ▸ hwf).2
  | _ =>
    simp only [Instr.frameParts, Option.some.injEq, Prod.mk.injEq, reduceCtorEq] at hparts
    try exact hparts.2.2 ▸ hwf

/-- The row of an opcode is never the generic row FRAME. -/
theorem frameInstr_ne_frame (d : Dir) (op : Byte) (b : FrameBody) (d' : Dir) (op' : Byte) (b' : FrameBody) :
    frameInstr d op b ≠ .frame d' op' b' := by
  unfold frameInstr
  split <;> exact fun h => Instr.noConfusion h

theorem frameInstr_of_not_table {op : Byte} (h : op ∉ tableOpcodes) (d : Dir) (b : FrameBody) :
    frameInstr d op b = .frameUnknown d op b := by
  have hne : ∀ n ∈ tableOpcodes.map BitVec.toNat, op.toNat ≠ n := by
    intro n hn
    obtain ⟨o, ho, rfl⟩ := List.mem_map.mp hn
    exact fun e => h (BitVec.eq_of_toNat_eq e ▸ ho)
  unfold frameInstr
  split <;> first | rfl | exact absurd ‹_› (hne _ (by decide))

/-- A well-formed frame row but FRAME is the row its opcode names. -/
theorem frameInstr_of_frameParts {i : Instr} {d : Dir} {op : Byte} {b : FrameBody} (hwf : i.wf = true)
    (hgeneric : ∀ d' op' b', i ≠ .frame d' op' b') (hparts : i.frameParts = some (d, op, b)) :
    frameInstr d op b = i := by
  cases i with
  | frame d' op' b' => exact absurd rfl (hgeneric d' op' b')
  | frameUnknown d' op' b' =>
    obtain ⟨rfl, rfl, rfl⟩ : d' = d ∧ op' = op ∧ b' = b := by simpa [Instr.frameParts] using hparts
    have hunknown : op' ∉ tableOpcodes := by
      simp only [Instr.wf, Bool.and_eq_true, Bool.not_eq_true', ← Bool.not_eq_true, List.contains_iff_mem] at hwf
      exact hwf.1
    exact frameInstr_of_not_table hunknown d' b'
  | _ =>
    simp only [Instr.frameParts, Option.some.injEq, Prod.mk.injEq, reduceCtorEq] at hparts
    try (obtain ⟨rfl, rfl, rfl⟩ := hparts; rfl)

/-! ## The decoder and the encoder -/

theorem encode_of_frameParts {i : Instr} {d : Dir} {op : Byte} {b : FrameBody}
    (hparts : i.frameParts = some (d, op, b)) (k : Crc8Fn) : encode k i = some (wireBytes k op b) := by
  rw [encode, hparts]

theorem encode_of_operation {i : Instr} (hparts : i.frameParts = none) (k : Crc8Fn) : encode k i = none := by
  rw [encode, hparts]

/-- The wire form of a frame decodes to the row its opcode names, received. -/
theorem decode_wireBytes (k : Crc8Fn) (op : Byte) {b : FrameBody} (h : payloadOk b.data = true) :
    decode k (wireBytes k op b) = .ok (frameInstr .rx op b) := by
  rw [decode, frameDecode_wireBytes k op h]

/-- What the decoder accepts: the wire form of a frame whose payload fits; it gives the row of its opcode. -/
theorem decode_ok {k : Crc8Fn} {w : Bytes} {i : Instr} (h : decode k w = .ok i) :
    ∃ (op : Byte) (b : FrameBody), payloadOk b.data = true ∧ w = wireBytes k op b ∧ i = frameInstr .rx op b := by
  unfold decode at h
  cases hbase : frameDecode k w with
  | error e => simp [hbase] at h
  | ok f =>
    obtain ⟨hpayload, -, hwire⟩ := frameDecode_ok_wire hbase
    simp only [hbase, Except.ok.injEq] at h
    exact ⟨f.opcode, Machine.bodyOf f, hpayload, hwire, h.symm⟩

end Sys2Proof

namespace Sys2Proof.Machine

/-! ## The obligations -/

/-- Settles O3: the instruction decoded is the row of the opcode, which a well-formed row but FRAME itself is. -/
theorem decodeOfEncodeIsTheInstruction : Obligations.DecodeOfEncodeIsTheInstruction := by
  intro k i hwf
  refine ⟨fun d op b hparts => ?_, fun hparts => encode_of_operation hparts k⟩
  have hbody : bodyOk b = true := bodyOk_of_wf hwf hparts
  have hrow : (frameInstr .rx op b).frameParts = some (.rx, op, b) := frameInstr_frameParts _ _ _
  have hencode : encode k i = some (wireBytes k op b) := encode_of_frameParts hparts k
  refine ⟨frameInstr .rx op b, hrow, frameInstr_wf .rx op hbody, frameInstr_ne_frame .rx op b, ?_,
    ⟨_, hencode, decode_wireBytes k op hbody⟩, ?_⟩
  · rw [hencode, encode_of_frameParts hrow k]
  · rintro rfl hgeneric
    exact frameInstr_of_frameParts hwf hgeneric hparts

/-- Settles O4: what the decoder accepts is the wire form of the row it gives. -/
theorem encodeOfDecodeIsTheWord : Obligations.EncodeOfDecodeIsTheWord := by
  intro k w i h
  obtain ⟨op, b, hpayload, rfl, rfl⟩ := decode_ok h
  exact ⟨frameInstr_wf .rx op hpayload, encode_of_frameParts (frameInstr_frameParts .rx op b) k⟩

/-- Settles O5: each word is the wire form of its frame, its check byte evaluated. -/
theorem decodeGivesTheSpecsWords : Obligations.DecodeGivesTheSpecsWords := by
  have word : ∀ {w : Bytes} (op : Byte) (b : FrameBody), payloadOk b.data = true → wireBytes defaultCrc op b = w →
      decode defaultCrc w = .ok (frameInstr .rx op b) := by
    rintro _ op b hpayload rfl
    exact decode_wireBytes defaultCrc op hpayload
  refine ⟨?_, ?_, ?_, ?_, ?_⟩
  · exact word 0x8C { chip := 1, core := 2, hdata := 0x1234, data := [0xDE, 0xAD, 0xBE, 0xEF] } rfl
      (by decide +kernel)
  · exact word 0x80 {} rfl (by decide +kernel)
  · exact word 0x85 {} rfl (by decide +kernel)
  · exact word 0x00 {} rfl (by decide +kernel)
  · exact word 0x09 { core := 3, hdata := 5, data := List.replicate 60 0 } (by decide +kernel) (by decide +kernel)

end Sys2Proof.Machine
end

section
/-! PROOFS. CRC8, ENCODE and DECODE_BASE as steps: the checks of each, in order, and O6 to O9 and O15 from them. -/

namespace Sys2Proof

/-! ## The checks of ENCODE (40_crc8_codec R105) -/

section
variable {c : Cfg} {op chip core hdata : Int} {data : Bytes}

theorem frameEncode_of_unknown (h : ∀ o ∈ c.knownOpcodes, (o.toNat : Int) ≠ op) :
    frameEncode c op chip core hdata data = .error .badOpcode :=
  if_pos fun ⟨o, ho, e⟩ => h o ho e

/-- With a known opcode the first check is passed. -/
theorem frameEncode_of_known {o : Byte} (ho : o ∈ c.knownOpcodes) :
    ¬ ¬ ∃ o' ∈ c.knownOpcodes, (o'.toNat : Int) = (o.toNat : Int) := not_not.mpr ⟨o, ho, rfl⟩

/-- The value of a byte passes the checks of a byte field. -/
theorem byte_in_range (b : Byte) : ¬ ((b.toNat : Int) < 0 ∨ 255 < (b.toNat : Int)) := by
  have := b.isLt
  omega

theorem half_in_range (h : Half) : ¬ ((h.toNat : Int) < 0 ∨ 65535 < (h.toNat : Int)) := by
  have := h.isLt
  omega

variable {o : Byte} (ho : o ∈ c.knownOpcodes) (ch co : Byte) (hd : Half)
include ho

theorem frameEncode_of_badChip (h : chip < 0 ∨ 255 < chip) :
    frameEncode c o.toNat chip core hdata data = .error .badChip := by
  rw [frameEncode, if_neg (frameEncode_of_known ho), if_pos h]

theorem frameEncode_of_badCore (h : core < 0 ∨ 255 < core) :
    frameEncode c o.toNat ch.toNat core hdata data = .error .badCore := by
  rw [frameEncode, if_neg (frameEncode_of_known ho), if_neg (byte_in_range ch), if_pos h]

theorem frameEncode_of_badHdata (h : hdata < 0 ∨ 65535 < hdata) :
    frameEncode c o.toNat ch.toNat co.toNat hdata data = .error .badHdata := by
  rw [frameEncode, if_neg (frameEncode_of_known ho), if_neg (byte_in_range ch), if_neg (byte_in_range co), if_pos h]

theorem frameEncode_of_badDataAlign (h : data.length % 4 ≠ 0) :
    frameEncode c o.toNat ch.toNat co.toNat hd.toNat data = .error .badDataAlign := by
  rw [frameEncode, if_neg (frameEncode_of_known ho), if_neg (byte_in_range ch), if_neg (byte_in_range co),
    if_neg (half_in_range hd), if_pos h]

theorem frameEncode_of_badDataLen (h4 : data.length % 4 = 0) (h : 1020 < data.length) :
    frameEncode c o.toNat ch.toNat co.toNat hd.toNat data = .error .badDataLen := by
  rw [frameEncode, if_neg (frameEncode_of_known ho), if_neg (byte_in_range ch), if_neg (byte_in_range co),
    if_neg (half_in_range hd), if_neg (not_not.mpr h4), if_pos h]

end

/-- A payload whose length is four times a byte fits, and the byte is its length field. -/
theorem payloadOk_of_lengthByte {data : Bytes} {l : Byte} (h : data.length = 4 * l.toNat) :
    payloadOk data = true ∧ lengthField data = l := by
  have hl := l.isLt
  have hpayload : payloadOk data = true := (payloadOk_iff data).mpr (by omega)
  have hfield := lengthField_toNat hpayload
  exact ⟨hpayload, BitVec.eq_of_toNat_eq (by omega)⟩

/-! ## The checks of DECODE_BASE (40_crc8_codec R111) -/

/-- A buffer of eight bytes or more: the marker, the check byte and the length are tested in this order. -/
theorem frameDecode_eight (k : Crc8Fn) (m o c r lo hi l x : Byte) (data : Bytes) :
    frameDecode k ([m, o, c, r, lo, hi, l, x] ++ data) =
      if m ≠ 0xAA then .error .badMarker
      else if crc8 k [o, c, r, lo, hi, l] ≠ x then .error .badCrc
      else if data.length ≠ 4 * l.toNat then .error .badLength
      else .ok { opcode := o, chip := c, core := r, hdata := hi ++ lo, data := data, crc8 := x } := by
  have hlong : ¬ ([m, o, c, r, lo, hi, l, x] ++ data).length < 8 := by simp
  have hlen : ([m, o, c, r, lo, hi, l, x] ++ data).length ≠ 8 + 4 * l.toNat ↔ data.length ≠ 4 * l.toNat := by
    rw [List.length_append, List.length_cons, List.length_cons, List.length_cons, List.length_cons, List.length_cons,
      List.length_cons, List.length_cons, List.length_cons, List.length_nil]
    omega
  rw [frameDecode, if_neg hlong]
  exact if_congr Iff.rfl rfl (if_congr Iff.rfl rfl (if_congr hlen rfl rfl))

end Sys2Proof

namespace Sys2Proof.Machine

/-! ## CRC8 and ENCODE as steps -/

theorem exec_crc8 (h : Header) (s : State) :
    exec (.crc8 h) s = .next (s.withResult (.byte (crc8 s.cfg.crc (headerBytes h)))) := rfl

/-- Settles O6: the bytes under the check are the header's six, in wire order; the two values are evaluated. -/
theorem crc8GivesTheCheckByte : Obligations.Crc8GivesTheCheckByte :=
  ⟨fun s h => exec_crc8 h s, by decide +kernel, by decide +kernel⟩

theorem exec_encode (op chip core hdata : Int) (data : Bytes) (s : State) :
    exec (.encode op chip core hdata data) s = .next (s.withResult (encodeResult s.cfg op chip core hdata data)) := rfl

section
variable {s : State} {op chip core hdata : Int} {data : Bytes}

theorem exec_encode_of_error {e : ValidationReason} (h : frameEncode s.cfg op chip core hdata data = .error e) :
    exec (.encode op chip core hdata data) s = .next (s.withResult (.raised (.validation e))) := by
  rw [exec_encode]
  unfold encodeResult
  rw [h]

theorem exec_encode_of_ok {w : Bytes} (h : frameEncode s.cfg op chip core hdata data = .ok w) :
    exec (.encode op chip core hdata data) s = .next (s.withResult (.bytes w)) := by
  rw [exec_encode]
  unfold encodeResult
  rw [h]

/-- ENCODE gives bytes only where its checks are passed. -/
theorem frameEncode_of_exec {w : Bytes}
    (h : exec (.encode op chip core hdata data) s = .next (s.withResult (.bytes w))) :
    frameEncode s.cfg op chip core hdata data = .ok w := by
  cases hencode : frameEncode s.cfg op chip core hdata data with
  | error e =>
    rw [exec_encode_of_error hencode] at h
    simpa using congrArg State.result (Host.Outcome.next.inj h)
  | ok w' =>
    rw [exec_encode_of_ok hencode] at h
    simpa using congrArg State.result (Host.Outcome.next.inj h)

end

/-- Settles O8, by the first check that fails. -/
theorem encodeFollowsItsRule : Obligations.EncodeFollowsItsRule := by
  intro s op chip core hdata data
  refine ⟨fun h => exec_encode_of_error (frameEncode_of_unknown h), ?_⟩
  rintro o ho rfl
  refine ⟨fun h => exec_encode_of_error (frameEncode_of_badChip ho h), ?_⟩
  rintro ch rfl
  refine ⟨fun h => exec_encode_of_error (frameEncode_of_badCore ho ch h), ?_⟩
  rintro co rfl
  refine ⟨fun h => exec_encode_of_error (frameEncode_of_badHdata ho ch co h), ?_⟩
  rintro hd rfl
  refine ⟨fun h => exec_encode_of_error (frameEncode_of_badDataAlign ho ch co hd h),
    fun h4 h => exec_encode_of_error (frameEncode_of_badDataLen ho ch co hd h4 h), fun l hlen => ?_⟩
  obtain ⟨hpayload, hfield⟩ := payloadOk_of_lengthByte hlen
  have hwire := frameEncode_bytes ho (b := { chip := ch, core := co, hdata := hd, data := data }) hpayload
  rw [exec_encode_of_ok hwire, wireBytes_eq]
  simp only [coveredBytes, toLe16, hfield]
  rfl

/-! ## DECODE_BASE as a step -/

/-- Settles O9, by the first check that fails. -/
theorem decodeBaseFollowsItsRule : Obligations.DecodeBaseFollowsItsRule := by
  intro s b
  refine ⟨fun hshort => exec_decodeBase_of_error (if_pos hshort), ?_⟩
  rintro m o c r lo hi l x data rfl
  refine ⟨fun hm => exec_decodeBase_of_error ?_, fun hm hcrc => exec_decodeBase_of_error ?_,
    fun hm hcrc hlen => exec_decodeBase_of_error ?_, fun hm hcrc hlen => exec_decodeBase_of_ok ?_⟩
  · rw [frameDecode_eight, if_pos hm]
  · rw [frameDecode_eight, if_neg (not_not.mpr hm), if_pos hcrc]
  · rw [frameDecode_eight, if_neg (not_not.mpr hm), if_neg (not_not.mpr hcrc), if_pos hlen]
  · rw [frameDecode_eight, if_neg (not_not.mpr hm), if_neg (not_not.mpr hcrc), if_neg (not_not.mpr hlen)]

/-- DECODE_BASE gives a frame only where its checks are passed. -/
theorem frameDecode_of_exec {s : State} {b : Bytes} {f : Frame}
    (h : exec (.decodeBase b) s = .next (s.withResult (.frame f))) : frameDecode s.cfg.crc b = .ok f := by
  cases hbase : frameDecode s.cfg.crc b with
  | error e =>
    rw [exec_decodeBase_of_error hbase] at h
    simpa using congrArg State.result (Host.Outcome.next.inj h)
  | ok f' =>
    rw [exec_decodeBase_of_ok hbase] at h
    simpa using congrArg State.result (Host.Outcome.next.inj h)

/-! ## One bit of the header flipped (40_crc8_codec R102) -/

/-- A byte with one bit flipped is another byte. -/
theorem flip_ne (x : Byte) {j : Nat} (hj : j < 8) : x ^^^ BitVec.ofNat 8 (2 ^ j) ≠ x := by
  have hbit : ∀ j < 8, BitVec.ofNat 8 (2 ^ j) ≠ 0 := by decide
  intro e
  apply hbit j hj
  calc BitVec.ofNat 8 (2 ^ j) = x ^^^ (x ^^^ BitVec.ofNat 8 (2 ^ j)) := by
        rw [← BitVec.xor_assoc, BitVec.xor_self, BitVec.zero_xor]
    _ = 0 := by rw [e, BitVec.xor_self]; rfl

/-- A buffer with the marker in front whose check byte does not match is refused for that, whatever its length. -/
theorem frameDecode_badCrc {k : Crc8Fn} {o c r lo hi l x : Byte} {data : Bytes}
    (h : crc8 k [o, c, r, lo, hi, l] ≠ x) :
    frameDecode k ([marker, o, c, r, lo, hi, l, x] ++ data) = .error .badCrc := by
  have hm : ¬ marker ≠ 0xAA := not_not.mpr rfl
  rw [frameDecode_eight, if_neg hm, if_pos h]

/-- The eight header bytes with one bit of byte `i` from 1 to 7 flipped do not pass the check of a function that
detects single-bit errors. -/
theorem frameDecode_flip {k : Crc8Fn} (hk : k.detects) {b : Bytes} {f : Frame} (h : frameDecode k b = .ok f)
    {i j : Nat} (h1 : 1 ≤ i) (h7 : i ≤ 7) (hj : j < 8) :
    frameDecode k (b.set i (byteAt b i ^^^ BitVec.ofNat 8 (2 ^ j))) = .error .badCrc := by
  obtain ⟨hlen, hm, hcrc, -, -⟩ := frameDecode_ok h
  obtain ⟨m, o, c, r, lo, hi, l, x, data, rfl⟩ := eight_bytes hlen
  obtain rfl : m = marker := hm
  have hcrc : crc8 k [o, c, r, lo, hi, l] = x := hcrc
  have hcovered : ∀ n < 6, crc8 k ([o, c, r, lo, hi, l].set n
      (byteAt [o, c, r, lo, hi, l] n ^^^ BitVec.ofNat 8 (2 ^ j))) ≠ x :=
    fun n hn => hcrc ▸ hk [o, c, r, lo, hi, l] n j rfl hn hj
  interval_cases i
  · exact frameDecode_badCrc (hcovered 0 (by decide))
  · exact frameDecode_badCrc (hcovered 1 (by decide))
  · exact frameDecode_badCrc (hcovered 2 (by decide))
  · exact frameDecode_badCrc (hcovered 3 (by decide))
  · exact frameDecode_badCrc (hcovered 4 (by decide))
  · exact frameDecode_badCrc (hcovered 5 (by decide))
  · exact frameDecode_badCrc (hcrc ▸ (flip_ne x hj).symm)

/-- Settles O7: the flipped buffer keeps its marker and no longer matches its check byte. -/
theorem headerBitFlipIsDetected : Obligations.HeaderBitFlipIsDetected := by
  intro s b f i j hwf h h1 h7 hj
  exact exec_decodeBase_of_error (frameDecode_flip hwf.2 (frameDecode_of_exec h) h1 h7 hj)

/-! ## The round trip (40_crc8_codec section 4) -/

/-- A variant that DECODE gives carries the frame of its base decode. -/
theorem variantBase_of_exec_decode {s : State} {w : Bytes} {f : Frame} {v : Variant}
    (hbase : frameDecode s.cfg.crc w = .ok f)
    (h : exec (.decode w) s = .next (s.withResult (.variant v))) : variantBase v = f := by
  obtain ⟨hpayload, -, -⟩ := frameDecode_ok_wire hbase
  rw [exec_decode_of_ok hbase] at h
  cases hdec : decorate s.cfg f with
  | ok v' =>
    rw [exec_decorate_of_ok hpayload hdec] at h
    obtain rfl : v' = v := by simpa using congrArg State.result (Host.Outcome.next.inj h)
    exact decorate_base hdec
  | error e =>
    rw [exec_decorate_of_error hpayload hdec] at h
    simpa using congrArg State.result (Host.Outcome.next.inj h)

/-- Settles O15: both operations are about the wire form of one frame. -/
theorem encodeDecodeRoundTrip : Obligations.EncodeDecodeRoundTrip := by
  constructor
  · intro s op chip core hdata data w h
    obtain ⟨o, b, -, rfl, rfl, rfl, rfl, rfl, hpayload, rfl⟩ := frameEncode_ok (frameEncode_of_exec h)
    have hbase := frameDecode_wireBytes s.cfg.crc o hpayload
    exact ⟨_, exec_decodeBase_of_ok hbase, rfl, rfl, rfl, rfl, rfl, fun v hv => variantBase_of_exec_decode hbase hv⟩
  · intro s b f h hknown
    obtain ⟨hpayload, -, hwire⟩ := frameDecode_ok_wire (frameDecode_of_exec h)
    have hencode : frameEncode s.cfg f.opcode.toNat f.chip.toNat f.core.toNat f.hdata.toNat f.data = .ok b := by
      conv_rhs => rw [hwire]
      exact frameEncode_bytes hknown (b := bodyOf f) hpayload
    exact exec_encode_of_ok hencode

end Sys2Proof.Machine
end

section
/-! PROOFS. DECORATE: which decoration an opcode selects, the bytes and bits of each layout, and O11 to O14 from them. -/

namespace Sys2Proof

/-! ## Bytes of a part of a payload -/

/-- A byte that lies in the payload. -/
theorem getElem?_eq_byteAt {b : Bytes} {i : Nat} (h : i < b.length) : b[i]? = some (byteAt b i) := by
  simp [byteAt, h]

theorem byteAt_drop (b : Bytes) (n i : Nat) : byteAt (b.drop n) i = byteAt b (n + i) := by
  simp [byteAt, List.getD_eq_getElem?_getD]

theorem byteAt_take {b : Bytes} {n i : Nat} (h : i < n) : byteAt (b.take n) i = byteAt b i := by
  simp [byteAt, List.getD_eq_getElem?_getD, h]

/-- A byte of one record of eight bytes. -/
theorem byteAt_record (b : Bytes) (n : Nat) {i : Nat} (h : i < 8) :
    byteAt ((b.drop n).take 8) i = byteAt b (n + i) := by
  rw [byteAt_take h, byteAt_drop]

theorem le16_record (b : Bytes) (n : Nat) {i : Nat} (h : i + 1 < 8) :
    le16 ((b.drop n).take 8) i = le16 b (n + i) := by
  rw [le16, byteAt_record b n h, byteAt_record b n (by omega), le16, Nat.add_assoc]

theorem le32_record (b : Bytes) (n : Nat) : le32 ((b.drop n).take 8) 0 = le32 b n := by
  simp only [le32, byteAt_record b n (show 0 < 8 by decide), byteAt_record b n (show 0 + 1 < 8 by decide),
    byteAt_record b n (show 0 + 2 < 8 by decide), byteAt_record b n (show 0 + 3 < 8 by decide)]
  rfl

/-- The low 12 bits of a half-word, by the mask of 30_encoding R72 and by their positions. -/
theorem and_mask_setWidth (w : Half) : (w &&& 0x0FFF).setWidth 12 = w.extractLsb' 0 12 := by
  apply BitVec.eq_of_getLsbD_eq
  intro i hi
  have hmask : ∀ i < 12, (0x0FFF : Half).getLsbD i = true := by decide
  rw [BitVec.getLsbD_setWidth, BitVec.getLsbD_and, hmask i hi, BitVec.getLsbD_extractLsb', Nat.zero_add,
    Bool.and_true]

end Sys2Proof

namespace Sys2Proof.Machine

/-! ## Which decoration an opcode selects (40_crc8_codec R112) -/

/-- The four decorated opcodes are distinct (00_scope R6). -/
theorem decoratedOpcodes_nodup {c : Cfg} (h : c.wf) : [c.opNonce, c.opStatus, c.opInitAck, c.opNotice].Nodup := by
  have hbounds : c.bounds = true := h.1
  simp only [Cfg.bounds, Bool.and_eq_true, decide_eq_true_eq] at hbounds
  obtain ⟨⟨⟨⟨⟨⟨⟨hnodup, -⟩, -⟩, -⟩, -⟩, -⟩, -⟩, -⟩ := hbounds
  exact hnodup

section
variable {c : Cfg} {f : Frame}

theorem decorate_of_nonce (h : f.opcode = c.opNonce) : decorate c f = decorateNonce c f := if_pos h

theorem decorate_of_status (hwf : c.wf) (h : f.opcode = c.opStatus) : decorate c f = decorateStatus c f := by
  have hnodup := decoratedOpcodes_nodup hwf
  simp only [List.nodup_cons, List.mem_cons, not_or] at hnodup
  obtain ⟨⟨hns, -⟩, -⟩ := hnodup
  rw [decorate, if_neg (h ▸ Ne.symm hns), if_pos h]

theorem decorate_of_initAck (hwf : c.wf) (h : f.opcode = c.opInitAck) : decorate c f = decorateInitAck c f := by
  have hnodup := decoratedOpcodes_nodup hwf
  simp only [List.nodup_cons, List.mem_cons, not_or] at hnodup
  obtain ⟨⟨-, hni, -⟩, ⟨hsi, -⟩, -⟩ := hnodup
  rw [decorate, if_neg (h ▸ Ne.symm hni), if_neg (h ▸ Ne.symm hsi), if_pos h]

theorem decorate_of_notice (hwf : c.wf) (h : f.opcode = c.opNotice) : decorate c f = decorateNotice f := by
  have hnodup := decoratedOpcodes_nodup hwf
  simp only [List.nodup_cons, List.mem_cons, not_or] at hnodup
  obtain ⟨⟨-, -, hnn, -⟩, ⟨-, hsn, -⟩, ⟨hin, -⟩, -⟩ := hnodup
  rw [decorate, if_neg (h ▸ Ne.symm hnn), if_neg (h ▸ Ne.symm hsn), if_neg (h ▸ Ne.symm hin), if_pos h]

theorem decorate_of_other (hn : f.opcode ≠ c.opNonce) (hs : f.opcode ≠ c.opStatus) (hi : f.opcode ≠ c.opInitAck)
    (ht : f.opcode ≠ c.opNotice) : decorate c f = .ok (.generic f) := by
  rw [decorate, if_neg hn, if_neg hs, if_neg hi, if_neg ht]

end

/-! ## The nonce report (40_crc8_codec R113, 30_encoding R72) -/

/-- Settles O11: record `k` is read at `8 * k`, which is position 0 of the `k`-th eight bytes. -/
theorem nonceReportDecoration : Obligations.NonceReportDecoration := by
  intro s f hpayload hop
  have hdec : decorate s.cfg f = decorateNonce s.cfg f := decorate_of_nonce hop
  constructor
  · intro hlen
    exact exec_decorate_of_error hpayload (hdec.trans (if_pos hlen))
  · intro hlen
    refine ⟨candidates s.cfg f.data, exec_decorate_of_ok hpayload (hdec.trans (if_neg (not_not.mpr hlen))),
      by simp [candidates], fun k hk => ⟨candidateAt s.cfg f.data k, by simp [candidates, hk], ?_⟩⟩
    refine ⟨(le32_record _ _).symm, (le16_record _ _ (by decide)).symm, fun hmask => ?_, ?_⟩
    · rw [le16_record _ _ (by decide), candidateAt, hmask]
      exact and_mask_setWidth _
    · rw [le16_record _ _ (by decide), candidateAt]

/-! ## The status report (40_crc8_codec R114, 30_encoding R74, R75) -/

/-- The fields of the layout lie inside what they are read from (log 32). -/
theorem layoutOk_iff (c : Cfg) : c.layoutOk = true ↔
    c.stThermalBit < 8 ∧ c.stTachLo + c.stTachW ≤ 8 ∧ c.monTempOff + 2 ≤ c.monLen ∧ c.monVOff + 6 ≤ c.monLen
    ∧ c.iaFwOff + 2 ≤ c.iaFixedLen ∧ c.iaHwOff + 2 ≤ c.iaFixedLen ∧ c.iaSerialOff + 4 ≤ c.iaFixedLen
    ∧ c.iaStatusOff + 1 ≤ c.iaFixedLen ∧ c.ntSearchBit < 16 ∧ payloadOk c.initFields.data = true
    ∧ payloadOk c.shutdownFields.data = true := by
  simp only [Cfg.layoutOk, Bool.and_eq_true, decide_eq_true_eq, and_assoc]

/-- The tachometer's bits are those of the core address from its lowest bit on, as many as it is wide. -/
theorem tachOf_getLsbD (c : Cfg) (core : Byte) {k : Nat} (hk : k < 8) :
    (tachOf c core).getLsbD k = (decide (k < c.stTachW) && core.getLsbD (c.stTachLo + k)) := by
  rw [tachOf, BitVec.getLsbD_ofNat, Nat.testBit_mod_two_pow, Nat.testBit_div_two_pow, Nat.add_comm k]
  simp [hk, BitVec.getLsbD]

/-- The six rails are six bytes of the payload. -/
theorem monitorOf_voltage {c : Cfg} {data : Bytes} (h : c.monVOff + 6 ≤ data.length) {k : Nat} (hk : k < 6) :
    (monitorOf c data).voltage.toList[k]? = data[c.monVOff + k]? := by
  rw [getElem?_eq_byteAt (show c.monVOff + k < data.length by omega)]
  interval_cases k <;> rfl

/-- Settles O12. -/
theorem statusReportDecoration : Obligations.StatusReportDecoration := by
  intro s f hwf hlayout hpayload hop
  obtain ⟨-, -, -, hrails, -⟩ := (layoutOk_iff s.cfg).mp hlayout
  have hdec : decorate s.cfg f = decorateStatus s.cfg f := decorate_of_status hwf hop
  constructor
  · intro hshort
    exact exec_decorate_of_error hpayload (hdec.trans (if_pos hshort))
  · intro hlong
    exact ⟨tachOf s.cfg f.core, monitorOf s.cfg f.data,
      exec_decorate_of_ok hpayload (hdec.trans (if_neg (Nat.not_lt.mpr hlong))),
      fun k hk => tachOf_getLsbD s.cfg f.core hk, rfl,
      fun k hk => monitorOf_voltage (hrails.trans hlong) hk⟩

/-! ## The acknowledgement (40_crc8_codec R115, 30_encoding R77) -/

/-- Settles O13: the status byte lies in the fixed part, so it is a byte of the payload. -/
theorem initAckDecoration : Obligations.InitAckDecoration := by
  intro s f hwf hlayout hpayload hop
  obtain ⟨-, -, -, -, -, -, -, hstatus, -⟩ := (layoutOk_iff s.cfg).mp hlayout
  have hdec : decorate s.cfg f = decorateInitAck s.cfg f := decorate_of_initAck hwf hop
  constructor
  · intro hshort
    exact exec_decorate_of_error hpayload (hdec.trans (if_pos hshort))
  · intro hlong
    exact ⟨byteAt f.data s.cfg.iaStatusOff, getElem?_eq_byteAt (by omega),
      exec_decorate_of_ok hpayload (hdec.trans (if_neg (Nat.not_lt.mpr hlong)))⟩

/-! ## The notice (40_crc8_codec R116, 30_encoding R79) -/

section
variable {f : Frame}

theorem decorateNotice_of_empty (h : f.data = []) :
    decorateNotice f = .ok (.notice { base := f, code := f.hdata, extra := none, message := none }) := by
  rw [decorateNotice, if_pos (by rw [h]; rfl)]

theorem decorateNotice_of_extra (h : f.data.length = 4) : decorateNotice f = .ok (.notice
    { base := f, code := f.hdata, extra := some (le32 f.data 0), message := none }) := by
  rw [decorateNotice, if_neg (by omega), if_pos h]

theorem decorateNotice_of_noNul (hlen : 4 < f.data.length) (h : ∀ x ∈ f.data.drop 4, x ≠ 0) :
    decorateNotice f = .error .noticeNoNul := by
  rw [decorateNotice, if_neg (by omega), if_neg (by omega), if_neg fun hmem => h 0 hmem rfl]

/-- The text ends before the first NUL. -/
theorem takeWhile_before_nul {text rest : Bytes} (h : ∀ x ∈ text, x ≠ 0) :
    (text ++ 0 :: rest).takeWhile (fun x => x != 0) = text := by
  rw [List.takeWhile_append_of_pos (fun x hx => bne_iff_ne.mpr (h x hx))]
  simp

theorem decorateNotice_of_text {text rest : Bytes} (hdrop : f.data.drop 4 = text ++ 0 :: rest)
    (h : ∀ x ∈ text, x ≠ 0) : decorateNotice f = .ok (.notice
    { base := f, code := f.hdata, extra := some (le32 f.data 0), message := some text }) := by
  have hlen : 4 < f.data.length := by
    have := congrArg List.length hdrop
    simp only [List.length_drop, List.length_append, List.length_cons] at this
    omega
  have hnul : (0 : Byte) ∈ f.data.drop 4 := by simp [hdrop]
  rw [decorateNotice, if_neg (by omega), if_neg (by omega), if_pos hnul, hdrop, takeWhile_before_nul h]

end

/-- Settles O14. -/
theorem noticeAndGenericDecoration : Obligations.NoticeAndGenericDecoration := by
  constructor
  · intro s f hpayload hn hs hi ht
    exact exec_decorate_of_ok hpayload (decorate_of_other hn hs hi ht)
  · intro s f hwf hpayload hop
    have hdec : decorate s.cfg f = decorateNotice f := decorate_of_notice hwf hop
    exact ⟨fun h => exec_decorate_of_ok hpayload (hdec.trans (decorateNotice_of_empty h)),
      fun h => exec_decorate_of_ok hpayload (hdec.trans (decorateNotice_of_extra h)),
      fun hlen h => exec_decorate_of_error hpayload (hdec.trans (decorateNotice_of_noNul hlen h)),
      fun text rest hdrop h => exec_decorate_of_ok hpayload (hdec.trans (decorateNotice_of_text hdrop h))⟩

end Sys2Proof.Machine
end

section
/-! PROOFS. FEED and the FEED_BYTE rows as steps: what each end of a feed answers, a row in its own case, the rules case
by case, strings fed in parts, a whole frame fed, the token queue; and O20, O22 to O30 from them. -/

namespace Sys2Proof.Machine

/-! ## How a feed ends -/

/-- The result an operation had left is not read by a fatal error. -/
theorem fatalResult_withResult (e : FaultCode) (err : OpError) (s : State) (r : Result) :
    fatalResult e err (s.withResult r) = fatalResult e err s := by
  unfold fatalResult
  rw [State.withResult_ses, terminate_withResult]
  split <;> rfl

theorem feedEnds_withResult (e : FeedEnd) (s : State) (r : Result) : feedEnds e (s.withResult r) = feedEnds e s := by
  cases e with
  | all => rfl
  | full rest => rfl
  | inconsistent => exact fatalResult_withResult _ _ s r

theorem exec_feed (b : Bytes) (s : State) : exec (.feed b) s = feedOp b s := rfl

section
variable {s : State} {b : Bytes} {p : Parser}

theorem feedOp_of_all (h : feedBytes s.cfg (s.waiting ++ b) s.par = (p, .all)) :
    feedOp b s = .next (((s.withWaiting []).withPar p).withResult .unit) := by
  rw [feedOp, h]
  rfl

/-- With no bytes waiting, a string that is taken whole. -/
theorem feedOp_of_none_waiting (hwait : s.waiting = []) (h : feedBytes s.cfg b s.par = (p, .all)) :
    feedOp b s = .next ((s.withPar p).withResult .unit) := by
  rw [feedOp_of_all (p := p) (by rw [hwait, List.nil_append, h]), State.withWaiting_of_nil hwait]

theorem feedOp_of_full {rest : Bytes} (h : feedBytes s.cfg (s.waiting ++ b) s.par = (p, .full rest)) :
    feedOp b s = .next (((s.withPar p).withWaiting rest).withResult (.stalled rest)) := by
  rw [feedOp, h]
  rfl

theorem feedOp_of_inconsistent (h : feedBytes s.cfg (s.waiting ++ b) s.par = (p, .inconsistent)) :
    feedOp b s = fatalResult .internal .internalConsistency ((s.withWaiting []).withPar p) := by
  rw [feedOp, h]
  rfl

end

/-- A fatal error outside a cycle is the result. -/
theorem fatalResult_raised {e : FaultCode} {err : OpError} {s t : State} (h : fatalResult e err s = .next t) :
    t.result = .raised err := by
  obtain rfl := Host.Outcome.next.inj h
  rfl

/-! ## A FEED_BYTE row in its own case and in another -/

/-- A row whose rule is that of its case feeds its byte, whatever the state of the parser (41_stream_parser R138). -/
theorem feedRow_eq_feedOp (k : FeedCase) (x : Byte) (s : State) : feedRow k (feedRule k) x s = feedOp [x] s := by
  unfold feedRow
  split
  · rename_i h
    obtain ⟨hwait, hcase⟩ := h
    have hbyte : feedByte s.cfg x s.par = feedRule k s.cfg x s.par := by rw [feedByte, hcase]
    have hfeed : s.waiting ++ [x] = [x] := by rw [hwait, List.nil_append]
    rw [feedOp, hfeed, State.withWaiting_of_nil hwait]
    cases hrule : feedRule k s.cfg x s.par with
    | ok p => simp only [feedBytes, hbyte, hrule]
    | full => simp only [feedBytes, hbyte, hrule, State.withPar_self]
    | inconsistent => simp only [feedBytes, hbyte, hrule, State.withPar_self]
  · rfl

theorem exec_feedByteOutOfSync (x : Byte) (s : State) :
    exec (.feedByteOutOfSync x) s = feedRow .outOfSync feedOutOfSync x s := rfl

theorem exec_feedByteHeaderCrcFail (x : Byte) (s : State) :
    exec (.feedByteHeaderCrcFail x) s = feedRow .headerCrcFail feedHeaderCrcFail x s := rfl

theorem exec_feedByteHeaderCrcOk (x : Byte) (s : State) :
    exec (.feedByteHeaderCrcOk x) s = feedRow .headerCrcOk feedHeaderCrcOk x s := rfl

theorem exec_feedByteData (x : Byte) (s : State) : exec (.feedByteData x) s = feedRow .data feedData x s := rfl

theorem exec_feedByteNextFrame (x : Byte) (s : State) :
    exec (.feedByteNextFrame x) s = feedRow .nextFrame (fun _ => feedNextFrame) x s := rfl

/-- Every FEED_BYTE row is FEED of its byte. -/
theorem exec_feedByteRow {i : Instr} {x : Byte} (hi : i ∈ [.feedByteOutOfSync x, .feedByteHeaderBody x,
    .feedByteHeaderCrcFail x, .feedByteHeaderCrcOk x, .feedByteData x, .feedByteNextFrame x]) (s : State) :
    exec i s = exec (.feed [x]) s := by
  simp only [List.mem_cons, List.not_mem_nil, or_false] at hi
  rcases hi with rfl | rfl | rfl | rfl | rfl | rfl
  · exact feedRow_eq_feedOp .outOfSync x s
  · exact feedRow_eq_feedOp .headerBody x s
  · exact feedRow_eq_feedOp .headerCrcFail x s
  · exact feedRow_eq_feedOp .headerCrcOk x s
  · exact feedRow_eq_feedOp .data x s
  · exact feedRow_eq_feedOp .nextFrame x s

/-! ## Out of sync (41_stream_parser R132) -/

section
variable {c : Cfg} {x : Byte} {p : Parser}

theorem feedCase_of_outOfSync (h : p.pstate = .outOfSync) : feedCase c x p = .outOfSync := by
  simp only [feedCase, h]

theorem feedOutOfSync_of_garbage (hx : x ≠ marker) (hcap : c.garbageCap ≠ some (p.acc.length + 1)) :
    feedOutOfSync c x p = .ok { p with acc := p.acc ++ [x] } := by
  rw [feedOutOfSync, if_pos hx, if_neg hcap]

theorem feedOutOfSync_of_cap (hx : x ≠ marker) (hcap : c.garbageCap = some (p.acc.length + 1))
    (hroom : ∀ n ∈ c.tokenFifoDepth, p.queue.length < n) : feedOutOfSync c x p
      = .ok { p with acc := [], queue := p.queue ++ [.garbage (p.acc ++ [x])] } := by
  rw [feedOutOfSync, if_pos hx, if_pos hcap, emitThen_room hroom]

theorem feedOutOfSync_of_marker (hacc : p.acc = []) : feedOutOfSync c marker p = .ok p.atHeader := by
  rw [feedOutOfSync, if_neg (not_not.mpr rfl), if_pos hacc]

theorem feedOutOfSync_of_run (hacc : p.acc ≠ []) (hroom : ∀ n ∈ c.tokenFifoDepth, p.queue.length < n) :
    feedOutOfSync c marker p
      = .ok { p with pstate := .parsingHeader, acc := [marker], queue := p.queue ++ [.garbage p.acc] } := by
  rw [feedOutOfSync, if_neg (not_not.mpr rfl), if_neg hacc, emitThen_room hroom]
  rfl

end

/-- Settles O20. -/
theorem feedByteOutOfSync : Obligations.FeedByteOutOfSync := by
  intro s x hwait hstate
  have hcase : feedCase s.cfg x s.par = .outOfSync := feedCase_of_outOfSync hstate
  rw [exec_feedByteOutOfSync]
  refine ⟨fun hx hcap => feedRow_of_ok hwait hcase (feedOutOfSync_of_garbage hx hcap),
    fun hx hcap hroom => feedRow_of_ok hwait hcase (feedOutOfSync_of_cap hx hcap hroom), ?_, ?_⟩
  · rintro rfl hacc
    exact feedRow_of_ok hwait hcase (feedOutOfSync_of_marker hacc)
  · rintro rfl hacc hroom
    exact feedRow_of_ok hwait hcase (feedOutOfSync_of_run hacc hroom)

/-! ## The check byte (41_stream_parser R134, R135) -/

section
variable {c : Cfg} {x : Byte} {p : Parser}

theorem feedCase_of_crcFail (hstate : p.pstate = .parsingHeader) (hlen : p.acc.length = 7)
    (hcrc : crc8 c.crc (bytes1to6 p.acc) ≠ x) : feedCase c x p = .headerCrcFail := by
  simp only [feedCase, hstate, hlen, Nat.lt_irrefl, if_false, if_neg hcrc]

theorem feedCase_of_crcOk (hstate : p.pstate = .parsingHeader) (hlen : p.acc.length = 7)
    (hcrc : crc8 c.crc (bytes1to6 p.acc) = x) : feedCase c x p = .headerCrcOk := by
  simp only [feedCase, hstate, hlen, Nat.lt_irrefl, if_false, if_pos hcrc]

theorem feedHeaderCrcFail_of_room (hroom : ∀ n ∈ c.tokenFifoDepth, p.queue.length < n) :
    feedHeaderCrcFail c x p = .ok { p with
      pstate := .outOfSync, acc := [], queue := p.queue ++ [.garbage (p.acc ++ [x])], crcErr := bump c p.crcErr } := by
  rw [feedHeaderCrcFail, emitThen_room hroom]

/-- A complete frame's token joins the queue. -/
theorem completeFrame_of_room (b : Bytes) (hroom : ∀ n ∈ c.tokenFifoDepth, p.queue.length < n) :
    completeFrame c b p = .ok { p with
      pstate := .nextFrame, acc := [], queue := p.queue ++ [tokenOf c (frameOfBytes b)] } := by
  rw [completeFrame, emitThen_room hroom]
  rfl

theorem feedHeaderCrcOk_of_empty (hlen : byteAt (p.acc ++ [x]) 6 = 0)
    (hroom : ∀ n ∈ c.tokenFifoDepth, p.queue.length < n) : feedHeaderCrcOk c x p = .ok { p with
      pstate := .nextFrame, acc := [], queue := p.queue ++ [tokenOf c (frameOfBytes (p.acc ++ [x]))] } := by
  rw [feedHeaderCrcOk, if_pos hlen, completeFrame_of_room _ hroom]

theorem feedHeaderCrcOk_of_payload (hlen : byteAt (p.acc ++ [x]) 6 ≠ 0) : feedHeaderCrcOk c x p = .ok { p with
      acc := p.acc ++ [x], need := 8 + 4 * (byteAt (p.acc ++ [x]) 6).toNat, pstate := .parsingData } := by
  rw [feedHeaderCrcOk, if_neg hlen]

end

/-! ## Counters (42_seqcmp R166) -/

theorem bump_of_unbounded {c : Cfg} (h : c.ctrW = none) (n : Nat) : bump c n = n + 1 := by
  rw [bump, h]

theorem bump_of_below {c : Cfg} {w n : Nat} (h : c.ctrW = some w) (hn : n < 2 ^ w - 1) : bump c n = n + 1 := by
  simp only [bump, h]
  exact Nat.min_eq_left hn

theorem bump_of_top {c : Cfg} {w n : Nat} (h : c.ctrW = some w) (hn : n = 2 ^ w - 1) : bump c n = n := by
  simp only [bump, h]
  omega

/-- Settles O22: seven bytes are held, and the check byte of the six behind the marker is another one. -/
theorem feedByteHeaderCrcFail : Obligations.FeedByteHeaderCrcFail := by
  intro s m o c r lo hi l x hwait hstate hacc hcrc hroom
  have hcase : feedCase s.cfg x s.par = .headerCrcFail :=
    feedCase_of_crcFail hstate (by rw [hacc]; rfl) (by rw [hacc]; exact hcrc)
  refine ⟨?_, fun h => bump_of_unbounded h _, fun w h hn => bump_of_below h hn, fun w h hn => bump_of_top h hn⟩
  rw [exec_feedByteHeaderCrcFail, feedRow_of_ok hwait hcase (feedHeaderCrcFail_of_room hroom), hacc]
  rfl

/-- Settles O23, by the length field, which is the seventh of the eight bytes held. -/
theorem feedByteHeaderCrcOk : Obligations.FeedByteHeaderCrcOk := by
  intro s m o c r lo hi l x hwait hstate hacc hcrc
  have hcase : feedCase s.cfg x s.par = .headerCrcOk :=
    feedCase_of_crcOk hstate (by rw [hacc]; rfl) (by rw [hacc]; exact hcrc)
  have hlen : byteAt (s.par.acc ++ [x]) 6 = l := by rw [hacc]; rfl
  rw [exec_feedByteHeaderCrcOk]
  constructor
  · intro hl hroom
    rw [feedRow_of_ok hwait hcase (feedHeaderCrcOk_of_empty (hlen.trans hl) hroom), hacc]
    rfl
  · intro hl
    rw [feedRow_of_ok hwait hcase (feedHeaderCrcOk_of_payload (hlen.symm ▸ hl)), hlen, hacc]
    rfl

/-! ## The payload (41_stream_parser R136) -/

section
variable {c : Cfg} {x : Byte} {p : Parser}

theorem feedCase_of_data (h : p.pstate = .parsingData) : feedCase c x p = .data := by
  simp only [feedCase, h]

theorem feedData_of_short (h : p.acc.length + 1 < p.need) : feedData c x p = .ok { p with acc := p.acc ++ [x] } := by
  rw [feedData, if_neg (by omega), if_neg (by omega)]

theorem feedData_of_last (h : p.acc.length + 1 = p.need) (hroom : ∀ n ∈ c.tokenFifoDepth, p.queue.length < n) :
    feedData c x p = .ok { p with
      pstate := .nextFrame, acc := [], queue := p.queue ++ [tokenOf c (frameOfBytes (p.acc ++ [x]))] } := by
  rw [feedData, if_neg (by omega), if_pos h, completeFrame_of_room _ hroom]

end

/-- Settles O24, by where the byte stands against the declared length. -/
theorem feedByteData : Obligations.FeedByteData := by
  intro s x hwait hstate
  have hcase : feedCase s.cfg x s.par = .data := feedCase_of_data hstate
  rw [exec_feedByteData]
  refine ⟨fun hshort => feedRow_of_ok hwait hcase (feedData_of_short hshort), ?_, ?_⟩
  · intro m o c r lo hi l k data hacc hneed hroom
    have hlast : s.par.acc.length + 1 = s.par.need := by
      rw [hneed, hacc, List.length_append]
      rfl
    rw [feedRow_of_ok hwait hcase (feedData_of_last hlast hroom), hacc]
    rfl
  · intro hpast
    rw [feedRow, if_pos ⟨hwait, hcase⟩, feedData, if_pos hpast]
    rfl

/-! ## Between frames (41_stream_parser R137) -/

section
variable {c : Cfg} {x : Byte} {p : Parser}

theorem feedCase_of_nextFrame (h : p.pstate = .nextFrame) : feedCase c x p = .nextFrame := by
  simp only [feedCase, h]

theorem feedNextFrame_of_marker : feedNextFrame marker p = .ok p.atHeader := if_pos rfl

theorem feedNextFrame_of_garbage (h : x ≠ marker) :
    feedNextFrame x p = .ok { p with acc := [x], pstate := .outOfSync } := if_neg h

end

/-- Settles O25. -/
theorem feedByteNextFrame : Obligations.FeedByteNextFrame := by
  intro s x hwait hstate
  have hcase : feedCase s.cfg x s.par = .nextFrame := feedCase_of_nextFrame hstate
  rw [exec_feedByteNextFrame]
  constructor
  · rintro rfl
    exact feedRow_of_ok hwait hcase feedNextFrame_of_marker
  · intro hx
    exact feedRow_of_ok hwait hcase (feedNextFrame_of_garbage hx)

/-! ## Strings fed in parts (41_stream_parser R138) -/

/-- A full parser that has not accepted a byte takes none of the bytes behind it. -/
theorem feedBytes_of_full {c : Cfg} {x : Byte} {p : Parser} (h : feedByte c x p = .full) (rest : Bytes) :
    feedBytes c (x :: rest) p = (p, .full (x :: rest)) := by
  simp only [feedBytes, h]

/-- FEED of two strings in turn, the first taken whole or in part. -/
theorem feedOp_append {s t : State} {a : Bytes} (b : Bytes) (h : feedOp a s = .next t)
    (hraised : ∀ e, t.result ≠ .raised e) : feedOp (a ++ b) s = feedOp b t := by
  rcases feedBytes_cases s.cfg (s.waiting ++ a) s.par with hall | ⟨taken, x, rest, -, hfull, -, hx⟩ | hbad
  · obtain rfl := Host.Outcome.next.inj ((feedOp_of_all (Prod.ext rfl hall)).symm.trans h)
    rw [feedOp, ← List.append_assoc, feedBytes_append hall]
    exact (feedEnds_withResult _ _ _).symm
  · obtain rfl := Host.Outcome.next.inj ((feedOp_of_full (Prod.ext rfl hfull)).symm.trans h)
    rw [feedOp_of_full (by rw [← List.append_assoc, feedBytes_append_full b hfull]),
      feedOp_of_full (feedBytes_of_full hx (rest ++ b))]
    rfl
  · rw [feedOp_of_inconsistent (Prod.ext rfl hbad)] at h
    exact absurd (fatalResult_raised h) (hraised _)

/-- Settles O26: the bytes not taken stand in front of the later ones, and each row feeds its byte. -/
theorem feedIsChunkingInvariant : Obligations.FeedIsChunkingInvariant := by
  intro s
  refine ⟨fun hwait => ?_, fun a b t h hraised => feedOp_append b h hraised, fun _ x => ?_⟩
  · have hnone : feedBytes s.cfg (s.waiting ++ []) s.par = (s.par, .all) := by rw [hwait]; rfl
    rw [exec_feed, feedOp_of_all hnone, State.withWaiting_of_nil hwait, State.withPar_self]
  · exact ⟨fun _ => (exec_feedByteRow (by simp) s).symm, fun _ _ => (exec_feedByteRow (by simp) s).symm,
      fun _ _ _ => (exec_feedByteRow (by simp) s).symm, fun _ _ _ => (exec_feedByteRow (by simp) s).symm,
      fun _ => (exec_feedByteRow (by simp) s).symm, fun _ => (exec_feedByteRow (by simp) s).symm⟩

/-! ## A feed from a sound parser (41_stream_parser R142) -/

/-- What a full parser has not accepted stands behind what it has taken. -/
theorem feedBytes_taken {c : Cfg} {b rest : Bytes} {p : Parser} (h : (feedBytes c b p).2 = .full rest) :
    ∃ taken, b = taken ++ rest ∧ feedBytes c taken p = ((feedBytes c b p).1, .all) := by
  rcases feedBytes_cases c b p with hall | ⟨taken, x, rest', hb, hfull, htaken, -⟩ | hbad
  · rw [hall] at h
    cases h
  · obtain rfl : x :: rest' = rest := FeedEnd.full.inj (hfull.symm.trans h)
    exact ⟨taken, hb, htaken⟩
  · rw [hbad] at h
    cases h

/-- From a parser that meets R38 FEED does not raise: the answer is that of the bytes left over. -/
theorem feedOp_of_parserInv {s : State} (b : Bytes) (h : parserInv s.cfg s.par) :
    ∃ rest, feedOp b s = .next (((s.withPar (feedBytes s.cfg (s.waiting ++ b) s.par).1).withWaiting rest).withResult
        (if rest = [] then .unit else .stalled rest))
      ∧ (rest = [] ∨ (feedBytes s.cfg (s.waiting ++ b) s.par).2 = .full rest
          ∧ ∃ n, s.cfg.tokenFifoDepth = some n ∧ n ≤ (feedBytes s.cfg (s.waiting ++ b) s.par).1.queue.length)
      ∧ ∃ q, (feedBytes s.cfg (s.waiting ++ b) s.par).1.queue = s.par.queue ++ q
        ∧ queueWire q ++ (feedBytes s.cfg (s.waiting ++ b) s.par).1.acc ++ rest = s.par.acc ++ (s.waiting ++ b) := by
  obtain ⟨q, rest, -, hqueue, hwire, ⟨hall, rfl⟩ | ⟨hfull, hrest, hdepth⟩⟩ :=
    feedBytes_spec (c := s.cfg) (b := s.waiting ++ b) h
  · exact ⟨[], feedOp_of_all (Prod.ext rfl hall), .inl rfl, q, hqueue, hwire⟩
  · refine ⟨rest, ?_, .inr ⟨hfull, hdepth⟩, q, hqueue, hwire⟩
    rw [feedOp_of_full (Prod.ext rfl hfull), if_neg hrest]

theorem feedBytes_parserInv {c : Cfg} {b : Bytes} {p : Parser} (h : parserInv c p) :
    parserInv c (feedBytes c b p).1 := by
  obtain ⟨q, rest, hinv, -⟩ := feedBytes_spec (b := b) h
  exact hinv

/-- Settles O27. -/
theorem feedNeverRaises : Obligations.FeedNeverRaises := by
  refine ⟨fun s b h => ?_, fun s b => rfl, fun s x i hi => exec_feedByteRow hi s⟩
  obtain ⟨rest, hfeed, hrest, q, hqueue, -⟩ := feedOp_of_parserInv b h
  refine ⟨_, q, rest, hfeed, feedBytes_parserInv h, hqueue, fun n hn hle => ?_, ?_⟩
  · exact feedBytes_queueInv (fun m hm => Option.some.inj (hn.symm.trans hm) ▸ hle) n hn
  · refine hrest.imp id fun ⟨hfull, n, hn, hlen⟩ => ?_
    obtain ⟨taken, hb, htaken⟩ := feedBytes_taken hfull
    exact ⟨taken, n, hb, hn, hlen, feedOp_of_all (s := s.withWaiting []) htaken⟩

/-- Settles O28. -/
theorem feedConservesBytes : Obligations.FeedConservesBytes := by
  intro s t b h hnext
  obtain ⟨rest, hfeed, -, q, hqueue, hwire⟩ := feedOp_of_parserInv b h
  obtain rfl := Host.Outcome.next.inj (hfeed.symm.trans hnext)
  simp only [State.withResult_par, State.withWaiting_par, State.withPar_par, State.withResult_waiting,
    State.withWaiting_waiting, hqueue, queueWire_append]
  simp only [List.append_assoc] at hwire ⊢
  rw [hwire]

/-! ## A whole frame fed (41_stream_parser R139, R143) -/

/-- Between frames a marker starts a header. -/
theorem feedByte_marker_of_betweenFrames {p : Parser} (c : Cfg) (h : betweenFrames p) :
    feedByte c marker p = .ok p.atHeader := by
  obtain ⟨hacc, hstate | hstate⟩ := h
  · rw [feedByte, feedCase_of_outOfSync hstate]
    exact feedOutOfSync_of_marker hacc
  · rw [feedByte, feedCase_of_nextFrame hstate]
    exact feedNextFrame_of_marker

/-- Behind a garbage run a marker queues the run and starts a header. -/
theorem feedByte_marker_of_run {c : Cfg} {p : Parser} (hstate : p.pstate = .outOfSync) (hacc : p.acc ≠ [])
    (hroom : ∀ n ∈ c.tokenFifoDepth, p.queue.length < n) : feedByte c marker p
      = .ok { p with pstate := .parsingHeader, acc := [marker], queue := p.queue ++ [.garbage p.acc] } := by
  rw [feedByte, feedCase_of_outOfSync hstate]
  exact feedOutOfSync_of_run hacc hroom

/-- Between frames a run of bytes free of the marker is held as garbage, with an unbounded cap. -/
theorem feedBytes_noise {c : Cfg} (hcap : c.garbageCap = none) {g : Bytes} (hne : g ≠ []) (hg : ∀ x ∈ g, x ≠ marker)
    {p : Parser} (h : betweenFrames p) : feedBytes c g p = ({ p with pstate := .outOfSync, acc := g }, .all) := by
  obtain ⟨hacc, hstate | hstate⟩ := h
  · rw [feedBytes_garbage hcap hg hstate, hacc, ← hstate]
    rfl
  · match g, hne with
    | x :: g, _ =>
      have hx : feedByte c x p = .ok { p with acc := [x], pstate := .outOfSync } := by
        rw [feedByte, feedCase_of_nextFrame hstate]
        exact feedNextFrame_of_garbage (hg x List.mem_cons_self)
      rw [feedBytes_cons_ok hx, feedBytes_garbage hcap (fun y hy => hg y (List.mem_cons_of_mem x hy)) rfl]
      rfl

/-- The frame read from its wire bytes. -/
theorem frameOfBytes_wireBytes (k : Crc8Fn) (op : Byte) {b : FrameBody} (h : payloadOk b.data = true) :
    frameOfBytes (wireBytes k op b) = frameWith k op b := by
  obtain ⟨-, -, -, -, hframe⟩ := frameDecode_ok (frameDecode_wireBytes k op h)
  exact hframe.symm

/-- The parser `p` after the frame `f` has been completed, its payload `data`. -/
def Parser.afterFrame (p : Parser) (c : Cfg) (f : Frame) : Parser :=
  { p with
    pstate := .nextFrame
    acc    := []
    need   := if f.data = [] then p.need else 8 + f.data.length
    queue  := p.queue ++ [tokenOf c f] }

theorem coveredBytes_length (op : Byte) (b : FrameBody) : (coveredBytes op b).length = 6 := rfl

/-- The length field is 0 for no payload alone. -/
theorem lengthField_eq_zero {data : Bytes} (h : payloadOk data = true) : lengthField data = 0 ↔ data = [] := by
  have hlen := lengthField_toNat h
  constructor
  · intro h0
    rw [h0] at hlen
    exact List.length_eq_zero_iff.mp hlen.symm
  · rintro rfl
    rfl

/-- The check byte of a frame, behind its seven header bytes. -/
theorem feedCase_of_frame {c : Cfg} {p : Parser} (op : Byte) (b : FrameBody) (hstate : p.pstate = .parsingHeader)
    (hacc : p.acc = marker :: coveredBytes op b) :
    feedCase c (crc8 c.crc (coveredBytes op b)) p = .headerCrcOk :=
  feedCase_of_crcOk hstate (by rw [hacc]; rfl) (by rw [hacc]; rfl)

/-- The bytes of a payload, its last one among them, complete the frame. -/
theorem feedBytes_lastPayload {c : Cfg} {p : Parser} {data : Bytes} (hdata : data ≠ [])
    (hstate : p.pstate = .parsingData) (hneed : p.need = p.acc.length + data.length)
    (hroom : ∀ n ∈ c.tokenFifoDepth, p.queue.length < n) :
    feedBytes c data p = ({ p with
      pstate := .nextFrame, acc := [], queue := p.queue ++ [tokenOf c (frameOfBytes (p.acc ++ data))] }, .all) := by
  obtain ⟨init, y, rfl⟩ : ∃ init y, data = init ++ [y] := ⟨_, _, (List.dropLast_append_getLast hdata).symm⟩
  rw [List.length_append, List.length_singleton] at hneed
  have hinit : feedBytes c init p = ({ p with acc := p.acc ++ init }, .all) :=
    feedBytes_payload hstate (by omega)
  have hlast : feedByte c y { p with acc := p.acc ++ init } = .ok { p with
      pstate := .nextFrame, acc := [],
      queue := p.queue ++ [tokenOf c (frameOfBytes (p.acc ++ init ++ [y]))] } := by
    rw [feedByte, feedCase_of_data (p := { p with acc := p.acc ++ init }) hstate]
    exact feedData_of_last (p := { p with acc := p.acc ++ init })
      (by rw [hneed, List.length_append, Nat.add_assoc]) hroom
  rw [feedBytes_append (congrArg Prod.snd hinit), hinit, feedBytes_cons_ok hlast, List.append_assoc]
  rfl

/-- The bytes of a frame behind its marker complete the frame and queue its token. -/
theorem feedBytes_frame {c : Cfg} {p : Parser} (op : Byte) {b : FrameBody} (h : payloadOk b.data = true)
    (hstate : p.pstate = .parsingHeader) (hacc : p.acc = [marker])
    (hroom : ∀ n ∈ c.tokenFifoDepth, p.queue.length < n) :
    feedBytes c (coveredBytes op b ++ crc8 c.crc (coveredBytes op b) :: b.data) p
      = (p.afterFrame c (frameWith c.crc op b), .all) := by
  have hheader : feedBytes c (coveredBytes op b) p = ({ p with acc := p.acc ++ coveredBytes op b }, .all) :=
    feedBytes_header hstate (by rw [hacc, coveredBytes_length]; decide)
  rw [feedBytes_append (congrArg Prod.snd hheader), hheader, hacc]
  have hcase := feedCase_of_frame (c := c) (p := { p with acc := [marker] ++ coveredBytes op b }) op b hstate rfl
  have hframe := frameOfBytes_wireBytes c.crc op h
  by_cases hdata : b.data = []
  · have hcheck : feedByte c (crc8 c.crc (coveredBytes op b)) { p with acc := [marker] ++ coveredBytes op b }
        = .ok (p.afterFrame c (frameWith c.crc op b)) := by
      rw [feedByte, hcase, ← hframe, wireBytes, hdata, Parser.afterFrame]
      exact feedHeaderCrcOk_of_empty ((lengthField_eq_zero h).mpr hdata) hroom
    rw [feedBytes_cons_ok hcheck, hdata, feedBytes_nil]
  · have hcheck : feedByte c (crc8 c.crc (coveredBytes op b)) { p with acc := [marker] ++ coveredBytes op b }
        = .ok { p with
          acc := [marker] ++ coveredBytes op b ++ [crc8 c.crc (coveredBytes op b)],
          need := 8 + b.data.length, pstate := .parsingData } := by
      rw [feedByte, hcase, ← lengthField_toNat h]
      exact feedHeaderCrcOk_of_payload fun h0 => hdata ((lengthField_eq_zero h).mp h0)
    rw [feedBytes_cons_ok hcheck]
    refine Eq.trans (feedBytes_lastPayload hdata ?_ ?_ hroom) ?_
    · rfl
    · rfl
    have hneed : (if (frameWith c.crc op b).data = [] then p.need else 8 + (frameWith c.crc op b).data.length)
        = 8 + b.data.length := if_neg hdata
    rw [Parser.afterFrame, hneed, ← hframe]
    rfl

/-- A frame between frames: its token joins the queue, and the parser stands after it. -/
theorem feedBytes_wireBytes {c : Cfg} {p : Parser} (op : Byte) {b : FrameBody} (h : payloadOk b.data = true)
    (hp : betweenFrames p) (hroom : ∀ n ∈ c.tokenFifoDepth, p.queue.length < n) :
    feedBytes c (wireBytes c.crc op b) p = (p.afterFrame c (frameWith c.crc op b), .all) := by
  rw [wireBytes, List.cons_append, feedBytes_cons_ok (feedByte_marker_of_betweenFrames c hp)]
  exact feedBytes_frame op h rfl rfl hroom

/-- The parser `p` with the token `t` queued. -/
def Parser.queued (p : Parser) (t : Token) : Parser := { p with queue := p.queue ++ [t] }

/-- Noise and a frame between frames: a Garbage token and the frame's. -/
theorem feedBytes_noise_wireBytes {c : Cfg} {p : Parser} {g : Bytes} (op : Byte) {b : FrameBody}
    (hcap : c.garbageCap = none) (hdepth : c.tokenFifoDepth = none) (hne : g ≠ []) (hg : ∀ x ∈ g, x ≠ marker)
    (h : payloadOk b.data = true) (hp : betweenFrames p) :
    feedBytes c (g ++ wireBytes c.crc op b) p
      = ((p.queued (.garbage g)).afterFrame c (frameWith c.crc op b), .all) := by
  have hroom : ∀ q : Parser, ∀ n ∈ c.tokenFifoDepth, q.queue.length < n := by simp [hdepth]
  have hnoise := feedBytes_noise hcap hne hg hp
  rw [feedBytes_append (congrArg Prod.snd hnoise), hnoise, wireBytes, List.cons_append,
    feedBytes_cons_ok (feedByte_marker_of_run (p := { p with pstate := .outOfSync, acc := g }) rfl hne (hroom _))]
  exact feedBytes_frame (p := { p.queued (.garbage g) with pstate := .parsingHeader, acc := [marker] }) op h rfl rfl
    (hroom _)

theorem betweenFrames_afterFrame (p : Parser) (c : Cfg) (f : Frame) : betweenFrames (p.afterFrame c f) :=
  ⟨rfl, .inr rfl⟩

/-- Settles O29: twice noise and a frame, the second time from the parser that the first frame has left. -/
theorem parserResynchronizes : Obligations.ParserResynchronizes := by
  intro s g₁ g₂ op₁ op₂ b₁ b₂ hp hwait hdepth hcap hne₁ hne₂ hg₁ hg₂ h₁ h₂
  have hfirst := feedBytes_noise_wireBytes op₁ hcap hdepth hne₁ hg₁ h₁ hp
  have hsecond := feedBytes_noise_wireBytes op₂ hcap hdepth hne₂ hg₂ h₂ (betweenFrames_afterFrame
    (s.par.queued (.garbage g₁)) s.cfg (frameWith s.cfg.crc op₁ b₁))
  have hboth : feedBytes s.cfg (g₁ ++ wireBytes s.cfg.crc op₁ b₁ ++ g₂ ++ wireBytes s.cfg.crc op₂ b₂) s.par
      = ((((s.par.queued (.garbage g₁)).afterFrame s.cfg (frameWith s.cfg.crc op₁ b₁)).queued
        (.garbage g₂)).afterFrame s.cfg (frameWith s.cfg.crc op₂ b₂), .all) := by
    rw [List.append_assoc, feedBytes_append (congrArg Prod.snd hfirst), hfirst, hsecond]
  refine ⟨_, feedOp_of_none_waiting hwait hboth, ?_, rfl, rfl, rfl⟩
  simp only [Parser.afterFrame, Parser.queued, List.append_assoc, List.cons_append, List.nil_append]

/-! ## The token queue (41_stream_parser R140, R141) -/

/-- Settles O30. -/
theorem tokenQueueOperations : Obligations.TokenQueueOperations := by
  intro s
  have htoken : exec .hasToken s = .next (s.withResult (.bit (!s.par.queue.isEmpty))) := rfl
  have htake : exec .takeToken s = .next ((s.withPar { s.par with queue := s.par.queue.tail }).withResult
      (.token s.par.queue.head?)) := rfl
  constructor
  · intro hempty
    have hsame : ({ s.par with queue := [] } : Parser) = s.par := by rw [← hempty]
    rw [htoken, htake, hempty]
    exact ⟨rfl, by rw [List.tail_nil, hsame]; rfl⟩
  · intro t rest hqueue
    rw [htoken, htake, hqueue]
    exact ⟨rfl, rfl⟩

end Sys2Proof.Machine
end

section
/-! PROOFS. The rows of CYCLE and its steps as equations: what each runs, and when its time is refused. -/

namespace Sys2Proof.Machine

/-! ## What each row runs (44_scheduler R190 to R219) -/

section
variable (now throttle : Nat) (s : State)

theorem exec_cycle (cancel : Bool) (rx : Rx) : exec (.cycle now throttle cancel rx) s
    = inCycle now s (fun s => cycleEnds (cycleBody now throttle cancel rx s)) := rfl

theorem exec_cycleInitTick : exec (.cycleInitTick now) s
    = inCycle now s (fun s => cycleEnds (whenIn .starting (initTick now) s).caught) := rfl

theorem exec_cycleInitAckOk (ia : InitAck) :
    exec (.cycleInitAckOk ia) s = cycleEnds (dispatch (.frame (.initAck ia)) 0 s) := rfl

theorem exec_cycleInitAckFail (ia : InitAck) :
    exec (.cycleInitAckFail ia) s = cycleEnds (dispatch (.frame (.initAck ia)) 0 s) := rfl

theorem exec_cycleNonceReport (nr : NonceReport) : exec (.cycleNonceReport nr now) s
    = inCycle now s (fun s => cycleEnds (dispatch (.frame (.nonceReport nr)) now s)) := rfl

theorem exec_cycleStatusThermal (st : StatusReport) :
    exec (.cycleStatusThermal st) s = cycleEnds (dispatch (.frame (.statusReport st)) 0 s) := rfl

theorem exec_cycleStatusReconcile (st : StatusReport) :
    exec (.cycleStatusReconcile st) s = cycleEnds (dispatch (.frame (.statusReport st)) 0 s) := rfl

theorem exec_cycleIssueAll : exec (.cycleIssueAll now throttle) s
    = inCycle now s (fun s => cycleEnds (whenIn .running (issueAll now throttle) s).caught) := rfl

theorem exec_cycleIssueOne (d c : Byte) : exec (.cycleIssueOne d c now) s = inCycle now s (fun s =>
    if s.ses.sstate ≠ .running then cycleEnds s
    else match dieAt s d with
      | none => .fault .noSuchDie
      | some die =>
        if c.toNat < s.ses.cores.toNat then cycleEnds (issueOn d c now die s).caught else .fault .noSuchCore) := rfl

theorem exec_cycleReportTick : exec (.cycleReportTick now) s
    = inCycle now s (fun s => cycleEnds (whenIn .running (fun s => .done (reportTick now s)) s).caught) := rfl

theorem exec_cycleTerminate (reason : TermReason) : exec (.cycleTerminate reason) s
    = cycleEnds (if s.ses.sstate = .terminated then s else terminate reason s) := rfl

end

/-! ## Steps guarded by the session's state (44_scheduler R190) -/

theorem whenIn_of_state {x : SState} {s : State} (h : s.ses.sstate = x) (k : State → Run) : whenIn x k s = k s :=
  if_pos h

theorem whenIn_of_other {x : SState} {s : State} (h : s.ses.sstate ≠ x) (k : State → Run) : whenIn x k s = .done s :=
  if_neg h

/-! ## The outcome (44_scheduler R186) -/

theorem cycleEnds_of_terminated {s : State} (h : s.ses.sstate = .terminated) :
    cycleEnds s = .next (s.withResult (.outcome (.terminated s.ses.termReason))) := by
  rw [cycleEnds, outcomeOf, if_pos h, ret_next]

theorem cycleEnds_of_live {s : State} (h : s.ses.sstate ≠ .terminated) :
    cycleEnds s = .next (s.withResult (.outcome .goOn)) := by
  rw [cycleEnds, outcomeOf, if_neg h, ret_next]

/-- The outcome replaces the result of the operation before. -/
theorem cycleEnds_withResult (s : State) (r : Result) : cycleEnds (s.withResult r) = cycleEnds s := rfl

/-- In Running a step is none of a session that has ended. -/
theorem live_of_running {s : State} (h : s.ses.sstate = .running) : s.ses.sstate ≠ .terminated := by
  rw [h]
  decide

theorem live_of_starting {s : State} (h : s.ses.sstate = .starting) : s.ses.sstate ≠ .terminated := by
  rw [h]
  decide

end Sys2Proof.Machine
end

section
/-! PROOFS. Requests and frame rows as steps: what a step runs, a frame row in its direction, SEND and its chunks, the
inputs outside the block; and O1, O2, O16 to O19 from them. -/

namespace Sys2Proof.Machine

/-! ## Requests (30_encoding R90) -/

section
variable {s : State} {rest : List Request}

theorem step_of_call {i : Instr} (h : s.calls = .call i :: rest) (hi : isCycleStep i = false) :
    step s = exec i (s.withCalls rest) := by
  simp only [step, fetched, State.requestTaken, h, hi]
  rfl

theorem step_of_cycleStep {i : Instr} (h : s.calls = .call i :: rest) (hi : isCycleStep i = true) :
    step s = .refused .notInvocable := by
  simp only [step, fetched, h, hi, if_true]

theorem step_of_frame {b : Bytes} {i : Instr} (h : s.calls = .wire b :: rest) (hi : decode s.cfg.crc b = .ok i) :
    step s = exec i (s.withCalls rest) := by
  simp only [step, fetched, State.requestTaken, h, hi, List.tail_cons]

theorem step_of_noise {b : Bytes} {e : FramingReason} (h : s.calls = .wire b :: rest)
    (he : decode s.cfg.crc b = .error e) : step s = feedOp b (s.withCalls rest) := by
  simp only [step, fetched, State.requestTaken, h, he, List.tail_cons]

theorem step_of_idle (h : s.calls = []) : step s = .next s := by
  simp only [step, fetched, h]

end

/-- Settles O1. -/
theorem stepRunsTheRequest : Obligations.StepRunsTheRequest := fun _ =>
  ⟨fun _ _ h hi => step_of_call h hi, fun _ _ h hi => step_of_cycleStep h hi, fun _ _ _ h hi => step_of_frame h hi,
    step_of_idle⟩

/-! ## Frame rows (30_encoding R64, R66) -/

/-- Every frame row moves its frame in its direction. -/
theorem exec_of_frameParts {i : Instr} {d : Dir} {op : Byte} {b : FrameBody} (h : i.frameParts = some (d, op, b))
    (s : State) : exec i s = moveFrame d op b s := by
  cases i with
  | _ =>
    simp only [Instr.frameParts, Option.some.injEq, Prod.mk.injEq, reduceCtorEq] at h
    try (obtain ⟨rfl, rfl, rfl⟩ := h; rfl)

/-- A frame row received is its wire bytes fed. -/
theorem exec_received {i : Instr} {op : Byte} {b : FrameBody} (h : i.frameParts = some (.rx, op, b))
    (hpayload : payloadOk b.data = true) (s : State) : exec i s = feedOp (wireBytes s.cfg.crc op b) s := by
  rw [exec_of_frameParts h]
  exact if_pos hpayload

theorem exec_received_refused {i : Instr} {op : Byte} {b : FrameBody} (h : i.frameParts = some (.rx, op, b))
    (hpayload : payloadOk b.data = false) (s : State) : exec i s = .refused .notAFrame := by
  rw [exec_of_frameParts h]
  exact if_neg (Bool.eq_false_iff.mp hpayload)

/-- Settles O2: bytes that are one frame are the wire form of the row they decode to. -/
theorem arrivingBytesAreFed : Obligations.ArrivingBytesAreFed := by
  intro s w rest h
  cases hdec : decode s.cfg.crc w with
  | error e => exact step_of_noise h hdec
  | ok i =>
    obtain ⟨op, b, hpayload, rfl, rfl⟩ := decode_ok hdec
    rw [step_of_frame h hdec]
    exact exec_received (frameInstr_frameParts .rx op b) hpayload (s.withCalls rest)

/-- Settles O16: between frames the wire bytes are taken whole. -/
theorem receivedFrameQueuesItsToken : Obligations.ReceivedFrameQueuesItsToken := by
  intro s i op b h hpayload
  refine ⟨exec_received h hpayload s, fun hp hroom hwait => ?_⟩
  rw [exec_received h hpayload s, feedOp_of_none_waiting hwait (feedBytes_wireBytes op hpayload hp hroom)]
  rfl

/-! ## Frames transmitted (45_transport R231) -/

section
variable {i : Instr} {op : Byte} {b : FrameBody} {s : State}

theorem exec_transmitted_of_error (h : i.frameParts = some (.tx, op, b)) {e : ValidationReason}
    (he : encodeBody s.cfg op b = .error e) : exec i s = .next (s.withResult (.raised (.validation e))) := by
  rw [exec_of_frameParts h]
  change transmitFrame op b s = _
  unfold transmitFrame
  rw [he]
  rfl

theorem exec_transmitted_of_ok (h : i.frameParts = some (.tx, op, b)) {w : Bytes}
    (hw : encodeBody s.cfg op b = .ok w) : exec i s = sendOp w s := by
  rw [exec_of_frameParts h]
  change transmitFrame op b s = _
  unfold transmitFrame
  rw [hw]

end

theorem exec_send (b : Bytes) (s : State) : exec (.send b) s = sendOp b s := rfl

/-- SEND that succeeds. -/
theorem sendOp_of_done {b : Bytes} {s u : State} (h : sendBytes b s = (u, true)) :
    sendOp b s = .next (u.withResult .unit) := by
  simp only [sendOp, h, if_true, ret_next]

/-- SEND that fails is the result and ends the session, unless it has ended (60_exceptions R240, R253). -/
theorem sendOp_of_failed {b : Bytes} {s u : State} (h : sendBytes b s = (u, false)) :
    sendOp b s = .next ((if s.ses.sstate = .terminated then u else terminate (.fault .transport) u).withResult
      (.raised .transport)) := by
  have hses : u.ses = s.ses := by rw [← sendBytes_ses b s, h]
  simp only [sendOp, h, fatalResult, hses, ret_next]
  rfl

/-- Settles O17, by the first check of ENCODE that fails; a message that fits is one call. -/
theorem transmittedFrameIsSent : Obligations.TransmittedFrameIsSent := by
  intro s i op b h
  refine ⟨fun hop => exec_transmitted_of_error h ?_, fun hop hlen => exec_transmitted_of_error h ?_,
    fun hop h4 hlen => exec_transmitted_of_error h ?_, fun hop hpayload => ?_⟩
  · exact frameEncode_of_unknown fun o ho e => hop (BitVec.eq_of_toNat_eq (Int.ofNat_inj.mp e) ▸ ho)
  · exact frameEncode_of_badDataAlign hop b.chip b.core b.hdata hlen
  · exact frameEncode_of_badDataLen hop b.chip b.core b.hdata h4 hlen
  · have hsent : exec i s = sendOp (wireBytes s.cfg.crc op b) s :=
      exec_transmitted_of_ok h (frameEncode_bytes hop hpayload)
    refine ⟨hsent, fun hfit u hu => ?_⟩
    have hone : sendBytes (wireBytes s.cfg.crc op b) s = (u, s.draws.sends.now) := by
      rw [sendBytes_oneChunk (by rwa [wireBytes_length]), hu]
      rfl
    rw [hsent]
    cases hdraw : s.draws.sends.now with
    | true => exact sendOp_of_done (hdraw ▸ hone)
    | false => exact sendOp_of_failed (hdraw ▸ hone)

/-! ## Chunks (45_transport R232) -/

/-- The `i`-th full piece of `m` bytes. -/
theorem length_piece {b : Bytes} {m i : Nat} (h : (i + 1) * m ≤ b.length) : ((b.drop (i * m)).take m).length = m := by
  rw [List.length_take, List.length_drop]
  rw [Nat.add_mul, Nat.one_mul] at h
  omega

/-- The first `n` pieces are the first `n * m` bytes. -/
theorem flatten_pieces (b : Bytes) (m : Nat) : ∀ n : Nat,
    ((List.range n).map (fun i => (b.drop (i * m)).take m)).flatten = b.take (n * m)
  | 0 => by simp
  | n + 1 => by
    rw [List.range_succ, List.map_append, List.flatten_append, flatten_pieces b m n, Nat.add_mul, Nat.one_mul,
      List.take_add]
    simp

theorem chunks_of_fits {m : Nat} {b : Bytes} (h : b.length ≤ m) : chunks m b = [b] := if_pos h

/-- The chunks of a message that does not fit: its full pieces, then what is left, which may be empty. -/
theorem chunks_of_long {m : Nat} {b : Bytes} (hm : 1 ≤ m) (h : m < b.length) :
    chunks m b = (List.range (b.length / m)).map (fun i => (b.drop (i * m)).take m)
      ++ [b.drop (b.length / m * m)] := by
  have hdiv := Nat.div_add_mod b.length m
  have hmod := Nat.mod_lt b.length hm
  rw [Nat.mul_comm] at hdiv
  rw [chunks, if_neg (Nat.not_le.mpr h)]
  by_cases h0 : b.length % m = 0
  · have hcount : (b.length + m - 1) / m = b.length / m := by
      rw [Nat.div_eq_iff (by omega)]
      omega
    rw [hcount, if_pos h0, List.drop_of_length_le (by omega)]
  · have hcount : (b.length + m - 1) / m = b.length / m + 1 := by
      rw [Nat.div_eq_iff (by omega), Nat.add_mul]
      omega
    rw [hcount, if_neg h0, List.append_nil, List.range_succ, List.map_append, List.map_singleton,
      List.take_of_length_le (by rw [List.length_drop]; omega)]

theorem flatten_chunks {m : Nat} {b : Bytes} (hm : 1 ≤ m) : (chunks m b).flatten = b := by
  by_cases h : b.length ≤ m
  · rw [chunks_of_fits h]
    simp
  · rw [chunks_of_long hm (Nat.lt_of_not_le h), List.flatten_append, flatten_pieces]
    simp

/-- Settles O18. -/
theorem sendChunksTheMessage : Obligations.SendChunksTheMessage := by
  intro s b hm
  obtain ⟨hall, hfirst⟩ := sendChunks_eq (chunks s.cfg.maxSendSize b) s
  refine ⟨chunks s.cfg.maxSendSize b, flatten_chunks hm, chunks_of_fits, fun hlong => ?_,
    fun h => sendOp_of_done (hall h), fun i hi hbefore hfail => sendOp_of_failed (hfirst i hi hbefore hfail)⟩
  have hdiv := Nat.div_add_mod b.length s.cfg.maxSendSize
  rw [Nat.mul_comm] at hdiv
  rw [chunks_of_long hm hlong]
  refine ⟨by simp, fun i hi => ?_, ?_⟩
  · have hpiece : (i + 1) * s.cfg.maxSendSize ≤ b.length :=
      (Nat.mul_le_mul_right _ hi).trans (Nat.div_mul_le_self _ _)
    rw [List.getElem?_append_left (by simpa using hi), List.getElem?_map, List.getElem?_range hi]
    exact congrArg some (length_piece hpiece)
  · rw [List.getElem?_append_right (by simp)]
    simp only [List.length_map, List.length_range, Nat.sub_self, List.getElem?_cons_zero, Option.map_some,
      List.length_drop]
    congr 1
    omega

/-! ## Inputs outside the block (log 13, 24, 25, 26) -/

theorem exec_seqNext_missing {s : State} {d : Byte} (h : s.ses.dies.toNat ≤ d.toNat) :
    exec (.seqNext d) s = .fault .noSuchDie := by
  change execSeqNext d s = _
  rw [execSeqNext, dieAt_missing h]

/-- ISSUE_ONE in Running at a time that does not go back. -/
theorem exec_cycleIssueOne_running {s : State} {now : Nat} (d c : Byte) (hrun : s.ses.sstate = .running)
    (htime : timeOk s now) : exec (.cycleIssueOne d c now) s
      = match dieAt s d with
        | none => .fault .noSuchDie
        | some die =>
          if c.toNat < s.ses.cores.toNat then cycleEnds (issueOn d c now die (s.withLastNow (some now))).caught
          else .fault .noSuchCore := by
  have hrun' : ¬ (s.withLastNow (some now)).ses.sstate ≠ .running := not_not.mpr hrun
  rw [exec_cycleIssueOne, inCycle_ok (live_of_running hrun) htime, if_neg hrun']
  rfl

/-- Settles O19. -/
theorem outOfBlockInputsStop : Obligations.OutOfBlockInputsStop := by
  intro s
  refine ⟨fun i op b h hpayload => exec_received_refused h hpayload s,
    fun f hpayload => if_neg (Bool.eq_false_iff.mp hpayload), fun g hlen => if_neg hlen,
    fun d hd => exec_seqNext_missing hd, fun now t ht hlt => ?_, fun d c now hrun htime => ⟨fun hd => ?_, ?_⟩⟩
  · refine ⟨fun th cancel rx => ?_, ?_, fun nr => ?_, fun th => ?_, fun d c => ?_, ?_⟩
    · rw [exec_cycle, inCycle_refused ht hlt]
    · rw [exec_cycleInitTick, inCycle_refused ht hlt]
    · rw [exec_cycleNonceReport, inCycle_refused ht hlt]
    · rw [exec_cycleIssueAll, inCycle_refused ht hlt]
    · rw [exec_cycleIssueOne, inCycle_refused ht hlt]
    · rw [exec_cycleReportTick, inCycle_refused ht hlt]
  · rw [exec_cycleIssueOne_running d c hrun htime, dieAt_missing hd]
  · intro die hd hdie hc
    have hat : dieAt s d = some die := dieAt_eq_some.mpr ⟨hd, hdie⟩
    rw [exec_cycleIssueOne_running d c hrun htime, hat]
    exact if_neg (Nat.not_lt.mpr hc)

end Sys2Proof.Machine
end

section
/-! PROOFS. The work table and the bookkeeping of one issue: reads and members of a table, a core's last sequence, what
an issue leaves in the table and that it keeps a die sound; and O59. -/

namespace Sys2Proof.Machine

/-! ## Members of a table in canonical form (20_memory R49) -/

theorem mem_of_workGet {w : List (Half × WorkRecord)} {k : Half} {r : WorkRecord} (h : workGet w k = some r) :
    (k, r) ∈ w := by
  induction w with
  | nil => cases h
  | cons a rest ih =>
    obtain ⟨k', r'⟩ := a
    by_cases hk : k' = k
    · rw [workGet, if_pos hk] at h
      exact hk ▸ Option.some.inj h ▸ List.mem_cons_self
    · rw [workGet, if_neg hk] at h
      exact List.mem_cons_of_mem _ (ih h)

/-- In a table in canonical form a read finds exactly the records in it. -/
theorem workGet_eq_some_iff {w : List (Half × WorkRecord)} (hok : workOk w = true) {k : Half} {r : WorkRecord} :
    workGet w k = some r ↔ (k, r) ∈ w := by
  refine ⟨mem_of_workGet, fun hmem => ?_⟩
  rw [workOk_iff] at hok
  induction w with
  | nil => cases hmem
  | cons a rest ih =>
    obtain ⟨hlt, hrest⟩ := List.pairwise_cons.mp hok
    rcases List.mem_cons.mp hmem with rfl | hmem
    · exact if_pos rfl
    · have hne : a.1 ≠ k := fun e => absurd (hlt _ hmem) (by simp [e])
      exact (if_neg hne).trans (ih hrest hmem)

/-! ## A core's last sequence (20_memory R49) -/

theorem coreSeqAt_withCoreSeq_self {die : DieState} {c : Byte} (h : c.toNat < die.coreSeq.length) (v : Half) :
    coreSeqAt (die.withCoreSeq c v) c = some v := by
  simp [coreSeqAt, DieState.withCoreSeq, h]

theorem coreSeqAt_withCoreSeq_ne {die : DieState} {c c' : Byte} (h : c' ≠ c) (v : Half) :
    coreSeqAt (die.withCoreSeq c v) c' = coreSeqAt die c' := by
  have hne : c.toNat ≠ c'.toNat := fun e => h (BitVec.eq_of_toNat_eq e.symm)
  simp [coreSeqAt, DieState.withCoreSeq, List.getD_eq_getElem?_getD, hne]

/-- A core with a last sequence exists. -/
theorem lt_of_coreSeqAt {die : DieState} {c : Byte} {q : Half} (h : coreSeqAt die c = some q) :
    c.toNat < die.coreSeq.length := by
  by_contra hge
  rw [coreSeqAt, List.getD_eq_getElem?_getD, List.getElem?_eq_none (Nat.le_of_not_lt hge)] at h
  cases h

/-! ## The table without a core's last record (44_scheduler R214) -/

/-- The record under the core's last sequence goes if it is that core's; every other key keeps what it had. -/
theorem workGet_workWithout (die : DieState) (c : Byte) (k : Half) : workGet (workWithout die c) k
    = if coreSeqAt die c = some k then (workGet die.work k).filter (fun w => w.core ≠ c) else workGet die.work k := by
  unfold workWithout
  cases hseq : coreSeqAt die c with
  | none => simp
  | some old =>
    by_cases hk : old = k
    · subst hk
      cases hget : workGet die.work old with
      | none => simp [hget]
      | some w => by_cases hc : w.core = c <;> simp [hc, hget, Option.filter_some]
    · have hdel : workGet (workDelete die.work old) k = workGet die.work k := workGet_workDelete_ne (Ne.symm hk)
      simp only [Option.some.injEq, hk, if_false]
      cases workGet die.work old with
      | none => rfl
      | some w => by_cases hc : w.core = c <;> simp [hc, hdel]

theorem workWithout_subset {die : DieState} {c : Byte} {e : Half × WorkRecord} (h : e ∈ workWithout die c) :
    e ∈ die.work := by
  unfold workWithout at h
  split at h
  · exact h
  · split at h
    · exact h
    · split at h
      · exact List.mem_of_mem_filter h
      · exact h

theorem workWithout_ok {die : DieState} (h : workOk die.work = true) (c : Byte) : workOk (workWithout die c) = true := by
  unfold workWithout
  split
  · exact h
  · split
    · exact h
    · split
      · exact workDelete_ok h _
      · exact h

/-! ## A sound die -/

/-- A sound die's record is found under the last sequence of its core. -/
theorem dieInv_record {cores : Byte} {d : Nat} {die : DieState} (h : dieInv cores d die) {k : Half} {w : WorkRecord}
    (hget : workGet die.work k = some w) : w.die.toNat = d ∧ coreSeqAt die w.core = some k := by
  obtain ⟨-, -, hrecords, -⟩ := h
  exact hrecords _ (mem_of_workGet hget)

/-- In a sound die all records of the core go. -/
theorem workGet_workWithout_of_dieInv {cores : Byte} {d : Nat} {die : DieState} (h : dieInv cores d die) (c : Byte)
    (k : Half) : workGet (workWithout die c) k = (workGet die.work k).filter (fun w => w.core ≠ c) := by
  rw [workGet_workWithout]
  split
  · rfl
  · rename_i hseq
    cases hget : workGet die.work k with
    | none => rfl
    | some w =>
      have hcore : w.core ≠ c := fun e => hseq (e ▸ (dieInv_record h hget).2)
      simp [Option.filter_some, hcore]

theorem mem_workWithout_of_dieInv {cores : Byte} {d : Nat} {die : DieState} (h : dieInv cores d die) {c : Byte}
    {e : Half × WorkRecord} (he : e ∈ workWithout die c) : e ∈ die.work ∧ e.2.core ≠ c := by
  obtain ⟨-, hok, -⟩ := id h
  refine ⟨workWithout_subset he, ?_⟩
  have hget := (workGet_eq_some_iff (workWithout_ok hok c)).mpr (show (e.1, e.2) ∈ workWithout die c from he)
  rw [workGet_workWithout_of_dieInv h, Option.filter_eq_some_iff] at hget
  exact of_decide_eq_true hget.2

/-! ## One issue (44_scheduler R213, R214) -/

section
variable (die : DieState) (d c : Byte) (now : Nat) (job : HashJob)

@[simp] theorem issuedDie_seqNext : (issuedDie die d c now job).seqNext = die.seqNext + 1 := rfl
@[simp] theorem issuedDie_lastSeqSeen : (issuedDie die d c now job).lastSeqSeen = die.lastSeqSeen := rfl
@[simp] theorem issuedDie_freeActive : (issuedDie die d c now job).freeActive = die.freeActive := rfl
@[simp] theorem issuedDie_freePending : (issuedDie die d c now job).freePending = die.freePending := rfl
@[simp] theorem issuedDie_thermal : (issuedDie die d c now job).thermal = die.thermal := rfl
@[simp] theorem issuedDie_monitor : (issuedDie die d c now job).monitor = die.monitor := rfl

/-- The record of an issue. -/
def issueRecord : WorkRecord :=
  { issueTime := now, job := job, searchDifficulty := job.searchDifficulty, die := d, core := c }

theorem issuedDie_work : (issuedDie die d c now job).work
    = workPut (workWithout die c) die.seqNext (issueRecord d c now job) := rfl

theorem coreSeqAt_issuedDie_ne {c' : Byte} (h : c' ≠ c) :
    coreSeqAt (issuedDie die d c now job) c' = coreSeqAt die c' :=
  coreSeqAt_withCoreSeq_ne (die := { seqAdvanced die with
    work := workPut (workWithout die c) (seqTaken die) (issueRecord d c now job) }) h _

variable {die c}

theorem coreSeqAt_issuedDie_self (h : c.toNat < die.coreSeq.length) :
    coreSeqAt (issuedDie die d c now job) c = some die.seqNext :=
  coreSeqAt_withCoreSeq_self (die := { seqAdvanced die with
    work := workPut (workWithout die c) (seqTaken die) (issueRecord d c now job) }) h _

/-- An issue to a core that exists keeps the die sound. -/
theorem issuedDie_dieInv {cores : Byte} (h : dieInv cores d.toNat die) (hc : c.toNat < cores.toNat) :
    dieInv cores d.toNat (issuedDie die d c now job) := by
  obtain ⟨hlen, hok, hrecords, hact, hactNodup, hpen, hpenNodup⟩ := id h
  refine ⟨(List.length_set ..).trans hlen, workPut_ok (workWithout_ok hok c) _ _, fun e he => ?_, hact, hactNodup, hpen,
    hpenNodup⟩
  rcases mem_workPut he with rfl | he
  · exact ⟨rfl, coreSeqAt_issuedDie_self d now job (hlen ▸ hc)⟩
  · obtain ⟨hmem, hcore⟩ := mem_workWithout_of_dieInv h he
    obtain ⟨hdie, hseq⟩ := hrecords e hmem
    exact ⟨hdie, (coreSeqAt_issuedDie_ne die d c now job hcore).trans hseq⟩

end

/-! ## The dies of a sound session -/

/-- Every die of a sound session is sound at its index. -/
theorem dies_sound_iff (x : Session) : (∀ p ∈ x.die.zipIdx, dieInv x.cores p.2 p.1)
    ↔ ∀ (d : Nat) (die : DieState), x.die[d]? = some die → dieInv x.cores d die := by
  constructor
  · exact fun h d die hd => h (die, d) (List.mem_zipIdx_iff_getElem?.mpr hd)
  · exact fun h p hp => h p.2 p.1 (List.mem_zipIdx_iff_getElem?.mp hp)

theorem sessionInv_die {x : Session} (h : sessionInv x) {d : Nat} {die : DieState} (hd : x.die[d]? = some die) :
    dieInv x.cores d die := by
  obtain ⟨-, -, -, hdies⟩ := h
  exact (dies_sound_iff x).mp hdies d die hd

/-- A sound die's records are one per core. -/
theorem dieInv_core_injective {cores : Byte} {d : Nat} {die : DieState} (h : dieInv cores d die)
    {e e' : Half × WorkRecord} (he : e ∈ die.work) (he' : e' ∈ die.work) (hcore : e.2.core = e'.2.core) : e = e' := by
  obtain ⟨-, hok, hrecords, -⟩ := h
  have hkey : e.1 = e'.1 := by
    have hseq := (hrecords e he).2
    rw [hcore, (hrecords e' he').2] at hseq
    exact (Option.some.inj hseq).symm
  have hget := (workGet_eq_some_iff hok).mpr (show (e.1, e.2) ∈ die.work from he)
  rw [hkey, (workGet_eq_some_iff hok).mpr (show (e'.1, e'.2) ∈ die.work from he')] at hget
  exact Prod.ext hkey (Option.some.inj hget).symm

/-- A sound die has no more records than there are cores: their cores are distinct numbers below the count. -/
theorem dieInv_work_length {cores : Byte} {d : Nat} {die : DieState} (h : dieInv cores d die) :
    die.work.length ≤ cores.toNat := by
  obtain ⟨hlen, hok, hrecords, -⟩ := id h
  have hnodup : die.work.Nodup := ((workOk_iff _).mp hok).imp fun hlt e => by simp [e] at hlt
  have hcores : (die.work.map (fun e => e.2.core.toNat)).Nodup :=
    hnodup.map_on fun e he e' he' hcore => dieInv_core_injective h he he' (BitVec.eq_of_toNat_eq hcore)
  have hbelow : die.work.map (fun e => e.2.core.toNat) ⊆ List.range cores.toNat := by
    intro n hn
    obtain ⟨e, he, rfl⟩ := List.mem_map.mp hn
    exact List.mem_range.mpr (hlen ▸ lt_of_coreSeqAt (hrecords e he).2)
  simpa using (hcores.subperm hbelow).length_le

/-- Settles O59. -/
theorem workHoldsOneRecordPerCore : Obligations.WorkHoldsOneRecordPerCore := by
  intro s die hinv hmem
  obtain ⟨d, hd⟩ := List.mem_iff_getElem?.mp hmem
  have hdie : dieInv s.ses.cores d die := sessionInv_die hinv hd
  obtain ⟨-, hok, -⟩ := id hdie
  exact ⟨dieInv_work_length hdie, fun e he e' he' hcore => dieInv_core_injective hdie he he' hcore,
    fun k w => workGet_eq_some_iff hok⟩

end Sys2Proof.Machine
end

section
/-! PROOFS. What a step changes, said once: a session edited (nothing but counters, timers and the insides of its dies),
a session moved on (edited, started or ended), the two inside a cycle, and at last by every step of the machine; O58 and
O60 from the last.

Each is said with the half of the invariant as a premise `sound`: what holds of every state is said with `sound` false,
what is kept of a sound one with `sound` true, in one induction over the model's functions. -/

namespace Sys2Proof.Machine

/-! ## A session edited -/

/-- What a step of a session does short of starting or ending it. -/
structure Edits (sound : Prop) (x y : Session) : Prop where
  sstate     : y.sstate = x.sstate
  termReason : y.termReason = x.termReason
  dies       : y.dies = x.dies
  cores      : y.cores = x.cores
  fwRev      : y.fwRev = x.fwRev
  hwRev      : y.hwRev = x.hwRev
  serial     : y.serial = x.serial
  coreOk     : y.coreOk = x.coreOk
  die_length : y.die.length = x.die.length
  inv        : sound → sessionInv x → sessionInv y

section Edits
variable {sound : Prop}

theorem Edits.refl (x : Session) : Edits sound x x := ⟨rfl, rfl, rfl, rfl, rfl, rfl, rfl, rfl, rfl, fun _ h => h⟩

theorem Edits.trans {x y z : Session} (h : Edits sound x y) (h' : Edits sound y z) : Edits sound x z :=
  ⟨h'.sstate.trans h.sstate, h'.termReason.trans h.termReason, h'.dies.trans h.dies, h'.cores.trans h.cores,
    h'.fwRev.trans h.fwRev, h'.hwRev.trans h.hwRev, h'.serial.trans h.serial, h'.coreOk.trans h.coreOk,
    h'.die_length.trans h.die_length, fun hs hx => h'.inv hs (h.inv hs hx)⟩

/-- Counters and timers written. -/
theorem Edits.figures (x : Session) (initTx report : Option Nat) (unknownSeq badNonce badDie protocol good hashes : Nat)
    (first : Option Nat) : Edits sound x { x with
      lastInitTx := initTx, lastReport := report, errUnknownSeq := unknownSeq, errBadNonce := badNonce,
      errBadDie := badDie, errProtocol := protocol, goodNonces := good, totalHashes := hashes, firstGood := first } :=
  ⟨rfl, rfl, rfl, rfl, rfl, rfl, rfl, rfl, rfl, fun _ h => h⟩

/-- One die written, and kept sound. -/
theorem Edits.setDie {x : Session} {d : Nat} {die die' : DieState} (hd : x.die[d]? = some die)
    (hdie : sound → dieInv x.cores d die → dieInv x.cores d die') :
    Edits sound x { x with die := x.die.set d die' } := by
  refine ⟨rfl, rfl, rfl, rfl, rfl, rfl, rfl, rfl, List.length_set .., fun hs hinv => ?_⟩
  obtain ⟨hstart, hlen, hreason, -⟩ := id hinv
  refine ⟨fun h => by rw [hstart h]; rfl, (List.length_set ..).trans hlen, hreason, ?_⟩
  refine (dies_sound_iff { x with die := x.die.set d die' }).mpr fun i other hi => ?_
  by_cases h : d = i
  · subst h
    obtain rfl : die' = other := by
      rw [List.getElem?_set_self (List.getElem?_eq_some_iff.mp hd).1] at hi
      exact Option.some.inj hi
    exact hdie hs (sessionInv_die hinv hd)
  · rw [List.getElem?_set_ne h] at hi
    exact sessionInv_die hinv hi

theorem Edits.of_eq {x y : Session} (h : y = x) : Edits sound x y := by
  rw [h]
  exact Edits.refl x

/-- A die that exists written. -/
theorem Edits.withDie {s : State} {d : Byte} {die die' : DieState} (hd : dieAt s d = some die)
    (hdie : sound → dieInv s.ses.cores d.toNat die → dieInv s.ses.cores d.toNat die') :
    Edits sound s.ses (s.withDie d die').ses :=
  Edits.setDie (dieAt_eq_some.mp hd).2 hdie

/-! ## The operations that edit a session -/

theorem Edits.tx (op : Byte) (b : FrameBody) (s : State) : Edits sound s.ses (Machine.tx op b s).state.ses :=
  Edits.of_eq (tx_ses op b s)

theorem Edits.andThen {x : Session} {r : Run} {k : State → Run} (h : Edits sound x r.state.ses)
    (hk : ∀ t, Edits sound x t.ses → Edits sound t.ses (k t).state.ses) :
    Edits sound x (r.andThen k).state.ses := by
  cases r with
  | done t => exact Edits.trans h (hk t h)
  | raise e t => exact h

theorem Edits.whenIn {x : SState} {k : State → Run} {s : State}
    (hk : s.ses.sstate = x → Edits sound s.ses (k s).state.ses) : Edits sound s.ses (whenIn x k s).state.ses := by
  unfold Machine.whenIn
  split
  · exact hk ‹_›
  · exact Edits.refl _

theorem Edits.initTick (now : Nat) (s : State) : Edits sound s.ses (Machine.initTick now s).state.ses := by
  unfold Machine.initTick
  split
  · exact Edits.andThen (Edits.tx _ _ s) fun t _ => Edits.figures t.ses _ _ _ _ _ _ _ _ _
  · exact Edits.refl _

theorem Edits.reportTick (now : Nat) (s : State) : Edits sound s.ses (Machine.reportTick now s).ses := by
  unfold Machine.reportTick
  split
  · exact Edits.figures s.ses _ _ _ _ _ _ _ _ _
  · exact Edits.refl _

theorem Edits.logToken (t : Token) (s : State) : Edits sound s.ses (Machine.logToken t s).ses := by
  unfold Machine.logToken
  split <;> exact Edits.refl _

theorem Edits.checkNonce (d : Byte) (now : Nat) (s : State) (cand : CandidateNonce) :
    Edits sound s.ses (Machine.checkNonce d now s cand).ses := by
  unfold Machine.checkNonce goodNonce
  split
  · exact Edits.figures s.ses _ _ _ _ _ _ _ _ _
  · split <;> exact Edits.figures s.ses _ _ _ _ _ _ _ _ _

theorem Edits.nonceReport (nr : NonceReport) (now : Nat) (s : State) :
    Edits sound s.ses (Machine.nonceReport nr now s).ses := by
  unfold Machine.nonceReport
  generalize nr.nonces = l
  induction l generalizing s with
  | nil => exact Edits.refl _
  | cons cand rest ih => exact (Edits.checkNonce _ _ s cand).trans (ih _)

/-- The indices below a count name existing cores, each once. -/
theorem indicesBelow_nodup (n : Byte) : (indicesBelow n).Nodup := by
  refine List.Nodup.map_on (fun i hi j hj h => ?_) List.nodup_range
  have hn := n.isLt
  rw [List.mem_range] at hi hj
  have := congrArg BitVec.toNat h
  rw [BitVec.toNat_ofNat, BitVec.toNat_ofNat] at this
  omega

theorem mem_indicesBelow {n c : Byte} : c ∈ indicesBelow n ↔ c.toNat < n.toNat := by
  have hn := n.isLt
  simp only [indicesBelow, List.mem_map, List.mem_range]
  constructor
  · rintro ⟨i, hi, rfl⟩
    rw [BitVec.toNat_ofNat]
    omega
  · exact fun h => ⟨c.toNat, h, by simp⟩

/-- Any order of some of the cores that exist is a free list. -/
theorem freeList_of_shuffle (code : List Nat) (cores : Byte) (p q : Byte → Bool) :
    (∀ c ∈ shuffle code (((indicesBelow cores).filter p).filter q), c.toNat < cores.toNat)
    ∧ (shuffle code (((indicesBelow cores).filter p).filter q)).Nodup := by
  have hperm := shuffle_perm code (((indicesBelow cores).filter p).filter q)
  refine ⟨fun c hc => ?_, hperm.nodup_iff.mpr (((indicesBelow_nodup cores).filter p).filter q)⟩
  exact mem_indicesBelow.mp (List.mem_of_mem_filter (List.mem_of_mem_filter (hperm.mem_iff.mp hc)))

theorem Edits.reconcile {s : State} {d : Byte} {die : DieState} (hd : dieAt s d = some die) (st : StatusReport) :
    Edits sound s.ses (Machine.reconcile d die st s).ses := by
  refine Edits.withDie (s := s.shuffleDrawn.shuffleDrawn) hd fun _ h => ?_
  obtain ⟨hlen, hok, hrecords, -⟩ := h
  obtain ⟨hact, hactNodup⟩ := freeList_of_shuffle s.draws.shuffles.now s.ses.cores
    (fun c => bitAt st.bitmap (2 * c.toNat)) (eligible die st.lastSeq)
  obtain ⟨hpen, hpenNodup⟩ := freeList_of_shuffle s.shuffleDrawn.draws.shuffles.now s.ses.cores
    (fun c => bitAt st.bitmap (2 * c.toNat + 1)) (eligible die st.lastSeq)
  exact ⟨hlen, hok, hrecords, hact, hactNodup, hpen, hpenNodup⟩

theorem Edits.issueOn {s : State} {d c : Byte} (now : Nat) {die : DieState} (hd : dieAt s d = some die)
    (hc : sound → c.toNat < s.ses.cores.toNat) : Edits sound s.ses (Machine.issueOn d c now die s).state.ses := by
  refine Edits.trans ?_ (Edits.tx _ _ _)
  exact Edits.withDie (s := s.jobDrawn) hd fun hs h => issuedDie_dieInv d now _ h (hc hs)

theorem Edits.issueOne {s : State} (d : Byte) {c : Byte} (now : Nat) (hc : sound → c.toNat < s.ses.cores.toNat) :
    Edits sound s.ses (Machine.issueOne d c now s).state.ses := by
  unfold Machine.issueOne
  split
  · exact Edits.refl _
  · exact Edits.issueOn now ‹_› hc

theorem Edits.issueCores (d : Byte) (now : Nat) (l : List Byte) : ∀ s : State,
    (sound → ∀ c ∈ l, c.toNat < s.ses.cores.toNat) → Edits sound s.ses (Machine.issueCores d now l s).state.ses := by
  induction l with
  | nil => exact fun s _ => Edits.refl _
  | cons c rest ih =>
    intro s hl
    refine Edits.andThen (Edits.issueOne d now fun hs => hl hs c List.mem_cons_self) fun t ht => ih t fun hs c' hc' => ?_
    rw [ht.cores]
    exact hl hs c' (List.mem_cons_of_mem c hc')

theorem Edits.clearSlots (d : Byte) (s : State) : Edits sound s.ses (Machine.clearSlots d s).ses := by
  unfold Machine.clearSlots
  split
  · exact Edits.refl _
  · refine Edits.withDie ‹_› fun _ h => ?_
    obtain ⟨hlen, hok, hrecords, -⟩ := h
    exact ⟨hlen, hok, hrecords, by simp, List.nodup_nil, by simp, List.nodup_nil⟩

/-- The free lists of a sound session name existing cores. -/
theorem freeActiveOf_lt {s : State} (h : sessionInv s.ses) (d : Byte) :
    ∀ c ∈ freeActiveOf s d, c.toNat < s.ses.cores.toNat := by
  unfold freeActiveOf
  split
  · simp
  · obtain ⟨-, -, -, hact, -⟩ := sessionInv_die h (dieAt_eq_some.mp ‹_›).2
    exact hact

theorem freePendingOf_lt {s : State} (h : sessionInv s.ses) (d : Byte) :
    ∀ c ∈ freePendingOf s d, c.toNat < s.ses.cores.toNat := by
  unfold freePendingOf
  split
  · simp
  · obtain ⟨-, -, -, -, -, hpen, -⟩ := sessionInv_die h (dieAt_eq_some.mp ‹_›).2
    exact hpen

/-- The throttle leaves a part of the list. -/
theorem truncate_subset (c : Cfg) (l : List Byte) (t : Nat) : truncate c l t ⊆ l := by
  unfold truncate
  split
  · exact fun _ h => h
  · split
    · exact List.take_subset _ _
    · exact List.take_subset _ _

theorem Edits.issueDie (now throttle : Nat) (d : Byte) {s : State} (hs : sound → sessionInv s.ses) :
    Edits sound s.ses (Machine.issueDie now throttle d s).state.ses := by
  refine Edits.andThen (Edits.andThen (Edits.issueCores d now _ s fun h c hc => ?_) fun t ht => ?_)
    fun t _ => Edits.clearSlots d t
  · exact freeActiveOf_lt (hs h) d c (truncate_subset _ _ _ hc)
  · split
    · exact Edits.issueCores d now _ t fun h => freePendingOf_lt (ht.inv h (hs h)) d
    · exact Edits.refl _

theorem Edits.issueAll (now throttle : Nat) {s : State} (hs : sound → sessionInv s.ses) :
    Edits sound s.ses (Machine.issueAll now throttle s).state.ses := by
  unfold Machine.issueAll
  generalize indicesBelow s.ses.dies = l
  induction l generalizing s with
  | nil => exact Edits.refl _
  | cons d rest ih =>
    exact Edits.andThen (Edits.issueDie now throttle d hs) fun t ht => ih fun h => ht.inv h (hs h)

theorem Edits.cycleTail (now throttle : Nat) {s : State} (hs : sound → sessionInv s.ses) :
    Edits sound s.ses (Machine.cycleTail now throttle s).state.ses := by
  refine Edits.andThen (Edits.andThen (Edits.whenIn fun _ => Edits.initTick now s) fun t ht => ?_) fun t _ => ?_
  · exact Edits.whenIn fun _ => Edits.issueAll now throttle fun h => ht.inv h (hs h)
  · exact Edits.whenIn fun _ => Edits.reportTick now t

end Edits

/-! ## A session moved on -/

/-- What a step of a session does: it may also start or end it, but neither backwards nor twice. -/
structure Moves (sound : Prop) (x y : Session) : Prop where
  ended   : x.sstate = .terminated → y.sstate = .terminated ∧ y.termReason = x.termReason
  forward : x.sstate = .running → y.sstate ≠ .starting
  kept    : x.sstate ≠ .starting → y.dies = x.dies ∧ y.cores = x.cores ∧ y.fwRev = x.fwRev ∧ y.hwRev = x.hwRev
    ∧ y.serial = x.serial ∧ y.coreOk = x.coreOk ∧ y.die.length = x.die.length
  inv     : sound → sessionInv x → sessionInv y

section Moves
variable {sound : Prop}

theorem Edits.moves {x y : Session} (h : Edits sound x y) : Moves sound x y where
  ended hx := ⟨h.sstate.trans hx, h.termReason⟩
  forward hx := by
    rw [h.sstate, hx]
    decide
  kept _ := ⟨h.dies, h.cores, h.fwRev, h.hwRev, h.serial, h.coreOk, h.die_length⟩
  inv := h.inv

theorem Moves.refl (x : Session) : Moves sound x x := (Edits.refl x).moves

theorem Moves.trans {x y z : Session} (h : Moves sound x y) (h' : Moves sound y z) : Moves sound x z where
  ended hx := by
    obtain ⟨hy, hreason⟩ := h.ended hx
    exact ⟨(h'.ended hy).1, (h'.ended hy).2.trans hreason⟩
  forward hx := by
    cases hy : y.sstate with
    | starting => exact absurd hy (h.forward hx)
    | running => exact h'.forward hy
    | terminated =>
      rw [(h'.ended hy).1]
      decide
  kept hx := by
    have hy : y.sstate ≠ .starting := by
      cases hx' : x.sstate with
      | starting => exact absurd hx' hx
      | running => exact h.forward hx'
      | terminated =>
        rw [(h.ended hx').1]
        decide
    obtain ⟨h1, h2, h3, h4, h5, h6, h7⟩ := h.kept hx
    obtain ⟨k1, k2, k3, k4, k5, k6, k7⟩ := h'.kept hy
    exact ⟨k1.trans h1, k2.trans h2, k3.trans h3, k4.trans h4, k5.trans h5, k6.trans h6, k7.trans h7⟩
  inv hs hx := h'.inv hs (h.inv hs hx)

/-- TERMINATE of a session that has not ended (60_exceptions R253). -/
theorem Moves.terminate (r : TermReason) {s : State} (hlive : s.ses.sstate ≠ .terminated) :
    Moves sound s.ses (Machine.terminate r s).ses := by
  rw [terminate_ses]
  have hend : SState.terminated ≠ .starting := by decide
  refine ⟨fun h => absurd h hlive, fun _ => hend, fun _ => ⟨rfl, rfl, rfl, rfl, rfl, rfl, rfl⟩, fun _ hinv => ?_⟩
  obtain ⟨-, hlen, -, hdies⟩ := hinv
  exact ⟨fun h => absurd h hend, hlen, ⟨fun _ => rfl, fun _ => rfl⟩, hdies⟩

/-- A die as the acknowledgement creates it is sound (10_state R29). -/
theorem freshDie_dieInv (cores : Byte) (d : Nat) : dieInv cores d (freshDie cores) := by
  simp [dieInv, freshDie, workOk]

/-- The handshake starts a session in Starting. -/
theorem Moves.initAckOk (ia : InitAck) {s : State} (hstart : s.ses.sstate = .starting) :
    Moves sound s.ses (Machine.initAckOk ia s).ses := by
  refine ⟨fun h => ?_, fun h => ?_, fun h => absurd hstart h, fun _ hinv => ?_⟩
  · rw [hstart] at h
    cases h
  · rw [hstart] at h
    cases h
  · obtain ⟨-, -, hreason, -⟩ := hinv
    have hnone : ¬ s.ses.termReason.isSome = true := fun h => by
      have := hreason.mp h
      rw [hstart] at this
      cases this
    refine ⟨fun h => ?_, List.length_replicate, ⟨fun h => absurd h hnone, fun h => ?_⟩, ?_⟩
    · cases h
    · cases h
    · refine (dies_sound_iff (Machine.initAckOk ia s).ses).mpr fun d die hd => ?_
      obtain rfl : die = freshDie ia.cores := List.eq_of_mem_replicate (List.mem_of_getElem? hd)
      exact freshDie_dieInv ia.cores d

/-- A run caught, if nothing is raised but in a session that has not ended. -/
theorem Moves.caught {x : Session} {r : Run} (h : Moves sound x r.state.ses)
    (hlive : ∀ e t, r = .raise e t → t.ses.sstate ≠ .terminated) : Moves sound x r.caught.ses := by
  cases r with
  | done t => exact h
  | raise e t => exact h.trans (Moves.terminate _ (hlive e t rfl))

/-- A step that only edits the session, caught. -/
theorem Edits.caught {x : Session} {r : Run} (h : Edits sound x r.state.ses) (hlive : x.sstate ≠ .terminated) :
    Moves sound x r.caught.ses := by
  refine Moves.caught h.moves ?_
  rintro e t rfl
  rw [show t.ses.sstate = x.sstate from h.sstate]
  exact hlive

theorem statusReport_of_missing {st : StatusReport} {s : State} (hd : dieAt s st.base.chip = none) :
    statusReport st s = badDie st.base.chip s := by
  rw [statusReport, hd]

theorem statusReport_of_cool {st : StatusReport} {s : State} {die : DieState} (hd : dieAt s st.base.chip = some die)
    (h : st.thermal = false) : statusReport st s = reconcile st.base.chip die st s := by
  rw [statusReport, hd]
  exact if_neg (Bool.eq_false_iff.mp h)

theorem Moves.statusReport (st : StatusReport) {s : State} (hlive : s.ses.sstate ≠ .terminated) :
    Moves sound s.ses (Machine.statusReport st s).ses := by
  cases hd : dieAt s st.base.chip with
  | none =>
    rw [statusReport_of_missing hd]
    exact (Edits.figures s.ses _ _ _ _ _ _ _ _ _).moves
  | some die =>
    cases hthermal : st.thermal with
    | true =>
      have hmark : Edits sound s.ses (s.withDie st.base.chip { die with thermal := true }).ses :=
        Edits.withDie hd fun _ h => h
      rw [statusReport_of_thermal hd hthermal]
      exact hmark.moves.trans (Moves.terminate _ hlive)
    | false =>
      rw [statusReport_of_cool hd hthermal]
      exact (Edits.reconcile hd st).moves

/-- The dispatch of a token (44_scheduler R197, R198). -/
theorem Moves.dispatch (t : Token) (now : Nat) (s : State) : Moves sound s.ses (Machine.dispatch t now s).ses := by
  cases hstate : s.ses.sstate with
  | starting =>
    rw [dispatch_of_starting hstate]
    unfold dispatchStarting initAckStarting
    split
    · split
      · exact Moves.initAckOk _ hstate
      · exact Moves.terminate _ (live_of_starting hstate)
    · exact (Edits.logToken _ s).moves
  | running =>
    rw [dispatch_of_running hstate]
    unfold dispatchRunning
    split
    · exact (Edits.nonceReport _ _ s).moves
    · exact Moves.statusReport _ (live_of_running hstate)
    · exact Moves.refl _
    · exact (Edits.logToken _ s).moves
    · exact (Edits.logToken _ s).moves
    · exact (Edits.logToken _ s).moves
    · exact (Edits.trans (Edits.figures s.ses _ _ _ _ _ _ _ _ _) (Edits.logToken _ (s.withSes _))).moves
  | terminated =>
    rw [Machine.dispatch, hstate]
    exact Moves.refl _

theorem Moves.drainTokens (now : Nat) (l : List Token) : ∀ s : State,
    Moves sound s.ses (Machine.drainTokens now l s).ses := by
  induction l with
  | nil => exact fun s => Moves.refl _
  | cons t rest ih =>
    intro s
    have hone : Moves sound s.ses (Machine.dispatch t now (s.withPar s.par.tokenTaken)).ses :=
      Moves.dispatch t now (s.withPar s.par.tokenTaken)
    rw [Machine.drainTokens]
    split
    · exact hone
    · exact hone.trans (ih _)

theorem Moves.drain (now : Nat) (s : State) : Moves sound s.ses (Machine.drain now s).ses :=
  Moves.drainTokens now _ s

/-- The tail of a cycle, caught; after the session has ended it does nothing. -/
theorem cycleTail_of_terminated {s : State} (h : s.ses.sstate = .terminated) (now throttle : Nat) :
    cycleTail now throttle s = .done s := by
  have hother : ∀ x, x ≠ SState.terminated → ∀ k, whenIn x k s = .done s :=
    fun x hx k => whenIn_of_other (by rw [h]; exact Ne.symm hx) k
  rw [cycleTail, hother _ (by decide), Run.andThen_done, hother _ (by decide), Run.andThen_done, hother _ (by decide)]

theorem Moves.cycleTail (now throttle : Nat) {s : State} (hs : sound → sessionInv s.ses) :
    Moves sound s.ses (Machine.cycleTail now throttle s).caught.ses := by
  by_cases h : s.ses.sstate = .terminated
  · rw [cycleTail_of_terminated h]
    exact Moves.refl _
  · exact Edits.caught (Edits.cycleTail now throttle hs) h

end Moves

/-! ## Inside a cycle -/

/-- What a part of a cycle does: to the session as `Moves` says, outside it to the parser, the bytes that wait, the
draws and the two traces, which only grow. -/
structure CycleStep (sound : Prop) (s t : State) : Prop where
  cfg     : t.cfg = s.cfg
  calls   : t.calls = s.calls
  lastNow : t.lastNow = s.lastNow
  sent    : s.sent <+: t.sent
  log     : s.log <+: t.log
  moves   : Moves sound s.ses t.ses
  inv     : sound → stateInv s → stateInv t

section CycleStep
variable {sound : Prop}

theorem CycleStep.refl (s : State) : CycleStep sound s s :=
  ⟨rfl, rfl, rfl, List.prefix_refl _, List.prefix_refl _, Moves.refl _, fun _ h => h⟩

theorem CycleStep.trans {s t u : State} (h : CycleStep sound s t) (h' : CycleStep sound t u) : CycleStep sound s u :=
  ⟨h'.cfg.trans h.cfg, h'.calls.trans h.calls, h'.lastNow.trans h.lastNow, h.sent.trans h'.sent, h.log.trans h'.log,
    h.moves.trans h'.moves, fun hs hi => h'.inv hs (h.inv hs hi)⟩

/-- A parser with some tokens gone from its queue's head is as sound as before. -/
theorem queueInv_of_suffix {c : Cfg} {p : Parser} {q : List Token} (h : queueInv c p) (hq : q <:+ p.queue) :
    queueInv c { p with queue := q } :=
  fun n hn => hq.length_le.trans (h n hn)

theorem DrainOnly.cycleStep {s t : State} (h : DrainOnly s t) (hm : Moves sound s.ses t.ses) :
    CycleStep sound s t := by
  refine ⟨h.cfg, h.calls, h.lastNow, h.sent, h.log, hm, fun hs hinv => ?_⟩
  obtain ⟨hpar, hses, hqueue, hwait⟩ := hinv
  refine ⟨?_, hm.inv hs hses, ?_, by rw [h.cfg, h.waiting]; exact hwait⟩
  · rw [h.cfg, h.par]
    exact hpar
  · rw [h.cfg, h.par]
    exact queueInv_of_suffix hqueue h.queue

theorem SessionOnly.drainOnly {s t : State} (h : SessionOnly s t) : DrainOnly s t :=
  ⟨h.cfg, h.par ▸ List.suffix_refl _, by rw [h.par], h.calls, h.waiting, h.lastNow, h.result, h.sent, h.log⟩

theorem SessionOnly.cycleStep {s t : State} (h : SessionOnly s t) (hm : Moves sound s.ses t.ses) :
    CycleStep sound s t :=
  h.drainOnly.cycleStep hm

theorem CycleStep.drain (now : Nat) (s : State) : CycleStep sound s (Machine.drain now s) :=
  (DrainOnly.drain now s).cycleStep (Moves.drain now s)

/-- Bytes fed to the parser, as far as it takes them. -/
theorem CycleStep.feedBytes (b : Bytes) (s : State) :
    CycleStep sound s (s.withPar (Machine.feedBytes s.cfg b s.par).1) := by
  refine ⟨rfl, rfl, rfl, List.prefix_refl _, List.prefix_refl _, Moves.refl _, fun _ hinv => ?_⟩
  obtain ⟨hpar, hses, hqueue, hwait⟩ := hinv
  exact ⟨feedBytes_parserInv hpar, hses, feedBytes_queueInv hqueue, hwait⟩

theorem CycleStep.feedByte {s : State} {x : Byte} {p : Parser} (h : Machine.feedByte s.cfg x s.par = .ok p) :
    CycleStep sound s (s.withPar p) := by
  have hfed : Machine.feedBytes s.cfg [x] s.par = (p, .all) := by rw [feedBytes_cons_ok h, feedBytes_nil]
  have hstep : CycleStep sound s _ := CycleStep.feedBytes [x] s
  rwa [hfed] at hstep

/-- An unbounded queue refuses no byte. -/
theorem feedByte_ne_full {c : Cfg} (h : c.tokenFifoDepth = none) (x : Byte) (p : Parser) :
    Machine.feedByte c x p ≠ .full := by
  have hroom : ∀ q : Parser, ∀ n ∈ c.tokenFifoDepth, q.queue.length < n := by simp [h]
  have hemit : ∀ t after, emitThen c p t after ≠ .full := fun t after => by simp [emitThen_room (hroom p)]
  unfold Machine.feedByte feedRule
  split
  · unfold feedOutOfSync
    split
    · split
      · exact hemit _ _
      · simp
    · split
      · simp
      · exact hemit _ _
  · simp [feedHeaderBody]
  · exact hemit _ _
  · unfold feedHeaderCrcOk
    split
    · exact hemit _ _
    · simp
  · unfold feedData
    split
    · simp
    · split
      · exact hemit _ _
      · simp
  · unfold feedNextFrame
    split <;> simp

/-- Bytes left to wait, which needs a bounded queue. -/
theorem CycleStep.withWaiting {s : State} {b : Bytes} (h : b = [] ∨ s.cfg.tokenFifoDepth ≠ none) :
    CycleStep sound s (s.withWaiting b) := by
  refine ⟨rfl, rfl, rfl, List.prefix_refl _, List.prefix_refl _, Moves.refl _, fun _ hinv => ?_⟩
  obtain ⟨hpar, hses, hqueue, -⟩ := hinv
  exact ⟨hpar, hses, hqueue, fun hnone => h.resolve_right (not_not.mpr hnone)⟩

/-- The bytes of a cycle: each is fed, after a drain where the queue is full (44_scheduler R190, log 19). -/
theorem CycleStep.cycleFeed (now : Nat) : ∀ (b : Bytes) (s : State), CycleStep sound s (Machine.cycleFeed now b s).state
  | [], s => CycleStep.refl s
  | x :: rest, s => by
    rw [Machine.cycleFeed]
    cases hx : Machine.feedByte s.cfg x s.par with
    | ok p => exact (CycleStep.feedByte hx).trans (CycleStep.cycleFeed now rest _)
    | inconsistent => exact CycleStep.refl s
    | full =>
      have hdrain : CycleStep sound s (Machine.drain now s) := CycleStep.drain now s
      have hbound : (Machine.drain now s).cfg.tokenFifoDepth ≠ none := by
        rw [hdrain.cfg]
        exact fun hnone => feedByte_ne_full hnone x s.par hx
      have hwait : CycleStep sound s ((Machine.drain now s).withWaiting (x :: rest)) :=
        hdrain.trans (CycleStep.withWaiting (.inr hbound))
      dsimp only
      split
      · exact hwait
      · split
        · exact hdrain.trans ((CycleStep.feedByte ‹_›).trans (CycleStep.cycleFeed now rest _))
        · exact hdrain
        · exact hwait

/-- The bytes of a cycle raise only in a session that has not ended: a drain that ends it stops the feed. -/
theorem cycleFeed_raise_live {now : Nat} {e : FaultCode} {t : State} : ∀ {b : Bytes} {s : State},
    s.ses.sstate ≠ .terminated → Machine.cycleFeed now b s = .raise e t → t.ses.sstate ≠ .terminated
  | [], s, _, h => by cases h
  | x :: rest, s, hlive, h => by
    rw [Machine.cycleFeed] at h
    cases hx : Machine.feedByte s.cfg x s.par with
    | ok p =>
      rw [hx] at h
      exact cycleFeed_raise_live (s := s.withPar p) hlive h
    | inconsistent =>
      rw [hx] at h
      cases h
      exact hlive
    | full =>
      rw [hx] at h
      dsimp only at h
      split at h
      · cases h
      · rename_i hdrained
        split at h
        · rename_i p _
          exact cycleFeed_raise_live (s := (Machine.drain now s).withPar p) hdrained h
        · cases h
          exact hdrained
        · cases h

theorem SessionOnly.whenIn {x : SState} {k : State → Run} (hk : ∀ s, SessionOnly s (k s).state) (s : State) :
    SessionOnly s (Machine.whenIn x k s).state := by
  unfold Machine.whenIn
  split
  · exact hk s
  · exact SessionOnly.refl s

theorem SessionOnly.cycleTail (now throttle : Nat) (s : State) :
    SessionOnly s (Machine.cycleTail now throttle s).state :=
  SessionOnly.andThen (SessionOnly.andThen (SessionOnly.whenIn (SessionOnly.initTick now) s)
    (SessionOnly.whenIn (SessionOnly.issueAll now throttle))) (SessionOnly.whenIn (SessionOnly.reportTick now))

theorem stateInv_session {s : State} (h : stateInv s) : sessionInv s.ses := by
  obtain ⟨-, hses, -⟩ := h
  exact hses

theorem CycleStep.cycleTail (now throttle : Nat) {s : State} (hs : sound → stateInv s) :
    CycleStep sound s (Machine.cycleTail now throttle s).caught :=
  (SessionOnly.caught (SessionOnly.cycleTail now throttle s)).cycleStep
    (Moves.cycleTail now throttle fun h => stateInv_session (hs h))

theorem CycleStep.terminate (r : TermReason) {s : State} (hlive : s.ses.sstate ≠ .terminated) :
    CycleStep sound s (Machine.terminate r s) :=
  (SessionOnly.terminate r s).cycleStep (Moves.terminate r hlive)

theorem CycleStep.cycleBytes (now throttle : Nat) (b : Bytes) {s : State} (hs : sound → stateInv s)
    (hlive : s.ses.sstate ≠ .terminated) : CycleStep sound s (Machine.cycleBytes now throttle b s) := by
  have hrx : CycleStep sound s (cycleRx now b s).state :=
    (CycleStep.withWaiting (.inl rfl)).trans (CycleStep.cycleFeed now (s.waiting ++ b) (s.withWaiting []))
  unfold Machine.cycleBytes
  cases hrun : cycleRx now b s with
  | raise e t =>
    rw [hrun] at hrx
    exact hrx.trans (CycleStep.terminate _ (cycleFeed_raise_live (s := s.withWaiting []) hlive hrun))
  | done t =>
    rw [hrun] at hrx
    rw [Run.andThen_done]
    split
    · exact hrx
    · have hdrain := hrx.trans (CycleStep.drain now t)
      exact hdrain.trans (CycleStep.cycleTail now throttle fun h => hdrain.inv h (hs h))

/-- A cycle of a session that has not ended. -/
theorem CycleStep.cycleBody (now throttle : Nat) (cancel : Bool) (rx : Rx) {s : State} (hs : sound → stateInv s)
    (hlive : s.ses.sstate ≠ .terminated) : CycleStep sound s (Machine.cycleBody now throttle cancel rx s) := by
  unfold Machine.cycleBody
  split
  · exact CycleStep.terminate _ hlive
  · split
    · exact CycleStep.terminate _ hlive
    · exact CycleStep.cycleBytes now throttle _ hs hlive

end CycleStep

/-! ## A CYCLE as a step -/

/-- A CYCLE at a time that does not go back: it completes, in a session that has ended too. -/
theorem exec_cycle_completes (sound : Prop) {s : State} {now : Nat} (throttle : Nat) (cancel : Bool) (rx : Rx)
    (hs : sound → stateInv s) (htime : timeOk s now) :
    ∃ t, exec (.cycle now throttle cancel rx) s = cycleEnds t ∧ CycleStep sound (s.withLastNow (some now)) t := by
  rw [exec_cycle]
  by_cases h : s.ses.sstate = .terminated
  · refine ⟨s.withLastNow (some now), ?_, CycleStep.refl _⟩
    rw [inCycle_terminated h htime]
    exact (cycleEnds_of_terminated (s := s.withLastNow (some now)) h).symm
  · exact ⟨_, inCycle_ok h htime, CycleStep.cycleBody now throttle cancel rx (s := s.withLastNow (some now)) hs h⟩

/-- Settles O55. -/
theorem cycleAlwaysCompletes : Obligations.CycleAlwaysCompletes := by
  intro s now throttle cancel rx htime
  obtain ⟨t, hexec, hstep⟩ := exec_cycle_completes False throttle cancel rx (fun h => h.elim) htime
  obtain ⟨calls, hsent⟩ := hstep.sent
  obtain ⟨events, hlog⟩ := hstep.log
  refine ⟨t.withResult (.outcome (outcomeOf t)), hexec, fun h => ?_, fun h => ?_, hstep.lastNow, hstep.cfg, hstep.calls,
    ⟨calls, hsent.symm⟩, events, hlog.symm⟩
  · exact congrArg Result.outcome (if_pos h)
  · exact congrArg Result.outcome (if_neg h)

/-! ## Every step of the machine -/

/-- What a step does, unless SESSION_RESET is asked. -/
structure Evolves (sound : Prop) (s t : State) : Prop where
  cfg     : t.cfg = s.cfg
  lastNow : ∀ x ∈ s.lastNow, ∃ y ∈ t.lastNow, x ≤ y
  moves   : Moves sound s.ses t.ses
  inv     : sound → stateInv s → stateInv t

section Evolves
variable {sound : Prop}

theorem CycleStep.evolves {s t : State} (h : CycleStep sound s t) : Evolves sound s t :=
  ⟨h.cfg, fun x hx => ⟨x, h.lastNow ▸ hx, le_rfl⟩, h.moves, h.inv⟩

/-- The result, the requests and the time do not count among what a step changes. -/
theorem Evolves.withResult {s t : State} (h : Evolves sound s t) (r : Result) : Evolves sound s (t.withResult r) :=
  ⟨h.cfg, h.lastNow, h.moves, h.inv⟩

theorem Evolves.of_ret {s t u : State} (h : Evolves sound s t) {r : Result} (hu : ret t r = .next u) :
    Evolves sound s u :=
  Host.Outcome.next.inj hu ▸ h.withResult r

theorem Evolves.refl (s : State) : Evolves sound s s := (CycleStep.refl s).evolves

theorem Evolves.fatalResult {s t : State} {e : FaultCode} {err : OpError} (h : CycleStep sound s t) {u : State}
    (hu : Machine.fatalResult e err t = .next u) : Evolves sound s u := by
  rcases fatalResult_cases e err t with ⟨-, hres⟩ | ⟨hlive, hres⟩
  · exact Host.Outcome.next.inj (hres.symm.trans hu) ▸ h.evolves.withResult _
  · exact Host.Outcome.next.inj (hres.symm.trans hu) ▸ (h.trans (CycleStep.terminate _ hlive)).evolves.withResult _

/-- Bytes that arrive outside a cycle. -/
theorem Evolves.feedOp {b : Bytes} {s t : State} (h : Machine.feedOp b s = .next t) : Evolves sound s t := by
  have hfed : CycleStep sound s ((s.withWaiting []).withPar (Machine.feedBytes s.cfg (s.waiting ++ b) s.par).1) :=
    (CycleStep.withWaiting (.inl rfl)).trans (CycleStep.feedBytes (s.waiting ++ b) (s.withWaiting []))
  rcases feedBytes_cases s.cfg (s.waiting ++ b) s.par with hall | ⟨taken, x, rest, -, hfull, -, hx⟩ | hbad
  · rw [feedOp_of_all (Prod.ext rfl hall)] at h
    exact hfed.evolves.of_ret h
  · have hbound : s.cfg.tokenFifoDepth ≠ none := fun hnone => feedByte_ne_full hnone _ _ hx
    have hwait := hfed.trans (CycleStep.withWaiting (b := x :: rest) (.inr hbound))
    rw [feedOp_of_full (Prod.ext rfl hfull)] at h
    exact hwait.evolves.of_ret h
  · rw [feedOp_of_inconsistent (Prod.ext rfl hbad)] at h
    exact Evolves.fatalResult hfed h

/-- A message handed over outside a cycle. -/
theorem Evolves.sendOp {b : Bytes} {s t : State} (h : Machine.sendOp b s = .next t) : Evolves sound s t := by
  have hsent : CycleStep sound s (sendBytes b s).1 :=
    (SessionOnly.sendBytes b s).cycleStep (Edits.of_eq (sendBytes_ses b s)).moves
  unfold Machine.sendOp at h
  split at h
  · exact hsent.evolves.of_ret h
  · exact Evolves.fatalResult hsent h

theorem Evolves.moveFrame {d : Dir} {op : Byte} {b : FrameBody} {s t : State}
    (h : Machine.moveFrame d op b s = .next t) : Evolves sound s t := by
  cases d with
  | rx =>
    unfold Machine.moveFrame receiveFrame at h
    dsimp only at h
    split at h
    · exact Evolves.feedOp h
    · cases h
  | tx =>
    unfold Machine.moveFrame transmitFrame at h
    dsimp only at h
    split at h
    · exact (Evolves.refl s).of_ret h
    · exact Evolves.sendOp h

theorem Evolves.takeToken (s : State) : Evolves sound s (s.withPar s.par.tokenTaken) := by
  have hdrain : DrainOnly s (s.withPar s.par.tokenTaken) :=
    ⟨rfl, List.tail_suffix _, rfl, rfl, rfl, rfl, rfl, List.prefix_refl _, List.prefix_refl _⟩
  exact (hdrain.cycleStep (Moves.refl _)).evolves

theorem Evolves.seqNext {d : Byte} {s t : State} (h : exec (.seqNext d) s = .next t) : Evolves sound s t := by
  cases hd : dieAt s d with
  | none =>
    change execSeqNext d s = _ at h
    rw [execSeqNext, hd] at h
    cases h
  | some die =>
    rw [exec_seqNext_of_dieAt hd] at h
    have hdie : Edits sound s.ses (s.withDie d (seqAdvanced die)).ses := Edits.withDie hd fun _ hinv => hinv
    exact ((SessionOnly.withSes s _).cycleStep hdie.moves).evolves.of_ret h

theorem Evolves.cycle {now throttle : Nat} {cancel : Bool} {rx : Rx} {s t : State} (hs : sound → stateInv s)
    (h : exec (.cycle now throttle cancel rx) s = .next t) : Evolves sound s t := by
  by_cases htime : timeOk s now
  · obtain ⟨u, hexec, hstep⟩ := exec_cycle_completes sound throttle cancel rx hs htime
    have hnow : Evolves sound s (s.withLastNow (some now)) :=
      ⟨rfl, fun x hx => ⟨now, rfl, htime x hx⟩, Moves.refl _, fun _ h => h⟩
    have hall : Evolves sound s u :=
      ⟨hstep.cfg, fun x hx => ⟨now, hstep.lastNow ▸ rfl, htime x hx⟩, hstep.moves, hstep.inv⟩
    exact hall.of_ret (hexec.symm.trans h)
  · obtain ⟨x, hx, hlt⟩ : ∃ x, s.lastNow = some x ∧ now < x := by
      simpa [timeOk] using htime
    rw [exec_cycle, inCycle_refused hx hlt] at h
    cases h

/-- Every row that a step runs, but SESSION_RESET. -/
theorem exec_evolves {i : Instr} {s t : State} (hs : sound → stateInv s) (hi : isCycleStep i = false)
    (hreset : i ≠ .sessionReset) (h : exec i s = .next t) : Evolves sound s t := by
  by_cases hframe : ∃ d op b, i.frameParts = some (d, op, b)
  · obtain ⟨d, op, b, hparts⟩ := hframe
    rw [exec_of_frameParts hparts] at h
    exact Evolves.moveFrame h
  · cases i with
    | crc8 hd => exact (Evolves.refl s).of_ret h
    | encode op chip core hdata data => exact (Evolves.refl s).of_ret h
    | decode b => exact (Evolves.refl s).of_ret h
    | decodeBase b => exact (Evolves.refl s).of_ret h
    | decorate f =>
      change execDecorate f s = _ at h
      unfold execDecorate at h
      split at h
      · exact (Evolves.refl s).of_ret h
      · cases h
    | feed b => exact Evolves.feedOp h
    | feedByteOutOfSync x => exact Evolves.feedOp ((exec_feedByteRow (x := x) (by simp) s).symm.trans h)
    | feedByteHeaderBody x => exact Evolves.feedOp ((exec_feedByteRow (x := x) (by simp) s).symm.trans h)
    | feedByteHeaderCrcFail x => exact Evolves.feedOp ((exec_feedByteRow (x := x) (by simp) s).symm.trans h)
    | feedByteHeaderCrcOk x => exact Evolves.feedOp ((exec_feedByteRow (x := x) (by simp) s).symm.trans h)
    | feedByteData x => exact Evolves.feedOp ((exec_feedByteRow (x := x) (by simp) s).symm.trans h)
    | feedByteNextFrame x => exact Evolves.feedOp ((exec_feedByteRow (x := x) (by simp) s).symm.trans h)
    | hasToken => exact (Evolves.refl s).of_ret h
    | takeToken => exact (Evolves.takeToken s).of_ret h
    | seqLe a b => exact (Evolves.refl s).of_ret h
    | seqLt a b => exact (Evolves.refl s).of_ret h
    | seqNext d => exact Evolves.seqNext h
    | clz256 digest =>
      change execClz256 digest s = _ at h
      unfold execClz256 at h
      split at h
      · exact (Evolves.refl s).of_ret h
      · cases h
    | verify w cand => exact (Evolves.refl s).of_ret h
    | classify z difficulty => exact (Evolves.refl s).of_ret h
    | cycle now throttle cancel rx => exact Evolves.cycle hs h
    | sessionReset => exact absurd rfl hreset
    | send b => exact Evolves.sendOp h
    | cycleInitTick | cycleInitAckOk | cycleInitAckFail | cycleNonceReport | cycleStatusThermal | cycleStatusReconcile
    | cycleIssueAll | cycleIssueOne | cycleReportTick | cycleTerminate => cases hi
    | _ => exact absurd ⟨_, _, _, rfl⟩ hframe

/-- The requests are read by no operation. -/
theorem Evolves.of_withCalls {s t : State} {calls : List Request} (h : Evolves sound (s.withCalls calls) t) :
    Evolves sound s t :=
  ⟨h.cfg, h.lastNow, h.moves, h.inv⟩

/-- Every step but SESSION_RESET's. -/
theorem step_evolves {s t : State} (hs : sound → stateInv s) (hreset : s.calls.head? ≠ some (.call .sessionReset))
    (h : step s = .next t) : Evolves sound s t := by
  cases hcalls : s.calls with
  | nil =>
    rw [step_of_idle hcalls] at h
    exact Host.Outcome.next.inj h ▸ Evolves.refl s
  | cons request rest =>
    cases request with
    | wire b =>
      rw [arrivingBytesAreFed s b rest hcalls] at h
      exact (Evolves.feedOp h).of_withCalls
    | call i =>
      have hi : i ≠ .sessionReset := fun e => hreset (by rw [hcalls, e]; rfl)
      cases hcycle : isCycleStep i with
      | true =>
        rw [step_of_cycleStep hcalls hcycle] at h
        cases h
      | false =>
        rw [step_of_call hcalls hcycle] at h
        exact (exec_evolves (s := s.withCalls rest) hs hcycle hi h).of_withCalls

end Evolves

/-! ## SESSION_RESET as a step -/

theorem exec_sessionReset (s : State) : exec .sessionReset s = .next ((resetSession s).withResult .unit) := rfl

/-- The step that runs SESSION_RESET. -/
theorem step_of_sessionReset {s t : State} (h : s.calls.head? = some (.call .sessionReset)) (hstep : step s = .next t) :
    t = ((resetSession s).withCalls s.calls.tail).withResult .unit := by
  obtain ⟨rest, hcalls⟩ : ∃ rest, s.calls = .call .sessionReset :: rest := List.head?_eq_some_iff.mp h
  rw [step_of_call hcalls rfl, exec_sessionReset] at hstep
  rw [← Host.Outcome.next.inj hstep, hcalls]
  rfl

/-- A session put back is sound: it is in Starting, with no die and no reason. -/
theorem resetSession_inv (s : State) : sessionInv (resetSession s).ses := by
  refine ⟨fun _ => rfl, rfl, ⟨fun h => ?_, fun h => ?_⟩, fun p hp => ?_⟩
  · cases h
  · cases h
  · cases hp

/-- Settles O58: SESSION_RESET puts back a sound session and touches nothing else of the invariant; every other step
keeps what it finds sound. -/
theorem stepKeepsTheInvariant : Obligations.StepKeepsTheInvariant := by
  intro s t hinv hstep
  by_cases hreset : s.calls.head? = some (.call .sessionReset)
  · obtain rfl := step_of_sessionReset hreset hstep
    obtain ⟨hpar, -, hqueue, hwait⟩ := hinv
    exact ⟨hpar, resetSession_inv s, hqueue, hwait⟩
  · exact (step_evolves (fun _ => hinv) hreset hstep).inv True.intro hinv

/-- Settles O60: of every state, sound or not. -/
theorem sessionOnlyMovesForward : Obligations.SessionOnlyMovesForward := by
  intro s t hstep
  by_cases hreset : s.calls.head? = some (.call .sessionReset)
  · obtain rfl := step_of_sessionReset hreset hstep
    exact ⟨rfl, fun x hx => ⟨x, hx, le_rfl⟩, fun _ => rfl, fun h => absurd hreset h⟩
  · have h : Evolves False s t := step_evolves (fun hf => hf.elim) hreset hstep
    exact ⟨h.cfg, h.lastNow, fun hr => absurd hr hreset, fun _ => ⟨h.moves.ended, h.moves.forward, h.moves.kept⟩⟩

end Sys2Proof.Machine
end

section
/-! PROOFS. Sequence numbers, leading zeros, the header of VERIFY and the serialized job: the comparator by its modular
distance, a byte string as an integer, fields found at their offsets; and O32, O34, O35, O49 from them. -/

namespace Sys2Proof.Machine

/-! ## The comparator's laws (42_seqcmp R161, R162) -/

theorem exec_seqLt (a b : Half) (s : State) : exec (.seqLt a b) s = .next (s.withResult (.bit (seqLt a b))) := rfl

/-- SEQ_LE on the raw values: ahead by less than the window, or behind by the window or more. -/
theorem seqLe_iff (a b : Half) : seqLe a b = true ↔
    (a.toNat ≤ b.toNat ∧ b.toNat - a.toNat < 32768) ∨ (b.toNat < a.toNat ∧ 32768 ≤ a.toNat - b.toNat) := by
  by_cases h : absDiff a b < seqHalf
  · rw [seqLe_of_within h, decide_eq_true_iff]
    simp only [absDiff, seqHalf] at h
    omega
  · rw [seqLe_of_beyond (Nat.le_of_not_lt h), decide_eq_true_iff]
    simp only [absDiff, seqHalf] at h
    omega

/-- The modular distance from `a` to `b`, by the side of the wrap. -/
theorem distance_eq (a b : Half) :
    (b - a).toNat = if a.toNat ≤ b.toNat then b.toNat - a.toNat else 65536 + b.toNat - a.toNat := by
  have ha := a.isLt
  have hb := b.isLt
  rw [BitVec.toNat_sub]
  split <;> omega

theorem seqLe_refl (a : Half) : seqLe a a = true := (seqLe_iff a a).mpr (.inl ⟨le_rfl, by omega⟩)

/-- Of two different numbers exactly one is before the other. -/
theorem seqLe_eq_not_seqLe {a b : Half} (h : a ≠ b) : seqLe a b = !seqLe b a := by
  have hne : a.toNat ≠ b.toNat := fun e => h (BitVec.eq_of_toNat_eq e)
  rw [Bool.eq_iff_iff, Bool.not_eq_true', ← Bool.not_eq_true, seqLe_iff, seqLe_iff]
  omega

theorem seqLe_of_distance_lt {a b : Half} (h : (b - a).toNat < 32768) : seqLe a b = true := by
  have ha := a.isLt
  rw [distance_eq] at h
  rw [seqLe_iff]
  split at h <;> omega

theorem seqLe_of_distance_gt {a b : Half} (h : 32768 < (b - a).toNat) : seqLe a b = false := by
  have hb := b.isLt
  rw [distance_eq] at h
  rw [← Bool.not_eq_true, seqLe_iff]
  split at h <;> omega

theorem seqLe_of_distance_eq {a b : Half} (h : (b - a).toNat = 32768) : seqLe a b = decide (b.toNat < a.toNat) := by
  rw [distance_eq] at h
  rw [Bool.eq_iff_iff, seqLe_iff, decide_eq_true_iff]
  split at h <;> omega

/-- Settles O32: at most 32767 increments are a modular distance below the window. -/
theorem seqComparatorLaws : Obligations.SeqComparatorLaws := by
  refine ⟨fun s a b => ?_, seqLe_refl, fun a b => seqLe_eq_not_seqLe, by decide, fun a b => ?_, fun a k hk => ?_⟩
  · have hne : (a != b) = decide (a ≠ b) := by
      rw [Bool.eq_iff_iff, bne_iff_ne, decide_eq_true_iff]
    rw [exec_seqLt, seqLt, hne]
  · exact ⟨seqLe_of_distance_lt, seqLe_of_distance_gt, seqLe_of_distance_eq⟩
  · refine seqLe_of_distance_lt ?_
    rw [BitVec.add_comm, BitVec.add_sub_cancel, BitVec.toNat_ofNat]
    omega

/-! ## Leading zeros (43_pow_clz R170, R171) -/

theorem leNat_lt (b : Bytes) : leNat b < 2 ^ (8 * b.length) := by
  have h : Nat.ofDigits 256 (b.map BitVec.toNat) < 256 ^ (b.map BitVec.toNat).length :=
    Nat.ofDigits_lt_base_pow_length (by decide) fun x hx => by
      obtain ⟨y, -, rfl⟩ := List.mem_map.mp hx
      exact y.isLt
  rwa [List.length_map, show (256 : Nat) = 2 ^ 8 by rfl, ← Nat.pow_mul] at h

/-- A string with a most significant byte more. -/
theorem leNat_snoc (b : Bytes) (x : Byte) : leNat (b ++ [x]) = leNat b + 2 ^ (8 * b.length) * x.toNat := by
  rw [leNat, List.map_append, Nat.ofDigits_append, List.length_map, List.map_singleton, Nat.ofDigits_singleton,
    show (256 : Nat) = 2 ^ 8 by rfl, ← Nat.pow_mul]
  rfl

/-- The zero count of a byte that is not zero. -/
theorem clz8_spec {x : Byte} (h : x ≠ 0) : clz8 x ≤ 7 ∧ x.toNat < 2 ^ (8 - clz8 x) ∧ 2 ^ (7 - clz8 x) ≤ x.toNat := by
  have hx := x.isLt
  have hpos : x.toNat ≠ 0 := fun e => h (BitVec.eq_of_toNat_eq e)
  unfold clz8
  split_ifs <;> omega

/-- The zero count of a string, most significant byte first, bounds its value on both sides. -/
theorem clzScan_spec : ∀ l : Bytes, clzScan l ≤ 8 * l.length ∧ leNat l.reverse < 2 ^ (8 * l.length - clzScan l)
    ∧ (clzScan l < 8 * l.length → 2 ^ (8 * l.length - 1 - clzScan l) ≤ leNat l.reverse)
  | [] => by decide
  | x :: l => by
    obtain ⟨hle, hlt, hge⟩ := clzScan_spec l
    have hlow : leNat l.reverse < 2 ^ (8 * l.length) := by simpa using leNat_lt l.reverse
    rw [List.reverse_cons, leNat_snoc, List.length_reverse, List.length_cons, clzScan]
    by_cases hx : x = 0
    · have hsame : leNat l.reverse + 2 ^ (8 * l.length) * x.toNat = leNat l.reverse := by simp [hx]
      rw [if_pos hx, hsame, show 8 * (l.length + 1) - (8 + clzScan l) = 8 * l.length - clzScan l by omega,
        show 8 * (l.length + 1) - 1 - (8 + clzScan l) = 8 * l.length - 1 - clzScan l by omega]
      exact ⟨by omega, hlt, fun h => hge (by omega)⟩
    · obtain ⟨h7, hxlt, hxge⟩ := clz8_spec hx
      rw [if_neg hx, show 8 * (l.length + 1) - clz8 x = 8 * l.length + (8 - clz8 x) by omega,
        show 8 * (l.length + 1) - 1 - clz8 x = 8 * l.length + (7 - clz8 x) by omega, Nat.pow_add, Nat.pow_add]
      refine ⟨by omega, ?_, fun _ => ?_⟩
      · calc leNat l.reverse + 2 ^ (8 * l.length) * x.toNat
            < 2 ^ (8 * l.length) * (x.toNat + 1) := by rw [Nat.mul_add, Nat.mul_one]; omega
          _ ≤ 2 ^ (8 * l.length) * 2 ^ (8 - clz8 x) := Nat.mul_le_mul_left _ hxlt
      · exact (Nat.mul_le_mul_left _ hxge).trans (Nat.le_add_left _ _)

/-- Two counts that bound one value are the same. -/
theorem zeroCount_le {n y z : Nat} (hz : z < 256 → 2 ^ (255 - z) ≤ n) (hy : y ≤ 256) (hlt : n < 2 ^ (256 - y)) :
    y ≤ z := by
  by_contra h
  have hpow : 2 ^ (256 - y) ≤ 2 ^ (255 - z) := Nat.pow_le_pow_right (by decide) (by omega)
  have := hz (by omega)
  omega

/-- Settles O34. -/
theorem clz256CountsTheLeadingZeros : Obligations.Clz256CountsTheLeadingZeros := by
  intro s g hlen
  obtain ⟨hle, hlt, hge⟩ := clzScan_spec g.reverse
  rw [List.length_reverse, hlen] at hle hlt hge
  rw [List.reverse_reverse] at hlt hge
  exact ⟨clz256 g, if_pos hlen, hle, hlt, hge, fun y hy hylt hyge =>
    Nat.le_antisymm (zeroCount_le hge hy hylt) (zeroCount_le hyge hle hlt)⟩

/-! ## Fields at their offsets -/

/-- An integer behind a first part. -/
theorem le32_append_right (a b : Bytes) (i : Nat) : le32 (a ++ b) (a.length + i) = le32 b i := by
  simp only [le32, Nat.add_assoc, byteAt_append_right]

theorem le16_append_right (a b : Bytes) (i : Nat) : le16 (a ++ b) (a.length + i) = le16 b i := by
  simp only [le16, Nat.add_assoc, byteAt_append_right]

theorem getElem?_append_add (a b : Bytes) (i : Nat) : (a ++ b)[a.length + i]? = b[i]? := by
  rw [List.getElem?_append_right (Nat.le_add_right _ _), Nat.add_sub_cancel_left]

/-! ## The header of VERIFY (43_pow_clz R175, R177) -/

theorem exec_verify (w : HeaderSource) (cand : CandidateNonce) (s : State) : exec (.verify w cand) s
    = .next (s.withResult (.verified (clz256 (hashOf (headerIn w cand))) (hashOf (headerIn w cand)))) := rfl

theorem exec_clz256 {g : Bytes} (h : g.length = 32) (s : State) :
    exec (.clz256 g) s = .next (s.withResult (.zeroBits (clz256 g))) := if_pos h

theorem hashOf_length (header : Bytes) : (hashOf header).length = 32 := by simp [hashOf]

theorem headerOf_length (w : WorkRecord) (cand : CandidateNonce) : (headerOf w cand).length = 80 := by
  simp [headerOf, toLe32]

/-- Settles O35: the header of a record and a candidate is 80 bytes, and it alone is hashed. -/
theorem verifyHashesTheHeader : Obligations.VerifyHashesTheHeader := by
  constructor
  · intro s h cand
    exact ⟨hashOf h.toList, _, exec_verify (.header h) cand s, rfl, hashOf_length _, exec_clz256 (hashOf_length _) s⟩
  · intro s w cand
    have hlist : (Vector.mk (n := 80) (headerOf w cand).toArray (headerOf_length w cand)).toList = headerOf w cand := rfl
    have hfirst : (Config.headerFirst76 w cand).toList.length = 76 := by simp
    refine ⟨⟨(headerOf w cand).toArray, headerOf_length w cand⟩, ?_, ?_, ?_⟩
    · rw [exec_verify, exec_verify, headerIn, headerIn, hlist]
    · rw [hlist, headerOf, List.drop_left' hfirst]
    · rw [hlist, headerOf]
      have hnonce := le32_append_right (Config.headerFirst76 w cand).toList (toLe32 cand.nonce) 0
      rw [hfirst] at hnonce
      exact hnonce.trans (word_eq_bytes cand.nonce)

/-! ## The serialized job (30_encoding R70) -/

/-- The 21 bytes of the job's integer fields. -/
def jobIntegers (j : HashJob) : Bytes :=
  toLe32 j.timestamp ++ toLe32 j.bits ++ toLe32 j.startingNonce ++ toLe32 j.nonceLoops ++ toLe16 j.ntimeLoops
    ++ [j.searchDifficulty, j.option, j.group]

section
variable (c : Cfg) (j : HashJob)

/-- The job: its two first byte fields, the integers, the spare bytes and the pad. -/
theorem jobBytes_eq : jobBytes c j = (j.midstate.toList ++ j.merkleResidual.toList)
    ++ (jobIntegers j ++ (j.spare.toList ++ List.replicate c.jobPad 0)) := by
  simp only [jobBytes, jobIntegers, List.append_assoc]

theorem jobBytes_length : (jobBytes c j).length = 60 + c.jobPad := by
  simp [jobBytes, toLe32, toLe16]
  omega

/-- Behind the two first byte fields stand the integers. -/
theorem jobHead_length : (j.midstate.toList ++ j.merkleResidual.toList).length = 36 := by simp

theorem jobBytes_le32 (i : Nat) : le32 (jobBytes c j) (36 + i)
    = le32 (jobIntegers j ++ (j.spare.toList ++ List.replicate c.jobPad 0)) i := by
  rw [jobBytes_eq, ← jobHead_length j, le32_append_right]

theorem jobBytes_le16 (i : Nat) : le16 (jobBytes c j) (36 + i)
    = le16 (jobIntegers j ++ (j.spare.toList ++ List.replicate c.jobPad 0)) i := by
  rw [jobBytes_eq, ← jobHead_length j, le16_append_right]

theorem jobBytes_getElem? (i : Nat) : (jobBytes c j)[36 + i]?
    = (jobIntegers j ++ (j.spare.toList ++ List.replicate c.jobPad 0))[i]? := by
  rw [jobBytes_eq, ← jobHead_length j, getElem?_append_add]

theorem jobBytes_midstate : (jobBytes c j).take 32 = j.midstate.toList := by
  rw [jobBytes_eq, List.append_assoc, List.take_left' (by simp)]

theorem jobBytes_merkleResidual : ((jobBytes c j).drop 32).take 4 = j.merkleResidual.toList := by
  rw [jobBytes_eq, List.append_assoc, List.drop_left' (by simp), List.take_left' (by simp)]

theorem jobBytes_tail : (jobBytes c j).drop 57 = j.spare.toList ++ List.replicate c.jobPad 0 := by
  rw [jobBytes_eq, ← List.append_assoc, List.drop_left' (by simp [jobIntegers, toLe32, toLe16])]

theorem jobBytes_spare : ((jobBytes c j).drop 57).take 3 = j.spare.toList := by
  rw [jobBytes_tail, List.take_left' (by simp)]

theorem jobBytes_pad : (jobBytes c j).drop 60 = List.replicate c.jobPad 0 := by
  rw [show 60 = 57 + 3 by rfl, ← List.drop_drop, jobBytes_tail, List.drop_left' (by simp)]

end

/-- Settles O49: every field is found at its offset, so the bytes determine the job. -/
theorem jobIsSerializedInOrder : Obligations.JobIsSerializedInOrder := by
  intro c j
  have htimestamp : ∀ j, le32 (jobBytes c j) 36 = j.timestamp := fun j =>
    (jobBytes_le32 c j 0).trans (word_eq_bytes j.timestamp)
  have hbits : ∀ j, le32 (jobBytes c j) 40 = j.bits := fun j => (jobBytes_le32 c j 4).trans (word_eq_bytes j.bits)
  have hnonce : ∀ j, le32 (jobBytes c j) 44 = j.startingNonce := fun j =>
    (jobBytes_le32 c j 8).trans (word_eq_bytes j.startingNonce)
  have hloops : ∀ j, le32 (jobBytes c j) 48 = j.nonceLoops := fun j =>
    (jobBytes_le32 c j 12).trans (word_eq_bytes j.nonceLoops)
  have hntime : ∀ j, le16 (jobBytes c j) 52 = j.ntimeLoops := fun j =>
    (jobBytes_le16 c j 16).trans (half_eq_bytes j.ntimeLoops)
  have hdifficulty : ∀ j, (jobBytes c j)[54]? = some j.searchDifficulty := fun j => jobBytes_getElem? c j 18
  have hoption : ∀ j, (jobBytes c j)[55]? = some j.option := fun j => jobBytes_getElem? c j 19
  have hgroup : ∀ j, (jobBytes c j)[56]? = some j.group := fun j => jobBytes_getElem? c j 20
  refine ⟨jobBytes_length c j, jobBytes_midstate c j, jobBytes_merkleResidual c j, htimestamp j, hbits j, hnonce j,
    hloops j, hntime j, hdifficulty j, hoption j, hgroup j, jobBytes_spare c j, fun x hx => ?_, fun j' h => ?_⟩
  · rw [jobBytes_pad] at hx
    exact List.eq_of_mem_replicate hx
  · have same : ∀ {α : Type} (field : HashJob → α) (read : Bytes → α),
        (∀ j, read (jobBytes c j) = field j) → field j' = field j := fun field read hread => by
      rw [← hread, h, hread]
    have hmidstate := Vector.toList_inj.mp (same (fun j => j.midstate.toList) (fun b => b.take 32) (jobBytes_midstate c))
    have hmerkle := Vector.toList_inj.mp
      (same (fun j => j.merkleResidual.toList) (fun b => (b.drop 32).take 4) (jobBytes_merkleResidual c))
    have hspare := Vector.toList_inj.mp
      (same (fun j => j.spare.toList) (fun b => (b.drop 57).take 3) (jobBytes_spare c))
    have hdifficulty' := Option.some.inj (same (fun j => some j.searchDifficulty) (fun b => b[54]?) hdifficulty)
    have hoption' := Option.some.inj (same (fun j => some j.option) (fun b => b[55]?) hoption)
    have hgroup' := Option.some.inj (same (fun j => some j.group) (fun b => b[56]?) hgroup)
    have htimestamp' := same HashJob.timestamp (fun b => le32 b 36) htimestamp
    have hbits' := same HashJob.bits (fun b => le32 b 40) hbits
    have hnonce' := same HashJob.startingNonce (fun b => le32 b 44) hnonce
    have hloops' := same HashJob.nonceLoops (fun b => le32 b 48) hloops
    have hntime' := same HashJob.ntimeLoops (fun b => le16 b 52) hntime
    cases j
    cases j'
    rw [HashJob.mk.injEq]
    exact ⟨hmidstate, hmerkle, htimestamp', hbits', hnonce', hloops', hntime', hdifficulty', hoption', hgroup', hspare⟩

end Sys2Proof.Machine
end

section
/-! PROOFS. The session's rows: reset, the rows outside their state, the ends and beginnings of a session, its timers,
its reports and their shuffles; and O37, O39 to O42, O44, O45, O47, O48, O52, O54, O56, O57 from them. -/

namespace Sys2Proof.Machine

/-! ## Reset (10_state R37, 70_reset_and_hazards R270, R271) -/

/-- Settles O56. -/
theorem resetValues : Obligations.ResetValues := ⟨rfl, rfl⟩

/-- Settles O57: the parser holds nothing and the session has no die. -/
theorem resetMeetsTheInvariant : Obligations.ResetMeetsTheInvariant := by
  have hparser : parserInv State.reset.cfg State.reset.par :=
    ⟨fun h => PState.noConfusion h, fun h => PState.noConfusion h, fun h => PState.noConfusion h⟩
  have hqueue : queueInv State.reset.cfg State.reset.par := fun n _ => Nat.zero_le n
  exact ⟨⟨hparser, resetSession_inv State.reset, hqueue, fun _ => rfl⟩, defaultCfg_wf, by decide⟩

/-- Settles O40. -/
theorem sessionResetClearsTheSession : Obligations.SessionResetClearsTheSession := fun s => exec_sessionReset s

/-! ## Rows outside their state (44_scheduler R190, R194) -/

theorem dispatch_of_terminated {s : State} (h : s.ses.sstate = .terminated) (t : Token) (now : Nat) :
    dispatch t now s = s := by
  rw [dispatch, h]

/-- A timed row of a step that is guarded by another state than the session's notes its time. -/
theorem inCycle_whenIn_other {s : State} {x : SState} {now : Nat} (hlive : s.ses.sstate ≠ .terminated)
    (hx : s.ses.sstate ≠ x) (htime : timeOk s now) (k : State → Run) :
    inCycle now s (fun s => cycleEnds (whenIn x k s).caught)
      = .next ((s.withLastNow (some now)).withResult (.outcome .goOn)) := by
  rw [inCycle_ok hlive htime, whenIn_of_other (s := s.withLastNow (some now)) hx, Run.caught_done]
  exact cycleEnds_of_live hlive

/-- Settles O37. -/
theorem stepsOutsideTheirStateDoNothing : Obligations.StepsOutsideTheirStateDoNothing := by
  refine ⟨fun s h => ⟨fun i hi => ?_, fun now htime i hi => ?_⟩, fun s now h htime i hi => ?_⟩
  · cases i with
    | cycleInitAckOk ia => rw [exec_cycleInitAckOk, dispatch_of_terminated h, cycleEnds_of_terminated h]
    | cycleInitAckFail ia => rw [exec_cycleInitAckFail, dispatch_of_terminated h, cycleEnds_of_terminated h]
    | cycleStatusThermal st => rw [exec_cycleStatusThermal, dispatch_of_terminated h, cycleEnds_of_terminated h]
    | cycleStatusReconcile st => rw [exec_cycleStatusReconcile, dispatch_of_terminated h, cycleEnds_of_terminated h]
    | cycleTerminate r => rw [exec_cycleTerminate, if_pos h, cycleEnds_of_terminated h]
    | _ => exact hi.elim
  · cases i with
    | cycle n th cancel rx =>
      obtain rfl : n = now := hi
      rw [exec_cycle, inCycle_terminated h htime]
    | cycleInitTick n =>
      obtain rfl : n = now := hi
      rw [exec_cycleInitTick, inCycle_terminated h htime]
    | cycleNonceReport nr n =>
      obtain rfl : n = now := hi
      rw [exec_cycleNonceReport, inCycle_terminated h htime]
    | cycleIssueAll n th =>
      obtain rfl : n = now := hi
      rw [exec_cycleIssueAll, inCycle_terminated h htime]
    | cycleIssueOne d c n =>
      obtain rfl : n = now := hi
      rw [exec_cycleIssueOne, inCycle_terminated h htime]
    | cycleReportTick n =>
      obtain rfl : n = now := hi
      rw [exec_cycleReportTick, inCycle_terminated h htime]
    | _ => exact hi.elim
  · have hlive := live_of_starting h
    have hother : s.ses.sstate ≠ .running := by
      rw [h]
      decide
    cases i with
    | cycleIssueAll n th =>
      obtain rfl : n = now := hi
      exact inCycle_whenIn_other hlive hother htime _
    | cycleIssueOne d c n =>
      obtain rfl : n = now := hi
      rw [exec_cycleIssueOne, inCycle_ok hlive htime]
      exact (if_pos hother).trans (cycleEnds_of_live hlive)
    | cycleReportTick n =>
      obtain rfl : n = now := hi
      exact inCycle_whenIn_other hlive hother htime _
    | _ => exact hi.elim

/-! ## A cycle cancelled, and one whose receive failed (44_scheduler R217, R218) -/

/-- Settles O39. -/
theorem cycleIsCancelledOrFailsAtReceive : Obligations.CycleIsCancelledOrFailsAtReceive := by
  intro s now throttle hlive htime
  refine ⟨fun rx => ?_, ?_⟩
  · rw [exec_cycle, inCycle_ok hlive htime]
    exact cycleEnds_terminate _ _
  · rw [exec_cycle, inCycle_ok hlive htime]
    exact cycleEnds_terminate _ _

/-! ## A frame sent inside a cycle (45_transport R231) -/

/-- `tx` of a frame that encodes is SEND of its wire bytes: done where SEND gives nothing, raised where SEND fails and
ends the session. -/
theorem tx_eq_send {op : Byte} {b : FrameBody} {s : State} (hop : op ∈ s.cfg.knownOpcodes)
    (hpayload : payloadOk b.data = true) (hlive : s.ses.sstate ≠ .terminated) :
    ∃ v, v.ses = s.ses
      ∧ ((tx op b s = .done v ∧ exec (.send (wireBytes s.cfg.crc op b)) s = .next (v.withResult .unit))
        ∨ (tx op b s = .raise .transport v ∧ ¬ sendsSucceed s
          ∧ exec (.send (wireBytes s.cfg.crc op b)) s
            = .next ((terminate (.fault .transport) v).withResult (.raised .transport)))) := by
  have hencode : encodeBody s.cfg op b = .ok (wireBytes s.cfg.crc op b) := frameEncode_bytes hop hpayload
  refine ⟨(sendBytes (wireBytes s.cfg.crc op b) s).1, sendBytes_ses _ _, ?_⟩
  rcases tx_cases op b s with ⟨e, he, -⟩ | ⟨w, hw, hsent, htx⟩ | ⟨w, hw, hsent, htx⟩
  · rw [hencode] at he
    cases he
  · obtain rfl := Except.ok.inj (hencode.symm.trans hw)
    exact .inl ⟨htx, sendOp_of_done (Prod.ext rfl hsent)⟩
  · obtain rfl := Except.ok.inj (hencode.symm.trans hw)
    refine .inr ⟨htx, fun h => ?_, ?_⟩
    · have hall := (sendChunks_succeed (chunks s.cfg.maxSendSize (wireBytes s.cfg.crc op b)) h).1
      exact absurd (hsent.symm.trans hall) (by decide)
    · rw [exec_send, sendOp_of_failed (Prod.ext rfl hsent), if_neg hlive]

/-! ## INIT_TICK (44_scheduler R191) -/

/-- A timer is due where the period has passed since the last time, if there was one. -/
theorem due_iff {last : Option Nat} {now period : Nat} (hperiod : 0 < period) :
    due last now period = true ↔ ∀ t, last = some t → t + period ≤ now := by
  cases last with
  | none => simp
  | some t =>
    rw [due_some]
    simp only [Option.some.injEq, forall_eq']
    omega

theorem not_due_of_early {last : Option Nat} {now period t : Nat} (hlast : last = some t) (hperiod : 0 < period)
    (h : now < t + period) : ¬ due last now period = true :=
  fun hdue => absurd ((due_iff hperiod).mp hdue t hlast) (Nat.not_le.mpr h)

theorem initTick_of_due {now : Nat} {s : State} (h : due s.ses.lastInitTx now initRetryMs = true) : initTick now s
    = (tx s.cfg.opInit s.cfg.initFields s).andThen (fun s => .done (s.withSes { s.ses with lastInitTx := some now })) :=
  if_pos h

theorem initTick_of_not_due {now : Nat} {s : State} (h : ¬ due s.ses.lastInitTx now initRetryMs = true) :
    initTick now s = .done s := if_neg h

theorem exec_cycleInitTick_starting {s : State} {now : Nat} (h : s.ses.sstate = .starting) (htime : timeOk s now) :
    exec (.cycleInitTick now) s = cycleEnds (initTick now (s.withLastNow (some now))).caught := by
  rw [exec_cycleInitTick, inCycle_ok (live_of_starting h) htime, whenIn_of_state (s := s.withLastNow (some now)) h]

/-- Settles O41, in Starting by whether the frame is due and whether it can be sent. -/
theorem initTickSendsWhenDue : Obligations.InitTickSendsWhenDue := by
  intro s now hwf hpayload htime
  refine ⟨fun h => ?_, fun h => ⟨fun t₀ hlast hearly => ?_, fun hdue => ?_⟩⟩
  · rw [exec_cycleInitTick]
    exact inCycle_whenIn_other (live_of_running h) (by rw [h]; decide) htime _
  · have hnot : ¬ due (s.withLastNow (some now)).ses.lastInitTx now initRetryMs = true := 
      not_due_of_early hlast (by decide) hearly
    rw [exec_cycleInitTick_starting h htime, initTick_of_not_due hnot]
    exact cycleEnds_of_live (live_of_starting h)
  · have hlive := live_of_starting h
    have hop : s.cfg.opInit ∈ s.cfg.knownOpcodes := sessionOpcodes_known hwf _ (by simp)
    have htick := initTick_of_due (s := s.withLastNow (some now)) ((due_iff (by decide)).mpr hdue)
    rw [exec_cycleInitTick_starting h htime, htick]
    obtain ⟨v, hses, ⟨htx, hsend⟩ | ⟨htx, hfail, hsend⟩⟩ :=
      tx_eq_send (s := s.withLastNow (some now)) hop hpayload hlive
    · refine ⟨_, hsend, ?_, fun hne => absurd rfl hne, fun _ => rfl⟩
      rw [State.withLastNow_cfg, htx, Run.andThen_done, Run.caught_done, hses, if_pos (State.withResult_result _ _)]
      exact cycleEnds_of_live hlive
    · have hne : ((terminate (.fault .transport) v).withResult (.raised .transport)).result ≠ .unit :=
        fun e => Result.noConfusion e
      refine ⟨_, hsend, ?_, fun _ => ?_, fun hs => absurd hs hfail⟩
      · rw [State.withLastNow_cfg, htx, Run.andThen_raise, Run.caught_raise, if_neg hne, cycleEnds_terminate]
        rfl
      · rw [State.withResult_ses, terminate_ses, hses]
        rfl

/-! ## The handshake (44_scheduler R195) -/

theorem initAckStarting_of_ok {ia : InitAck} (hok : ia.opStatus = 0) (s : State) :
    initAckStarting ia s = initAckOk ia s := if_pos hok

/-- One row per die, one bit per core. -/
theorem coreOkOf_row {dies cores : Byte} (bitmap : Bytes) {d : Nat} (hd : d < dies.toNat) :
    (coreOkOf dies cores bitmap)[d]?
      = some ((List.range cores.toNat).map (fun c => bitAt bitmap (d * cores.toNat + c))) := by
  simp [coreOkOf, hd]

/-- Settles O42. -/
theorem handshakeCreatesTheDies : Obligations.HandshakeCreatesTheDies := by
  intro s ia hstate hok
  have hrunning : (initAckOk ia s).ses.sstate = .running := rfl
  refine ⟨coreOkOf ia.dies ia.cores ia.coreBitmap, ?_, by simp [coreOkOf], fun d hd =>
    ⟨_, coreOkOf_row ia.coreBitmap hd, by simp, fun c hc => by simp [hc]⟩⟩
  rw [exec_cycleInitAckOk, dispatch_of_starting hstate, dispatchStarting, initAckStarting_of_ok hok,
    cycleEnds_of_live (live_of_running hrunning)]
  rfl

/-! ## Reports with no die to apply to (44_scheduler R197, R204) -/

/-- A token that is only logged does not end a session. -/
theorem cycleEnds_note {s : State} (hlive : s.ses.sstate ≠ .terminated) (e : LogEvent) :
    cycleEnds (s.note e) = .next ((s.withLog (s.log ++ [e])).withResult (.outcome .goOn)) :=
  cycleEnds_of_live (s := s.note e) hlive

theorem dispatch_report_starting {s : State} (hstate : s.ses.sstate = .starting) (st : StatusReport) (now : Nat) :
    dispatch (.frame (.statusReport st)) now s = s.note (.unknownFrame st.base.opcode) := by
  rw [dispatch_of_starting hstate]
  rfl

theorem dispatch_nonces_starting {s : State} (hstate : s.ses.sstate = .starting) (nr : NonceReport) (now : Nat) :
    dispatch (.frame (.nonceReport nr)) now s = s.note (.unknownFrame nr.base.opcode) := by
  rw [dispatch_of_starting hstate]
  rfl

/-- Settles O44. -/
theorem reportsWithoutADieAreIgnored : Obligations.ReportsWithoutADieAreIgnored := by
  intro s
  refine ⟨fun hstate => ⟨fun nr now htime => ?_, fun st => ⟨?_, ?_⟩⟩, fun hstate st hmissing i hi => ?_⟩
  · rw [exec_cycleNonceReport, inCycle_ok (live_of_starting hstate) htime,
      dispatch_nonces_starting (s := s.withLastNow (some now)) hstate]
    exact cycleEnds_note (s := s.withLastNow (some now)) (live_of_starting hstate) _
  · rw [exec_cycleStatusThermal, dispatch_report_starting hstate, cycleEnds_note (live_of_starting hstate)]
  · rw [exec_cycleStatusReconcile, dispatch_report_starting hstate, cycleEnds_note (live_of_starting hstate)]
  · have hrow : exec i s = cycleEnds (dispatch (.frame (.statusReport st)) 0 s) := by
      rcases hi with rfl | rfl <;> rfl
    rw [hrow, dispatch_of_running hstate, dispatchRunning, statusReport_of_missing (dieAt_missing hmissing)]
    exact cycleEnds_of_live (s := badDie st.base.chip s) (live_of_running hstate)

/-! ## Nonce reports (44_scheduler R199 to R202) -/

theorem recordOf_eq_some {d : Byte} {cand : CandidateNonce} {s : State} {w : WorkRecord} :
    recordOf d cand s = some w ↔ d.toNat < s.ses.dies.toNat
      ∧ ∃ die, s.ses.die[d.toNat]? = some die ∧ workGet die.work cand.sequence = some w := by
  unfold recordOf
  constructor
  · intro h
    split at h
    · cases h
    · rename_i die hd
      obtain ⟨hlt, hdie⟩ := dieAt_eq_some.mp hd
      exact ⟨hlt, die, hdie, h⟩
  · rintro ⟨hlt, die, hdie, hget⟩
    rw [dieAt_eq_some.mpr ⟨hlt, hdie⟩]
    exact hget

/-- The record is read in the dies alone. -/
theorem recordOf_congr {s t : State} (hdies : t.ses.dies = s.ses.dies) (hdie : t.ses.die = s.ses.die) (d : Byte)
    (cand : CandidateNonce) : recordOf d cand t = recordOf d cand s := by
  simp only [recordOf, dieAt, hdies, hdie]

/-- The verdict on a candidate's record (43_pow_clz R178). -/
def isGood (w : WorkRecord) (cand : CandidateNonce) : Bool := classify (clz256 (digestOf w cand)) w.searchDifficulty

/-- How many candidates name a record that is not good. -/
def badCount (d : Byte) (s : State) (l : List CandidateNonce) : Nat :=
  l.countP (fun cand => (recordOf d cand s).any (fun w => !isGood w cand))

/-- The session `x` after `unknown` unknown candidates, `bad` bad ones and good ones of the records `good`. -/
def tally (c : Cfg) (now : Nat) (x : Session) (unknown bad : Nat) (good : List WorkRecord) : Session :=
  { x with
    errUnknownSeq := (bump c)^[unknown] x.errUnknownSeq
    errBadNonce   := (bump c)^[bad] x.errBadNonce
    goodNonces    := (bump c)^[good.length] x.goodNonces
    totalHashes   := x.totalHashes + (good.map (fun w => 2 ^ w.searchDifficulty.toNat)).sum
    firstGood     := if good = [] then x.firstGood else some (x.firstGood.getD now) }

section
variable (d : Byte) (s : State) {cand : CandidateNonce} (l : List CandidateNonce)

/-- The three counts of a report with a first candidate more, by what that candidate names. -/
theorem counts_cons_of_unknown (h : recordOf d cand s = none) : unknownCount d s (cand :: l) = unknownCount d s l + 1
    ∧ badCount d s (cand :: l) = badCount d s l ∧ goodRecords d s (cand :: l) = goodRecords d s l := by
  simp [unknownCount, badCount, goodRecords, h]

theorem counts_cons_of_good {w : WorkRecord} (h : recordOf d cand s = some w) (hgood : isGood w cand = true) :
    unknownCount d s (cand :: l) = unknownCount d s l
    ∧ badCount d s (cand :: l) = badCount d s l ∧ goodRecords d s (cand :: l) = w :: goodRecords d s l := by
  have hgood' : classify (clz256 (digestOf w cand)) w.searchDifficulty = true := hgood
  simp [unknownCount, badCount, goodRecords, h, hgood, hgood', Option.filter_some]

theorem counts_cons_of_bad {w : WorkRecord} (h : recordOf d cand s = some w) (hbad : isGood w cand = false) :
    unknownCount d s (cand :: l) = unknownCount d s l
    ∧ badCount d s (cand :: l) = badCount d s l + 1 ∧ goodRecords d s (cand :: l) = goodRecords d s l := by
  have hbad' : classify (clz256 (digestOf w cand)) w.searchDifficulty = false := hbad
  simp [unknownCount, badCount, goodRecords, h, hbad, hbad', Option.filter_some]

/-- Every candidate is counted once. -/
theorem counts_sum : unknownCount d s l + (goodRecords d s l).length + badCount d s l = l.length := by
  induction l with
  | nil => rfl
  | cons cand l ih =>
    rw [List.length_cons]
    cases h : recordOf d cand s with
    | none =>
      obtain ⟨hu, hb, hg⟩ := counts_cons_of_unknown d s l h
      rw [hu, hb, hg]
      omega
    | some w =>
      cases hgood : isGood w cand with
      | true =>
        obtain ⟨hu, hb, hg⟩ := counts_cons_of_good d s l h hgood
        rw [hu, hb, hg, List.length_cons]
        omega
      | false =>
        obtain ⟨hu, hb, hg⟩ := counts_cons_of_bad d s l h hgood
        rw [hu, hb, hg]
        omega

/-- The counts are read in the dies alone. -/
theorem counts_congr {t : State} (hdies : t.ses.dies = s.ses.dies) (hdie : t.ses.die = s.ses.die) :
    unknownCount d t l = unknownCount d s l ∧ badCount d t l = badCount d s l
    ∧ goodRecords d t l = goodRecords d s l := by
  have hrecord : ∀ cand, recordOf d cand t = recordOf d cand s := recordOf_congr hdies hdie d
  simp only [unknownCount, badCount, goodRecords, hrecord, and_self]

end

/-- A good candidate counted first. -/
theorem tally_goodNonce (w : WorkRecord) (now : Nat) (s : State) (unknown bad : Nat) (good : List WorkRecord) :
    tally s.cfg now (goodNonce w now s).ses unknown bad good = tally s.cfg now s.ses unknown bad (w :: good) := by
  have hfirst : (if good = [] then (goodNonce w now s).ses.firstGood
      else some ((goodNonce w now s).ses.firstGood.getD now)) = some (s.ses.firstGood.getD now) := by
    cases h : s.ses.firstGood <;> simp [goodNonce, h]
  rw [tally, hfirst, tally, List.map_cons, List.sum_cons, ← Nat.add_assoc]
  rfl

/-- The candidates of a report checked in order: the session's figures are those of the counts. -/
theorem foldl_checkNonce (d : Byte) (now : Nat) : ∀ (l : List CandidateNonce) (s : State),
    l.foldl (checkNonce d now) s
      = s.withSes (tally s.cfg now s.ses (unknownCount d s l) (badCount d s l) (goodRecords d s l))
  | [], _ => rfl
  | cand :: l, s => by
    rw [List.foldl_cons, foldl_checkNonce d now l]
    cases h : recordOf d cand s with
    | none =>
      have hcheck : checkNonce d now s cand
          = s.withSes { s.ses with errUnknownSeq := bump s.cfg s.ses.errUnknownSeq } := by rw [checkNonce, h]
      obtain ⟨hu, hb, hg⟩ := counts_cons_of_unknown d s l h
      obtain ⟨hu', hb', hg'⟩ := counts_congr (t := checkNonce d now s cand) d s l (by rw [hcheck]; rfl) (by rw [hcheck]; rfl)
      rw [hu, hb, hg, hu', hb', hg', hcheck]
      rfl
    | some w =>
      cases hgood : isGood w cand with
      | true =>
        have hcheck : checkNonce d now s cand = goodNonce w now s := by
          rw [checkNonce, h]
          exact if_pos hgood
        obtain ⟨hu, hb, hg⟩ := counts_cons_of_good d s l h hgood
        obtain ⟨hu', hb', hg'⟩ := counts_congr (t := checkNonce d now s cand) d s l (by rw [hcheck]; rfl) (by rw [hcheck]; rfl)
        rw [hu, hb, hg, hu', hb', hg', hcheck, ← tally_goodNonce]
        rfl
      | false =>
        have hcheck : checkNonce d now s cand
            = s.withSes { s.ses with errBadNonce := bump s.cfg s.ses.errBadNonce } := by
          rw [checkNonce, h]
          exact if_neg (Bool.eq_false_iff.mp hgood)
        obtain ⟨hu, hb, hg⟩ := counts_cons_of_bad d s l h hgood
        obtain ⟨hu', hb', hg'⟩ := counts_congr (t := checkNonce d now s cand) d s l (by rw [hcheck]; rfl) (by rw [hcheck]; rfl)
        rw [hu, hb, hg, hu', hb', hg', hcheck]
        rfl

/-- Settles O45. -/
theorem nonceReportCounts : Obligations.NonceReportCounts := by
  intro s nr now hstate htime
  refine ⟨fun d cand w => recordOf_eq_some, fun d cand w z digest hrecord hverify => ?_,
    badCount nr.base.chip s nr.nonces, counts_sum _ _ _, ?_⟩
  · rw [exec_verify] at hverify
    obtain ⟨rfl, -⟩ : clz256 (digestOf w cand) = z ∧ digestOf w cand = digest := by
      simpa [headerIn, digestOf] using congrArg State.result (Host.Outcome.next.inj hverify)
    have hverdict : isGood w cand = true ↔ w.searchDifficulty.toNat ≤ clz256 (digestOf w cand) := by
      rw [isGood, classify, decide_eq_true_iff]
    by_cases hgood : isGood w cand = true
    · rw [(counts_cons_of_good d s [] hrecord hgood).2.2, if_pos (hverdict.mp hgood)]
      rfl
    · rw [(counts_cons_of_bad d s [] hrecord (Bool.eq_false_iff.mpr hgood)).2.2,
        if_neg (fun hle => hgood (hverdict.mpr hle))]
      rfl
  · rw [exec_cycleNonceReport, inCycle_ok (live_of_running hstate) htime,
      dispatch_of_running (s := s.withLastNow (some now)) hstate, dispatchRunning, nonceReport, foldl_checkNonce]
    exact cycleEnds_of_live (live_of_running hstate)

/-! ## Status reports (44_scheduler R206 to R208) -/

theorem mem_eligible {die : DieState} {q : Half} {c : Byte} :
    eligible die q c = true ↔ ∀ x, coreSeqAt die c = some x → seqLe x q = true := by
  unfold eligible
  cases coreSeqAt die c <;> simp

theorem mem_eligibleActive {st : StatusReport} {cores : Byte} {die : DieState} {c : Byte} :
    c ∈ eligibleActive st cores die ↔ c.toNat < cores.toNat ∧ bitAt st.bitmap (2 * c.toNat) = true
      ∧ ∀ q, coreSeqAt die c = some q → seqLe q st.lastSeq = true := by
  rw [eligibleActive, activeCores, List.mem_filter, List.mem_filter, mem_indicesBelow, mem_eligible, and_assoc]

theorem mem_eligiblePending {st : StatusReport} {cores : Byte} {die : DieState} {c : Byte} :
    c ∈ eligiblePending st cores die ↔ c.toNat < cores.toNat ∧ bitAt st.bitmap (2 * c.toNat + 1) = true
      ∧ ∀ q, coreSeqAt die c = some q → seqLe q st.lastSeq = true := by
  rw [eligiblePending, pendingCores, List.mem_filter, List.mem_filter, mem_indicesBelow, mem_eligible, and_assoc]

/-- A report without the thermal bit for a die that exists reconciles its slots. -/
theorem exec_cycleStatusReconcile_cool {s : State} {st : StatusReport} {die : DieState}
    (hstate : s.ses.sstate = .running) (hcool : st.thermal = false) (hchip : st.base.chip.toNat < s.ses.dies.toNat)
    (hdie : s.ses.die[st.base.chip.toNat]? = some die) : exec (.cycleStatusReconcile st) s
      = .next ((reconcile st.base.chip die st s).withResult (.outcome .goOn)) := by
  rw [exec_cycleStatusReconcile, dispatch_of_running hstate, dispatchRunning,
    statusReport_of_cool (dieAt_eq_some.mpr ⟨hchip, hdie⟩) hcool]
  exact cycleEnds_of_live (s := reconcile st.base.chip die st s) (live_of_running hstate)

/-- Settles O47. -/
theorem statusReportReconcilesSlots : Obligations.StatusReportReconcilesSlots := by
  intro s st die hstate hcool hchip hdie
  have hact := shuffle_perm s.draws.shuffles.now (eligibleActive st s.ses.cores die)
  have hpen := shuffle_perm s.shuffleDrawn.draws.shuffles.now (eligiblePending st s.ses.cores die)
  obtain ⟨-, hactNodup⟩ := freeList_of_shuffle s.draws.shuffles.now s.ses.cores
    (fun c => bitAt st.bitmap (2 * c.toNat)) (eligible die st.lastSeq)
  obtain ⟨-, hpenNodup⟩ := freeList_of_shuffle s.shuffleDrawn.draws.shuffles.now s.ses.cores
    (fun c => bitAt st.bitmap (2 * c.toNat + 1)) (eligible die st.lastSeq)
  exact ⟨_, _, exec_cycleStatusReconcile_cool hstate hcool hchip hdie, hactNodup, hpenNodup, fun c =>
    ⟨hact.mem_iff.trans mem_eligibleActive, hpen.mem_iff.trans mem_eligiblePending⟩⟩

/-- Every order of a list is the shuffle of some code (44_scheduler R189 (b)). -/
theorem exists_shuffle {α : Type} : ∀ {l' l : List α}, l'.Perm l → ∃ code, shuffle code l = l'
  | [], l, h => ⟨[], by rw [shuffle, h.symm.eq_nil]⟩
  | a :: l', l, h => by
    obtain ⟨k, hk, rfl⟩ := List.mem_iff_getElem.mp (h.mem_iff.mp List.mem_cons_self)
    have hrest : l'.Perm (l.eraseIdx k) :=
      List.Perm.cons_inv (h.trans (List.getElem_cons_eraseIdx_perm hk).symm)
    obtain ⟨code, rfl⟩ := exists_shuffle hrest
    exact ⟨k :: code, by simp [shuffle, Nat.mod_eq_of_lt hk, hk]⟩

/-- Settles O48: both codes are drawn, each naming one of the two orders. -/
theorem everyOrderCanBeDrawn : Obligations.EveryOrderCanBeDrawn := by
  intro s t st die die' hstate hcool hchip hdie hexec hdie' act pen hact hpen
  have hlen := (List.getElem?_eq_some_iff.mp hdie).1
  rw [exec_cycleStatusReconcile_cool hstate hcool hchip hdie] at hexec
  obtain rfl := Host.Outcome.next.inj hexec
  obtain rfl := Option.some.inj ((List.getElem?_set_self hlen).symm.trans hdie')
  obtain ⟨code, rfl⟩ := exists_shuffle (hact.trans (shuffle_perm _ (eligibleActive st s.ses.cores die)))
  obtain ⟨code', rfl⟩ := exists_shuffle (hpen.trans (shuffle_perm _ (eligiblePending st s.ses.cores die)))
  refine ⟨⟨code, [code']⟩, _, exec_cycleStatusReconcile_cool (s := s.withDraws _) hstate hcool hchip hdie, ?_⟩
  exact List.getElem?_set_self hlen

/-! ## REPORT_TICK (44_scheduler R203, R216) -/

theorem exec_cycleReportTick_running {s : State} {now : Nat} (h : s.ses.sstate = .running) (htime : timeOk s now) :
    exec (.cycleReportTick now) s = cycleEnds (reportTick now (s.withLastNow (some now))) := by
  rw [exec_cycleReportTick, inCycle_ok (live_of_running h) htime, whenIn_of_state (s := s.withLastNow (some now)) h,
    Run.caught_done]

theorem rate_of_before {now t : Nat} {x : Session} (hfirst : x.firstGood = some t) (h : t < now) :
    rate now x = some (x.totalHashes, now - t) := by
  rw [rate, hfirst]
  exact if_pos h

theorem rate_of_undefined {now : Nat} {x : Session} (h : ∀ t, x.firstGood = some t → now ≤ t) : rate now x = none := by
  rw [rate]
  split
  · rfl
  · exact if_neg (Nat.not_lt.mpr (h _ ‹_›))

/-- Settles O52. -/
theorem reportTickReportsWhenDue : Obligations.ReportTickReportsWhenDue := by
  intro s now h htime
  rw [exec_cycleReportTick_running h htime]
  refine ⟨fun t₀ hlast hearly => ?_, fun hdue => ⟨rate now s.ses, ?_, fun t₀ => rate_of_before, rate_of_undefined⟩⟩
  · have hnot : ¬ due (s.withLastNow (some now)).ses.lastReport now reportMs = true :=
      not_due_of_early hlast (by decide) hearly
    rw [reportTick, if_neg hnot]
    exact cycleEnds_of_live (live_of_running h)
  · have hdue' : due (s.withLastNow (some now)).ses.lastReport now reportMs = true :=
      (due_iff (by decide)).mpr hdue
    rw [reportTick, if_pos hdue']
    exact cycleEnds_of_live (live_of_running h)

/-! ## DISPATCH (44_scheduler R197, R198, R210) -/

/-- No rule for an acknowledgement or a status report reads the time. -/
theorem dispatch_initAck_now (ia : InitAck) (now now' : Nat) (s : State) :
    dispatch (.frame (.initAck ia)) now s = dispatch (.frame (.initAck ia)) now' s := rfl

theorem dispatch_statusReport_now (st : StatusReport) (now now' : Nat) (s : State) :
    dispatch (.frame (.statusReport st)) now s = dispatch (.frame (.statusReport st)) now' s := rfl

/-- A token that no row is for is logged, in Starting and in Running. -/
theorem dispatch_of_live {s : State} (hlive : s.ses.sstate ≠ .terminated) {t : Token} {now : Nat} {u : State}
    (hstart : dispatchStarting t s = u) (hrun : dispatchRunning t now s = u) : dispatch t now s = u := by
  cases h : s.ses.sstate with
  | starting => rw [dispatch_of_starting h, hstart]
  | running => rw [dispatch_of_running h, hrun]
  | terminated => exact absurd h hlive

/-- Settles O54. -/
theorem dispatchRunsTheTokensRow : Obligations.DispatchRunsTheTokensRow := by
  intro s now hlive hnow
  have htime : timeOk s now := fun t ht => (Option.some.inj (ht.symm.trans hnow)).le
  have hsame : s.withLastNow (some now) = s := by
    rw [← hnow]
    rfl
  refine ⟨fun ia => ⟨rfl, rfl, fun hstate => ?_⟩, fun nr => ?_, fun st => ⟨rfl, rfl⟩, fun n => ?_, fun f => ?_, fun b => ?_,
    fun code base hstate => ?_, fun code base hstate => ?_⟩
  · exact dispatch_of_running hstate _ now
  · rw [exec_cycleNonceReport, inCycle_ok hlive htime, hsame]
    rfl
  · exact dispatch_of_live hlive rfl rfl
  · exact dispatch_of_live hlive rfl rfl
  · exact dispatch_of_live hlive rfl rfl
  · exact dispatch_of_running hstate _ now
  · exact dispatch_of_starting hstate _ now

end Sys2Proof.Machine
end

section
/-! PROOFS. The cycle peeled: a run with another result, the bytes of a cycle, the drain head first, the tail by the
session's state; and O53 from them. -/

namespace Sys2Proof.Machine

/-! ## Another result (44_scheduler R186)

What the session does not read it does not read as a whole step either. -/

/-- A step that commutes with other waiting bytes and another result commutes with another result. -/
theorem withResult_of_aside {f : State → State} (hf : ∀ w r s, f (s.aside w r) = (f s).aside w r) (s : State)
    (r : Result) : f (s.withResult r) = (f s).withResult r := by
  have hself : f s = (f s).aside s.waiting s.result := hf s.waiting s.result s
  calc f (s.withResult r)
      = (f s).aside s.waiting r := hf s.waiting r s
    _ = ((f s).aside s.waiting s.result).withResult r := rfl
    _ = (f s).withResult r := by rw [← hself]

theorem dispatch_withResult (t : Token) (now : Nat) (s : State) (r : Result) :
    dispatch t now (s.withResult r) = (dispatch t now s).withResult r :=
  withResult_of_aside (fun w r s => dispatch_aside w r t now s) s r

theorem drain_withResult (now : Nat) (s : State) (r : Result) :
    drain now (s.withResult r) = (drain now s).withResult r :=
  withResult_of_aside (fun w r s => drain_aside w r now s) s r

theorem reportTick_withResult (now : Nat) (s : State) (r : Result) :
    reportTick now (s.withResult r) = (reportTick now s).withResult r :=
  withResult_of_aside (fun w r s => reportTick_aside w r now s) s r

/-- What a cycle does once its bytes are fed (44_scheduler R190). -/
def cycleFed (now throttle : Nat) (s : State) : Run :=
  if s.ses.sstate = .terminated then .done s else cycleTail now throttle (drain now s)

theorem cycleFed_of_terminated {s : State} (h : s.ses.sstate = .terminated) (now throttle : Nat) :
    cycleFed now throttle s = .done s := if_pos h

theorem cycleFed_of_live {s : State} (h : s.ses.sstate ≠ .terminated) (now throttle : Nat) :
    cycleFed now throttle s = cycleTail now throttle (drain now s) := if_neg h

theorem cycleFed_caught_withResult (now throttle : Nat) (s : State) (r : Result) :
    (cycleFed now throttle (s.withResult r)).caught = (cycleFed now throttle s).caught.withResult r := by
  refine withResult_of_aside (f := fun s => (cycleFed now throttle s).caught) (fun w r s => ?_) s r
  by_cases h : s.ses.sstate = .terminated
  · rw [cycleFed_of_terminated h, cycleFed_of_terminated (s := s.aside w r) h]
    rfl
  · rw [cycleFed_of_live h, cycleFed_of_live (s := s.aside w r) h, drain_aside, cycleTail_aside, Run.aside_caught]

/-! ## A cycle in three parts -/

/-- How a cycle ends that goes on with the bytes `b` from the state `s`. -/
def cycleFrom (now throttle : Nat) (b : Bytes) (s : State) : StepOutcome :=
  cycleEnds ((cycleFeed now b s).andThen (cycleFed now throttle)).caught

theorem exec_cycle_bytes {s : State} {now : Nat} (hlive : s.ses.sstate ≠ .terminated) (htime : timeOk s now)
    (throttle : Nat) (b : Bytes) : exec (.cycle now throttle false (.bytes b)) s
      = cycleFrom now throttle (s.waiting ++ b) ((s.withLastNow (some now)).withWaiting []) := by
  rw [exec_cycle, inCycle_ok hlive htime]
  rfl

/-- A cycle without bytes, none of them waiting. -/
theorem exec_cycle_nil {s : State} {now : Nat} (hlive : s.ses.sstate ≠ .terminated) (htime : timeOk s now)
    (throttle : Nat) (hwait : s.waiting = []) : exec (.cycle now throttle false (.bytes [])) s
      = cycleEnds (cycleFed now throttle (s.withLastNow (some now))).caught := by
  rw [exec_cycle_bytes hlive htime, hwait, State.withWaiting_of_nil (s := s.withLastNow (some now)) hwait]
  rfl

/-- A part of the bytes that the parser takes whole. -/
theorem cycleFrom_append {now throttle : Nat} {b : Bytes} (b' : Bytes) {s : State} {p : Parser}
    (h : feedBytes s.cfg b s.par = (p, .all)) :
    cycleFrom now throttle (b ++ b') s = cycleFrom now throttle b' (s.withPar p) := by
  rw [cycleFrom, cycleFeed_append b' (congrArg Prod.snd h), h]
  rfl

section
variable {now throttle : Nat} {x : Byte} {s : State}

theorem cycleFrom_nil : cycleFrom now throttle [] s = cycleEnds (cycleFed now throttle s).caught := rfl

theorem cycleFrom_of_ok {p : Parser} (h : feedByte s.cfg x s.par = .ok p) (rest : Bytes) :
    cycleFrom now throttle (x :: rest) s = cycleFrom now throttle rest (s.withPar p) := by
  rw [cycleFrom, cycleFeed, h]
  rfl

theorem cycleFrom_of_inconsistent (h : feedByte s.cfg x s.par = .inconsistent) (rest : Bytes) :
    cycleFrom now throttle (x :: rest) s = cycleEnds (terminate (.fault .internal) s) := by
  rw [cycleFrom, cycleFeed, h]
  rfl

/-- A byte that finds the queue full, where the drain that makes room ends the session. -/
theorem cycleFrom_of_full_terminated (h : feedByte s.cfg x s.par = .full)
    (hend : (drain now s).ses.sstate = .terminated) (rest : Bytes) :
    cycleFrom now throttle (x :: rest) s = cycleEnds ((drain now s).withWaiting (x :: rest)) := by
  have hfeed : cycleFeed now (x :: rest) s = .done ((drain now s).withWaiting (x :: rest)) := by
    rw [cycleFeed, h]
    exact if_pos hend
  rw [cycleFrom, hfeed, Run.andThen_done, cycleFed_of_terminated (s := (drain now s).withWaiting (x :: rest)) hend,
    Run.caught_done]

/-- A byte that finds the queue full though there is nothing to drain waits, and those behind it. -/
theorem cycleFrom_of_stuck (h : feedByte s.cfg x s.par = .full) (hdrained : drain now s = s)
    (hlive : s.ses.sstate ≠ .terminated) (rest : Bytes) :
    cycleFrom now throttle (x :: rest) s = cycleEnds (cycleFed now throttle (s.withWaiting (x :: rest))).caught := by
  have hfeed : cycleFeed now (x :: rest) s = .done (s.withWaiting (x :: rest)) := by
    rw [cycleFeed, h]
    simp only [hdrained, hlive, if_false, h]
  rw [cycleFrom, hfeed, Run.andThen_done]

/-- A byte that finds the queue full, where the drain does not end the session: the bytes go on from the drained
state. -/
theorem cycleFrom_of_full_live (h : feedByte s.cfg x s.par = .full) (hlive : (drain now s).ses.sstate ≠ .terminated)
    (rest : Bytes) : cycleFrom now throttle (x :: rest) s = cycleFrom now throttle (x :: rest) (drain now s) := by
  have hempty : drain now (drain now s) = drain now s := drain_of_empty (drain_queue hlive)
  have hfeed : cycleFeed now (x :: rest) s = cycleFeed now (x :: rest) (drain now s) := by
    rw [cycleFeed, h, cycleFeed]
    simp only [hlive, if_false]
    cases hx : feedByte (drain now s).cfg x (drain now s).par with
    | ok p => rfl
    | inconsistent => rfl
    | full => simp only [hempty, hlive, if_false, hx]
  rw [cycleFrom, hfeed, cycleFrom]

end

/-- The result of the operation before is not read. -/
theorem cycleFrom_withResult (now throttle : Nat) (r : Result) : ∀ (b : Bytes) (s : State),
    cycleFrom now throttle b (s.withResult r) = cycleFrom now throttle b s
  | [], s => by rw [cycleFrom_nil, cycleFed_caught_withResult, cycleEnds_withResult, cycleFrom_nil]
  | x :: rest, s => by
    have hok : ∀ (t : State) (p : Parser), feedByte t.cfg x t.par = .ok p →
        cycleFrom now throttle (x :: rest) (t.withResult r) = cycleFrom now throttle (x :: rest) t := fun t p h => by
      rw [cycleFrom_of_ok h, cycleFrom_of_ok (s := t.withResult r) h]
      exact cycleFrom_withResult now throttle r rest (t.withPar p)
    have hbad : ∀ t : State, feedByte t.cfg x t.par = .inconsistent →
        cycleFrom now throttle (x :: rest) (t.withResult r) = cycleFrom now throttle (x :: rest) t := fun t h => by
      rw [cycleFrom_of_inconsistent h, cycleFrom_of_inconsistent (s := t.withResult r) h, terminate_withResult,
        cycleEnds_withResult]
    cases hx : feedByte s.cfg x s.par with
    | ok p => exact hok s p hx
    | inconsistent => exact hbad s hx
    | full =>
      have hdrain := drain_withResult now s r
      by_cases hend : (drain now s).ses.sstate = .terminated
      · rw [cycleFrom_of_full_terminated hx hend, cycleFrom_of_full_terminated (s := s.withResult r) hx
          (by rw [hdrain]; exact hend), hdrain]
        rfl
      · rw [cycleFrom_of_full_live hx hend, cycleFrom_of_full_live (s := s.withResult r) hx
          (by rw [hdrain]; exact hend), hdrain]
        cases hy : feedByte (drain now s).cfg x (drain now s).par with
        | ok p => exact hok _ p hy
        | inconsistent => exact hbad _ hy
        | full =>
          have hempty : drain now (drain now s) = drain now s := drain_of_empty (drain_queue hend)
          rw [cycleFrom_of_stuck hy hempty hend, cycleFrom_of_stuck (s := (drain now s).withResult r) hy
            (by rw [drain_withResult, hempty]) hend]
          have hfed := cycleFed_caught_withResult now throttle ((drain now s).withWaiting (x :: rest)) r
          exact (congrArg cycleEnds hfed).trans (cycleEnds_withResult _ _)

/-! ## The drain, head first (44_scheduler R190) -/

theorem drain_cons {now : Nat} {s v : State} {x : Token} {q : List Token} (hqueue : s.par.queue = x :: q)
    (hv : v = dispatch x now (s.withPar { s.par with queue := q })) :
    drain now s = if v.ses.sstate = .terminated then v else drain now v := by
  have htaken : s.par.tokenTaken = { s.par with queue := q } := by rw [Parser.tokenTaken, hqueue]; rfl
  have hrest : v.par.queue = q := by rw [hv, (SessionOnly.dispatch _ _ _).par]; rfl
  rw [drain, hqueue, drainTokens, htaken, ← hv, drain, hrest]

/-! ## The tail by the session's state (44_scheduler R190) -/

theorem cycleTail_of_starting {now throttle : Nat} {s : State} (h : s.ses.sstate = .starting) :
    cycleTail now throttle s = initTick now s := by
  have hses : (initTick now s).state.ses.sstate = .starting := (Edits.initTick (sound := False) now s).sstate.trans h
  rw [cycleTail, whenIn_of_state h]
  cases hrun : initTick now s with
  | raise e t => rfl
  | done t =>
    rw [hrun] at hses
    have hother : t.ses.sstate ≠ .running := fun hr => by
      have := hses.symm.trans hr
      cases this
    rw [Run.andThen_done, whenIn_of_other hother, Run.andThen_done, whenIn_of_other hother]

theorem cycleTail_of_running {now throttle : Nat} {s : State} (h : s.ses.sstate = .running) : cycleTail now throttle s
    = (issueAll now throttle s).andThen (fun s => .done (reportTick now s)) := by
  have hother : s.ses.sstate ≠ .starting := fun hs => by
    have := h.symm.trans hs
    cases this
  have hses : (issueAll now throttle s).state.ses.sstate = .running :=
    (Edits.issueAll now throttle (sound := False) fun hf => hf.elim).sstate.trans h
  rw [cycleTail, whenIn_of_other hother, Run.andThen_done, whenIn_of_state h]
  cases hrun : issueAll now throttle s with
  | raise e t => rfl
  | done t =>
    rw [hrun] at hses
    rw [Run.andThen_done, Run.andThen_done]
    exact whenIn_of_state (s := t) hses _

theorem exec_cycleIssueAll_running {s : State} {now : Nat} (throttle : Nat) (h : s.ses.sstate = .running)
    (htime : timeOk s now) :
    exec (.cycleIssueAll now throttle) s = cycleEnds (issueAll now throttle (s.withLastNow (some now))).caught := by
  rw [exec_cycleIssueAll, inCycle_ok (live_of_running h) htime, whenIn_of_state (s := s.withLastNow (some now)) h]

/-! ## A cycle from a state at its time -/

/-- A time noted is the time of a state that has it. -/
theorem withLastNow_of_lastNow {s : State} {now : Nat} (h : s.lastNow = some now) :
    s.withLastNow (some now) = s := by rw [← h]; rfl

theorem timeOk_of_lastNow {s : State} {now : Nat} (h : s.lastNow = some now) : timeOk s now := by
  intro t ht
  rw [h] at ht
  exact le_of_eq (Option.some.inj ht).symm

/-- The tail with nothing in the queue. -/
theorem cycleFed_of_empty {s : State} (hlive : s.ses.sstate ≠ .terminated) (hqueue : s.par.queue = [])
    (now throttle : Nat) :
    cycleFed now throttle s = cycleTail now throttle s := by
  rw [cycleFed_of_live hlive, drain_of_empty hqueue]

section
variable {s : State} {now : Nat} (throttle : Nat)

/-- Bytes fed whole: the cycle goes on as one without bytes (44_scheduler R190). -/
theorem exec_cycle_of_fed {b : Bytes} {u : State} (hlive : s.ses.sstate ≠ .terminated) (htime : timeOk s now)
    (hfeed : exec (.feed b) s = .next u) (hresult : u.result = .unit) :
    exec (.cycle now throttle false (.bytes b)) s = exec (.cycle now throttle false (.bytes [])) u := by
  rw [exec_feed] at hfeed
  rcases feedBytes_cases s.cfg (s.waiting ++ b) s.par with hall | ⟨-, x, rest, -, hfull, -, -⟩ | hbad
  · have htaken : feedBytes s.cfg (s.waiting ++ b) s.par = ((feedBytes s.cfg (s.waiting ++ b) s.par).1, .all) :=
      Prod.ext rfl hall
    obtain rfl := Host.Outcome.next.inj ((feedOp_of_all htaken).symm.trans hfeed)
    have hcycle := cycleFrom_append (now := now) (throttle := throttle) []
      (s := (s.withLastNow (some now)).withWaiting []) htaken
    rw [List.append_nil] at hcycle
    rw [exec_cycle_bytes hlive htime, hcycle, exec_cycle_bytes (by exact hlive) (by exact htime)]
    exact (cycleFrom_withResult now throttle .unit [] _).symm
  · obtain rfl := Host.Outcome.next.inj ((feedOp_of_full (Prod.ext rfl hfull)).symm.trans hfeed)
    cases hresult
  · rw [feedOp_of_inconsistent (Prod.ext rfl hbad)] at hfeed
    rw [fatalResult_raised hfeed] at hresult
    cases hresult

/-- Bytes fed as far as the queue had room: the drain, and the cycle goes on with those that wait (log 19). -/
theorem exec_cycle_of_stalled {b rest : Bytes} {u v : State} (hlive : s.ses.sstate ≠ .terminated)
    (htime : timeOk s now) (hfeed : exec (.feed b) s = .next u) (hresult : u.result = .stalled rest)
    (hv : v = drain now (u.withLastNow (some now))) :
    u.waiting = rest ∧ v.waiting = rest
    ∧ (v.ses.sstate = .terminated → exec (.cycle now throttle false (.bytes b)) s
      = .next (v.withResult (.outcome (.terminated v.ses.termReason))))
    ∧ (v.ses.sstate ≠ .terminated → exec (.cycle now throttle false (.bytes b)) s
      = exec (.cycle now throttle false (.bytes [])) v) := by
  rw [exec_feed] at hfeed
  rcases feedBytes_cases s.cfg (s.waiting ++ b) s.par with hall | ⟨taken, x, after, hsplit, hfull, htaken, hx⟩ | hbad
  · obtain rfl := Host.Outcome.next.inj ((feedOp_of_all (Prod.ext rfl hall)).symm.trans hfeed)
    cases hresult
  · obtain rfl := Host.Outcome.next.inj ((feedOp_of_full (Prod.ext rfl hfull)).symm.trans hfeed)
    obtain rfl : x :: after = rest := Result.stalled.inj hresult
    generalize feedBytes s.cfg (s.waiting ++ b) s.par = fed at htaken hx hv
    -- the state of the cycle once the bytes that fit are fed
    obtain ⟨t, ht⟩ : ∃ t, t = ((s.withLastNow (some now)).withWaiting []).withPar fed.1 := ⟨_, rfl⟩
    have hcycle : exec (.cycle now throttle false (.bytes b)) s = cycleFrom now throttle (x :: after) t := by
      rw [exec_cycle_bytes hlive htime, hsplit, ht]
      exact cycleFrom_append (x :: after) (s := (s.withLastNow (some now)).withWaiting []) htaken
    have hxt : feedByte t.cfg x t.par = .full := by rw [ht]; exact hx
    have hdrain : DrainOnly t (drain now t) := DrainOnly.drain now t
    have hv' : v = (drain now t).aside (x :: after) (.stalled (x :: after)) := by
      rw [hv, ← drain_aside, ht]
      rfl
    have hnow : v.lastNow = some now := by
      rw [hv', aside_lastNow, hdrain.lastNow, ht]
      rfl
    subst hv'
    refine ⟨rfl, rfl, fun hend => ?_, fun hgo => ?_⟩
    · rw [hcycle, cycleFrom_of_full_terminated hxt hend]
      exact cycleEnds_of_terminated (s := (drain now t).withWaiting (x :: after)) hend
    · have hnone : (drain now t).withWaiting [] = drain now t :=
        State.withWaiting_of_nil (hdrain.waiting.trans (by rw [ht]; rfl))
      rw [hcycle, cycleFrom_of_full_live hxt hgo, exec_cycle_bytes hgo (timeOk_of_lastNow hnow),
        withLastNow_of_lastNow hnow, List.append_nil, ← cycleFrom_withResult now throttle (.stalled (x :: after)),
        ← hnone]
      rfl
  · rw [feedOp_of_inconsistent (Prod.ext rfl hbad)] at hfeed
    rw [fatalResult_raised hfeed] at hresult
    cases hresult

/-- A cycle takes the head of the queue and dispatches it (44_scheduler R190). -/
theorem exec_cycle_of_token {x : Token} {u v : State} (hlive : s.ses.sstate ≠ .terminated) (htime : timeOk s now)
    (hwait : s.waiting = []) (htake : exec .takeToken s = .next u) (hresult : u.result = .token (some x))
    (hv : v = dispatch x now (u.withLastNow (some now))) :
    (v.ses.sstate = .terminated → exec (.cycle now throttle false (.bytes [])) s
      = .next (v.withResult (.outcome (.terminated v.ses.termReason))))
    ∧ (v.ses.sstate ≠ .terminated → exec (.cycle now throttle false (.bytes [])) s
      = exec (.cycle now throttle false (.bytes [])) v) := by
  obtain ⟨q, hqueue⟩ : ∃ q, s.par.queue = x :: q := by
    obtain rfl := Host.Outcome.next.inj htake
    exact List.head?_eq_some_iff.mp (Result.token.inj hresult)
  obtain ⟨-, hsome⟩ := tokenQueueOperations s
  obtain ⟨-, htoken⟩ := hsome x q hqueue
  obtain rfl := Host.Outcome.next.inj (htoken.symm.trans htake)
  -- the state after the dispatch, but for the result that TAKE_TOKEN has left
  obtain ⟨w, hw⟩ : ∃ w, w = dispatch x now ((s.withLastNow (some now)).withPar { s.par with queue := q }) := ⟨_, rfl⟩
  have hdispatch := SessionOnly.dispatch x now ((s.withLastNow (some now)).withPar { s.par with queue := q })
  rw [← hw] at hdispatch
  obtain rfl : v = w.withResult (.token (some x)) := by
    rw [hv, hw]
    exact dispatch_withResult x now ((s.withLastNow (some now)).withPar { s.par with queue := q }) _
  have hcycle : exec (.cycle now throttle false (.bytes [])) s
      = cycleEnds (cycleTail now throttle (if w.ses.sstate = .terminated then w else drain now w)).caught := by
    rw [exec_cycle_nil hlive htime throttle hwait, cycleFed_of_live (s := s.withLastNow (some now)) hlive,
      drain_cons (s := s.withLastNow (some now)) hqueue hw]
  refine ⟨fun hend => ?_, fun hgo => ?_⟩
  · have hend' : w.ses.sstate = .terminated := hend
    rw [hcycle, if_pos hend', cycleTail_of_terminated hend']
    exact cycleEnds_of_terminated hend'
  · have hgo' : w.ses.sstate ≠ .terminated := hgo
    have hnow : (w.withResult (.token (some x))).lastNow = some now := hdispatch.lastNow
    rw [hcycle, if_neg hgo', exec_cycle_nil hgo (timeOk_of_lastNow hnow) throttle (hdispatch.waiting.trans hwait),
      withLastNow_of_lastNow hnow, cycleFed_caught_withResult, cycleEnds_withResult, cycleFed_of_live hgo']

/-- A cycle with nothing fed and nothing queued is its tail. -/
theorem exec_cycle_of_idle (hlive : s.ses.sstate ≠ .terminated) (htime : timeOk s now) (hwait : s.waiting = [])
    (hqueue : s.par.queue = []) : exec (.cycle now throttle false (.bytes [])) s
      = cycleEnds (cycleTail now throttle (s.withLastNow (some now))).caught := by
  rw [exec_cycle_nil hlive htime throttle hwait,
    cycleFed_of_empty (s := s.withLastNow (some now)) hlive hqueue now throttle]

/-- In Running, with nothing fed and nothing queued: ISSUE_ALL and, where the session goes on, REPORT_TICK. -/
theorem exec_cycle_of_idle_running (h : s.ses.sstate = .running) (htime : timeOk s now) (hwait : s.waiting = [])
    (hqueue : s.par.queue = []) : ∃ u, exec (.cycleIssueAll now throttle) s = .next u
      ∧ (u.ses.sstate = .terminated → exec (.cycle now throttle false (.bytes [])) s = .next u)
      ∧ (u.ses.sstate ≠ .terminated → u.ses.sstate = .running
        ∧ exec (.cycle now throttle false (.bytes [])) s = exec (.cycleReportTick now) u) := by
  have hrunning : (s.withLastNow (some now)).ses.sstate = .running := h
  have hedits := Edits.issueAll now throttle (sound := False) (s := s.withLastNow (some now)) fun hf => hf.elim
  have honly := SessionOnly.issueAll now throttle (s.withLastNow (some now))
  rw [exec_cycleIssueAll_running throttle h htime, exec_cycle_of_idle throttle (live_of_running h) htime hwait hqueue,
    cycleTail_of_running hrunning]
  cases hrun : issueAll now throttle (s.withLastNow (some now)) with
  | raise e t =>
    have hended := congrArg Session.sstate (terminate_ses (.fault e) t)
    exact ⟨_, rfl, fun _ => rfl, fun hgo => absurd hended hgo⟩
  | done t =>
    rw [hrun] at hedits honly
    have ht : t.ses.sstate = .running := hedits.sstate.trans hrunning
    have hnow : (t.withResult (.outcome .goOn)).lastNow = some now := honly.lastNow
    refine ⟨t.withResult (.outcome .goOn), cycleEnds_of_live (live_of_running ht),
      fun hend => absurd hend (live_of_running ht), fun _ => ⟨ht, ?_⟩⟩
    rw [exec_cycleReportTick_running (s := t.withResult (.outcome .goOn)) ht (timeOk_of_lastNow hnow),
      withLastNow_of_lastNow hnow, reportTick_withResult, cycleEnds_withResult]
    rfl

end

/-- Settles O53. -/
theorem cycleFeedsDrainsAndIssues : Obligations.CycleFeedsDrainsAndIssues := by
  refine ⟨fun s now => ⟨drain_of_empty, fun x q v => drain_cons⟩, fun s now throttle hlive htime =>
    ⟨fun b u => exec_cycle_of_fed throttle hlive htime, fun b rest u v => exec_cycle_of_stalled throttle hlive htime,
      fun hwait x u htake hresult => exec_cycle_of_token throttle hlive htime hwait htake hresult rfl,
      fun hwait hqueue h => ?_, fun hwait hqueue h => exec_cycle_of_idle_running throttle h htime hwait hqueue⟩⟩
  rw [exec_cycle_of_idle throttle hlive htime hwait hqueue, cycleTail_of_starting (s := s.withLastNow (some now)) h,
    exec_cycleInitTick_starting h htime]

end Sys2Proof.Machine
end

section
/-! PROOFS. ISSUE_ONE: the frame it sends, the bookkeeping before it; and O50 from them. -/

namespace Sys2Proof.Machine

/-! ## The hash-job frame (30_encoding R70, R71) -/

/-- A job's bytes are a payload (00_scope R6 on the pad). -/
theorem jobBytes_payloadOk {c : Cfg} (h : c.wf) (j : HashJob) : payloadOk (jobBytes c j) = true := by
  obtain ⟨hbounds, -⟩ := h
  simp only [Cfg.bounds, Bool.and_eq_true, decide_eq_true_eq, beq_iff_eq] at hbounds
  obtain ⟨⟨-, hpad⟩, hmax⟩ := hbounds
  rw [payloadOk_iff, jobBytes_length]
  omega

theorem opHash_known {c : Cfg} (h : c.wf) : c.opHash ∈ c.knownOpcodes := sessionOpcodes_known h _ (by simp)

/-! ## The bookkeeping of one issue (44_scheduler R213, R214) -/

/-- What a table holds after an issue: the new record under the die's next sequence. -/
theorem workGet_issuedDie_self (die : DieState) (d c : Byte) (now : Nat) (job : HashJob) :
    workGet (issuedDie die d c now job).work die.seqNext = some (issueRecord d c now job) := by
  rw [issuedDie_work, workGet_workPut_self]

/-- Under every other key it holds what it held without the core's last record. -/
theorem workGet_issuedDie_ne {die : DieState} {k : Half} (h : k ≠ die.seqNext) (d c : Byte) (now : Nat)
    (job : HashJob) : workGet (issuedDie die d c now job).work k = workGet (workWithout die c) k := by
  rw [issuedDie_work, workGet_workPut_ne _ h]

/-- ISSUE_ONE on a die and a core that exist is `tx` of the hash-job frame after the bookkeeping. -/
theorem exec_cycleIssueOne_of_core {s : State} {d c : Byte} {now : Nat} {die : DieState}
    (hstate : s.ses.sstate = .running) (htime : timeOk s now) (hdie : dieAt s d = some die)
    (hc : c.toNat < s.ses.cores.toNat) : exec (.cycleIssueOne d c now) s
      = cycleEnds (tx s.cfg.opHash (hashBody s.cfg d c die.seqNext (issuedJob s))
        ((s.withLastNow (some now)).jobDrawn.withDie d (issuedDie die d c now (issuedJob s)))).caught := by
  rw [exec_cycleIssueOne_running d c hstate htime, hdie]
  exact if_pos hc

/-- Settles O50: the bookkeeping, then the frame by SEND. -/
theorem issueOneRecordsAndSends : Obligations.IssueOneRecordsAndSends := by
  rintro s d c now die hwf hstate htime hd hdie hc job rfl
  have hissue := exec_cycleIssueOne_of_core hstate htime (dieAt_eq_some.mpr ⟨hd, hdie⟩) hc
  obtain ⟨v, hses, hsent⟩ := tx_eq_send (op := s.cfg.opHash) (b := hashBody s.cfg d c die.seqNext (issuedJob s))
    (s := (s.withLastNow (some now)).jobDrawn.withDie d (issuedDie die d c now (issuedJob s)))
    (opHash_known hwf) (jobBytes_payloadOk hwf _) (live_of_running hstate)
  have hv : v.ses.sstate = .running := (congrArg Session.sstate hses).trans hstate
  refine ⟨(issuedDie die d c now (issuedJob s)).work, ?_⟩
  have hwork : ∀ k, workGet (issuedDie die d c now (issuedJob s)).work k =
      if k = die.seqNext then some (issueRecord d c now (issuedJob s))
      else if coreSeqAt die c = some k then (workGet die.work k).filter (fun w => w.core ≠ c)
      else workGet die.work k := fun k => by
    by_cases hk : k = die.seqNext
    · rw [if_pos hk, hk, workGet_issuedDie_self]
    · rw [if_neg hk, workGet_issuedDie_ne hk, workGet_workWithout]
  obtain ⟨htx, hsend⟩ | ⟨htx, hfail, hsend⟩ := hsent
  · refine ⟨_, hwork, hsend, ?_, fun hne => absurd rfl hne, fun _ => rfl⟩
    rw [hissue, htx, Run.caught_done, if_pos (State.withResult_result _ _)]
    exact cycleEnds_of_live (live_of_running hv)
  · have hne : ((terminate (.fault .transport) v).withResult (.raised .transport)).result ≠ .unit :=
      fun e => Result.noConfusion e
    refine ⟨_, hwork, hsend, ?_, fun _ => ?_, fun hs => absurd hs hfail⟩
    · rw [hissue, htx, Run.caught_raise, if_neg hne, cycleEnds_terminate]
      rfl
    · rw [State.withResult_ses, terminate_ses, hses]
      exact ⟨rfl, rfl, rfl⟩

end Sys2Proof.Machine
end

section
/-! PROOFS. ISSUE_ALL: the slots it fills, in order; what a die holds after some of its cores were issued to; the state
after the first slots are filled, kept by every issue and by leaving a die; and O51 from them. -/

namespace Sys2Proof.Machine

/-! ## The slots in order (44_scheduler R211) -/

section
variable (c : Cfg) (throttle : Nat)

/-- The slots of a list of dies: those before a die, its own, those behind it. -/
theorem allSlots_append_cons (a : List DieState) (die : DieState) (b : List DieState) :
    ∃ rest, (b = [] → rest = []) ∧
      allSlots c throttle (a ++ die :: b) = allSlots c throttle a ++ (dieSlots c throttle a.length die ++ rest) := by
  refine ⟨((b.zipIdx (a.length + 1)).map (fun e => dieSlots c throttle e.2 e.1)).flatten, ?_, ?_⟩
  · rintro rfl
    rfl
  · simp [allSlots, List.zipIdx_append, List.zipIdx_cons]

theorem dieSlots_length (d : Nat) (die : DieState) :
    (dieSlots c throttle d die).length = (servedCores c throttle die).length := by simp [dieSlots]

theorem dieSlots_getElem? {d j : Nat} {die : DieState} {x : Byte} (h : (servedCores c throttle die)[j]? = some x) :
    (dieSlots c throttle d die)[j]?
      = some { die := BitVec.ofNat 8 d, core := x, sequence := die.seqNext + BitVec.ofNat 16 j } := by
  simp [dieSlots, h]

variable {c throttle} {dies : List DieState}

theorem split_at_die {d : Nat} {die : DieState} (h : dies[d]? = some die) :
    dies = dies.take d ++ die :: dies.drop (d + 1) ∧ (dies.take d).length = d := by
  obtain ⟨hlt, rfl⟩ := List.getElem?_eq_some_iff.mp h
  exact ⟨by rw [List.cons_getElem_drop_succ, List.take_append_drop], by simp [Nat.le_of_lt hlt]⟩

theorem slotsBefore_zero : slotsBefore c throttle dies 0 = 0 := rfl

theorem slotsBefore_length : slotsBefore c throttle dies dies.length = (allSlots c throttle dies).length := by
  rw [slotsBefore, List.take_length]

theorem slotsBefore_succ {d : Nat} {die : DieState} (h : dies[d]? = some die) :
    slotsBefore c throttle dies (d + 1) = slotsBefore c throttle dies d + (servedCores c throttle die).length := by
  obtain ⟨-, hlen⟩ := split_at_die h
  obtain ⟨rest, hrest, hslots⟩ := allSlots_append_cons c throttle (dies.take d) die []
  rw [slotsBefore, List.take_add_one, h, Option.toList_some, hslots, hrest rfl, List.append_nil, List.length_append,
    dieSlots_length, slotsBefore]

theorem slotsBefore_le {d e : Nat} (h : d ≤ e) : slotsBefore c throttle dies d ≤ slotsBefore c throttle dies e := by
  refine monotone_nat_of_le_succ (f := slotsBefore c throttle dies) (fun n => ?_) h
  cases hn : dies[n]? with
  | some die =>
    rw [slotsBefore_succ hn]
    exact Nat.le_add_right _ _
  | none => rw [slotsBefore, slotsBefore, List.take_add_one, hn, Option.toList_none, List.append_nil]

/-- The slot of a die's `j`-th served core. -/
theorem allSlots_getElem? {d j : Nat} {die : DieState} {x : Byte} (h : dies[d]? = some die)
    (hj : (servedCores c throttle die)[j]? = some x) :
    (allSlots c throttle dies)[slotsBefore c throttle dies d + j]?
      = some { die := BitVec.ofNat 8 d, core := x, sequence := die.seqNext + BitVec.ofNat 16 j } := by
  obtain ⟨hdies, hlen⟩ := split_at_die h
  obtain ⟨rest, -, hslots⟩ := allSlots_append_cons c throttle (dies.take d) die (dies.drop (d + 1))
  have hlt : j < (dieSlots c throttle d die).length := by
    rw [dieSlots_length]
    exact (List.getElem?_eq_some_iff.mp hj).1
  rw [← hdies, hlen] at hslots
  rw [hslots, slotsBefore, List.getElem?_append_right (Nat.le_add_right _ _), Nat.add_sub_cancel_left,
    List.getElem?_append_left hlt, dieSlots_getElem? c throttle hj]

end

/-! ## The cores served (44_scheduler R211, R212) -/

theorem servedCores_eq (c : Cfg) (throttle : Nat) (die : DieState) : servedCores c throttle die
    = truncate c die.freeActive throttle ++ (if throttle = 0 then die.freePending else []) := rfl

theorem truncate_length_le (c : Cfg) (l : List Byte) (t : Nat) : (truncate c l t).length ≤ l.length := by
  unfold truncate
  split
  · exact le_rfl
  · split
    · exact List.length_take_le' _ _
    · exact List.length_take_le' _ _

/-- Distinct cores are no more than there are. -/
theorem length_le_of_cores {cores : Byte} {l : List Byte} (hnodup : l.Nodup) (h : ∀ x ∈ l, x.toNat < cores.toNat) :
    l.length ≤ cores.toNat := by
  have hmap : (l.map BitVec.toNat).Nodup := hnodup.map fun _ _ => BitVec.eq_of_toNat_eq
  have hsub : l.map BitVec.toNat ⊆ List.range cores.toNat := by
    intro n hn
    obtain ⟨x, hx, rfl⟩ := List.mem_map.mp hn
    exact List.mem_range.mpr (h x hx)
  simpa using (hmap.subperm hsub).length_le

section
variable {cores : Byte} {d : Nat} {die : DieState}

/-- A sound die serves cores that exist. -/
theorem servedCores_lt (h : dieInv cores d die) (c : Cfg) (throttle : Nat) :
    ∀ x ∈ servedCores c throttle die, x.toNat < cores.toNat := by
  obtain ⟨-, -, -, hact, -, hpen, -⟩ := h
  intro x hx
  rw [servedCores_eq] at hx
  rcases List.mem_append.mp hx with hx | hx
  · exact hact x (truncate_subset _ _ _ hx)
  · split at hx
    · exact hpen x hx
    · cases hx

/-- A sound die serves each core twice at most: its counter does not come round. -/
theorem servedCores_length_lt (h : dieInv cores d die) (c : Cfg) (throttle : Nat) :
    (servedCores c throttle die).length < 65536 := by
  obtain ⟨-, -, -, hact, hactNodup, hpen, hpenNodup⟩ := h
  have hactive := (truncate_length_le c die.freeActive throttle).trans (length_le_of_cores hactNodup hact)
  have hpending : (if throttle = 0 then die.freePending else []).length ≤ cores.toNat := by
    split
    · exact length_le_of_cores hpenNodup hpen
    · exact Nat.zero_le _
  have hcores := cores.isLt
  rw [servedCores_eq, List.length_append]
  omega

end

/-! ## A die some of whose cores were issued to (44_scheduler R213, R214) -/

section
variable {s : State} {now i d : Nat} {die die' : DieState} {l : List Byte}

theorem dieIssued_nil (s : State) (now i d : Nat) (die : DieState) : dieIssued s now i d die die [] := by
  refine ⟨(BitVec.add_zero _).symm, rfl, rfl, rfl, fun _ _ => rfl, fun before c after h => ?_, fun k _ => ?_⟩
  · exact absurd h (by simp)
  · cases workGet die.work k with
    | none => rfl
    | some w => simp [Option.filter_some]

/-- Its free lists are of no concern. -/
theorem dieIssued_withLists (h : dieIssued s now i d die die' l) (act pen : List Byte) :
    dieIssued s now i d die { die' with freeActive := act, freePending := pen } l := h

/-- Sequence numbers given fewer than 65536 issues apart differ. -/
theorem seq_ne_of_lt {q : Half} {a b : Nat} (hab : a < b) (hb : b < 65536) :
    q + BitVec.ofNat 16 a ≠ q + BitVec.ofNat 16 b := by
  intro h
  have := congrArg BitVec.toNat (add_left_cancel h)
  simp only [BitVec.toNat_ofNat] at this
  omega

section
variable {cores c : Byte}

/-- What one issue more leaves of a table: the records of other cores. -/
theorem workGet_issuedDie_of_dieInv (hinv : dieInv cores d die') {k : Half} (hk : k ≠ die'.seqNext) (d : Byte)
    (now : Nat) (job : HashJob) :
    workGet (issuedDie die' d c now job).work k = (workGet die'.work k).filter (fun w => w.core ≠ c) := by
  rw [workGet_issuedDie_ne hk, workGet_workWithout_of_dieInv hinv]

variable (h : dieIssued s now i d die die' l) (hinv : dieInv cores d die')
include h hinv

/-- The issue just made. -/
theorem dieIssued_last (hc : c.toNat < cores.toNat) {x : Slot} (hx : x
      = { die := BitVec.ofNat 8 d, core := c, sequence := die.seqNext + BitVec.ofNat 16 l.length }) :
    coreSeqAt (issuedDie die' (BitVec.ofNat 8 d) c now (nthJob s (i + l.length))) c = some x.sequence
    ∧ workGet (issuedDie die' (BitVec.ofNat 8 d) c now (nthJob s (i + l.length))).work x.sequence
      = some (slotRecord s now x (i + l.length)) := by
  obtain ⟨hseq, -⟩ := h
  obtain ⟨hcount, -⟩ := hinv
  have hxseq : x.sequence = die'.seqNext := by rw [hx, hseq]
  rw [coreSeqAt_issuedDie_self _ _ _ (hcount.symm ▸ hc), hxseq, workGet_issuedDie_self, hx]
  exact ⟨rfl, rfl⟩

/-- An earlier issue, after one more to the core `c`. -/
theorem dieIssued_earlier {before after : List Byte} {c' : Byte} (hl : l = before ++ c' :: after)
    (hlen : l.length < 65536) {x : Slot}
    (hx : x = { die := BitVec.ofNat 8 d, core := c', sequence := die.seqNext + BitVec.ofNat 16 before.length })
    (job : HashJob) :
    (c' ∉ after ++ [c] → coreSeqAt (issuedDie die' (BitVec.ofNat 8 d) c now job) c' = some x.sequence)
    ∧ workGet (issuedDie die' (BitVec.ofNat 8 d) c now job).work x.sequence
      = if c' ∈ after ++ [c] then none else some (slotRecord s now x (i + before.length)) := by
  obtain ⟨hseq, -, -, -, -, hissued, -⟩ := id h
  obtain ⟨hlast, hrecord⟩ := hissued before c' after hl x hx
  have hne : x.sequence ≠ die'.seqNext := by
    rw [hx, hseq]
    exact seq_ne_of_lt (by simp [hl]) hlen
  have hcore : (slotRecord s now x (i + before.length)).core = c' := by rw [hx]; rfl
  refine ⟨fun hnot => ?_, ?_⟩
  · rw [List.mem_append, List.mem_singleton, not_or] at hnot
    obtain ⟨hafter, hcc⟩ := hnot
    rw [coreSeqAt_issuedDie_ne die' _ c now _ hcc, hlast hafter]
  · rw [workGet_issuedDie_of_dieInv hinv hne, hrecord]
    by_cases hafter : c' ∈ after
    · simp [hafter]
    · by_cases hcc : c' = c
      · simp [hcore, hcc]
      · simp [hafter, hcore, hcc]

/-- One core more. -/
theorem dieIssued_snoc (hc : c.toNat < cores.toNat) (hlen : l.length < 65536) : dieIssued s now i d die
    (issuedDie die' (BitVec.ofNat 8 d) c now (nthJob s (i + l.length))) (l ++ [c]) := by
  obtain ⟨hseq, hthermal, hmonitor, hlast, hothers, -, hearlier⟩ := id h
  refine ⟨?_, hthermal, hmonitor, hlast, fun c' hc' => ?_, fun before c' after hsplit x hx => ?_, fun k hk => ?_⟩
  · rw [issuedDie_seqNext, hseq, List.length_append, List.length_singleton, BitVec.ofNat_add, BitVec.add_assoc]
    rfl
  · rw [List.mem_append, List.mem_singleton, not_or] at hc'
    obtain ⟨hl, hne⟩ := hc'
    rw [coreSeqAt_issuedDie_ne die' _ c now _ hne, hothers c' hl]
  · rcases List.eq_nil_or_concat after with rfl | ⟨after', y, rfl⟩
    · obtain ⟨rfl, hy⟩ := List.append_inj' hsplit rfl
      obtain rfl : c = c' := by simpa using hy
      obtain ⟨hnumber, hrecord⟩ := dieIssued_last h hinv hc hx
      exact ⟨fun _ => hnumber, hrecord⟩
    · have hsplit' : l ++ [c] = (before ++ c' :: after') ++ [y] := by rw [hsplit]; simp
      obtain ⟨hl, hy⟩ := List.append_inj' hsplit' rfl
      obtain rfl : c = y := by simpa using hy
      rw [List.concat_eq_append]
      exact dieIssued_earlier h hinv hl hlen hx _
  · have hne : k ≠ die'.seqNext := by
      rw [hseq]
      exact hk l.length (by simp)
    rw [workGet_issuedDie_of_dieInv hinv hne, hearlier k fun j hj => hk j (by simp; omega), Option.filter_filter]
    simp [Bool.and_comm]

end

end

/-! ## One issue whose frame fits one chunk (44_scheduler R215, 45_transport R232) -/

/-- `s` after the bookkeeping of one issue and the one call that sends its frame. -/
def State.issued (s : State) (d c : Byte) (now : Nat) (die : DieState) : State :=
  sendCall (wireBytes s.cfg.crc s.cfg.opHash (hashBody s.cfg d c die.seqNext (issuedJob s)))
    (s.jobDrawn.withDie d (issuedDie die d c now (issuedJob s)))

theorem tx_of_encoded {op : Byte} {b : FrameBody} {s : State} {w : Bytes} (h : encodeBody s.cfg op b = .ok w) :
    tx op b s = if (sendBytes w s).2 then .done (sendBytes w s).1 else .raise .transport (sendBytes w s).1 := by
  unfold tx
  rw [h]

theorem issueOne_of_fits {s : State} {d c : Byte} {now : Nat} {die : DieState} (hdie : dieAt s d = some die)
    (hwf : s.cfg.wf) (hfits : 68 + s.cfg.jobPad ≤ s.cfg.maxSendSize) : issueOne d c now s
      = if s.draws.sends.now then .done (s.issued d c now die) else .raise .transport (s.issued d c now die) := by
  have hencode : encodeBody s.cfg s.cfg.opHash (hashBody s.cfg d c die.seqNext (issuedJob s))
      = .ok (wireBytes s.cfg.crc s.cfg.opHash (hashBody s.cfg d c die.seqNext (issuedJob s))) :=
    frameEncode_bytes (opHash_known hwf) (jobBytes_payloadOk hwf _)
  have hlen : (wireBytes s.cfg.crc s.cfg.opHash (hashBody s.cfg d c die.seqNext (issuedJob s))).length
      ≤ s.cfg.maxSendSize := by
    have hdata : (hashBody s.cfg d c die.seqNext (issuedJob s)).data.length = 60 + s.cfg.jobPad := jobBytes_length _ _
    rw [wireBytes_length, hdata]
    omega
  have htx := tx_of_encoded (s := s.jobDrawn.withDie d (issuedDie die d c now (issuedJob s))) hencode
  rw [sendBytes_oneChunk (s := s.jobDrawn.withDie d (issuedDie die d c now (issuedJob s))) hlen] at htx
  rw [issueOne, hdie]
  exact htx

/-! ## The state after the first slots are filled (44_scheduler R211) -/

/-- `die'` is the `d`-th die of `s`, `die`, after an issuance at `now` has left the first `k` dies and filled the first
`m` slots. -/
def dieFilled (s : State) (now throttle k m d : Nat) (die die' : DieState) : Prop :=
  dieInv s.ses.cores d die'
  ∧ dieIssued s now (slotsBefore s.cfg throttle s.ses.die d) d die die'
      ((servedCores s.cfg throttle die).take (m - slotsBefore s.cfg throttle s.ses.die d))
  ∧ (if d < k then die'.freeActive = [] ∧ die'.freePending = []
      else die'.freeActive = die.freeActive ∧ die'.freePending = die.freePending)

/-- `t` is `s` after an issuance at `now` has left the first `k` dies and filled the first `m` slots. -/
structure Filled (s t : State) (now throttle k m : Nat) : Prop where
  ses     : t.ses = { s.ses with die := t.ses.die }
  length  : t.ses.die.length = s.ses.die.length
  cfg     : t.cfg = s.cfg
  par     : t.par = s.par
  calls   : t.calls = s.calls
  waiting : t.waiting = s.waiting
  lastNow : t.lastNow = some now
  log     : t.log = s.log
  draws   : t.draws = { s.draws with jobs := Draw.rest^[m] s.draws.jobs, sends := Draw.rest^[m] s.draws.sends }
  sent    : t.sent = s.sent ++ (((allSlots s.cfg throttle s.ses.die).take m).zipIdx.map
    (fun e => { bytes := slotFrame s e.1 e.2, ok := s.draws.sends.nth e.2 }))
  dies    : ∀ (d : Nat) (die : DieState), s.ses.die[d]? = some die → ∃ die', t.ses.die[d]? = some die'
    ∧ dieFilled s now throttle k m d die die'

/-- What holds of every die holds still after one of them is written. -/
theorem dies_set {x y : List DieState} {k : Nat} {new : DieState} {p q : Nat → DieState → DieState → Prop}
    (hlen : y.length = x.length) (h : ∀ d die, x[d]? = some die → ∃ die', y[d]? = some die' ∧ p d die die')
    (hself : ∀ die, x[k]? = some die → q k die new)
    (hother : ∀ d die die', d ≠ k → x[d]? = some die → p d die die' → q d die die') :
    ∀ d die, x[d]? = some die → ∃ die', (y.set k new)[d]? = some die' ∧ q d die die' := by
  intro d die hd
  by_cases hdk : d = k
  · subst hdk
    have hlt := hlen.symm ▸ (List.getElem?_eq_some_iff.mp hd).1
    exact ⟨new, List.getElem?_set_self hlt, hself die hd⟩
  · obtain ⟨die', hd', hp⟩ := h d die hd
    exact ⟨die', (List.getElem?_set_ne (Ne.symm hdk)).trans hd', hother d die die' hdk hd hp⟩

section
variable {s t : State} {now throttle k m : Nat}

theorem Filled.start (hinv : sessionInv s.ses) : Filled s (s.withLastNow (some now)) now throttle 0 0 := by
  refine ⟨rfl, rfl, rfl, rfl, rfl, rfl, rfl, rfl, rfl, by simp, fun d die hd =>
    ⟨die, hd, sessionInv_die hinv hd, ?_, ?_⟩⟩
  · rw [Nat.zero_sub, List.take_zero]
    exact dieIssued_nil s now _ d die
  · rw [if_neg (Nat.not_lt_zero d)]
    exact ⟨rfl, rfl⟩

/-- A byte index below the number of dies is that die's number. -/
theorem toNat_dieIndex (hinv : sessionInv s.ses) (hk : k < s.ses.die.length) :
    k < s.ses.dies.toNat ∧ (BitVec.ofNat 8 k).toNat = k := by
  obtain ⟨-, hlen, -⟩ := hinv
  have hdies := s.ses.dies.isLt
  rw [BitVec.toNat_ofNat]
  omega

/-- The die an issuance stands at. -/
theorem Filled.dieAt (h : Filled s t now throttle k m) (hinv : sessionInv s.ses) {d : Nat} {die' : DieState}
    (hd : t.ses.die[d]? = some die') : Machine.dieAt t (BitVec.ofNat 8 d) = some die' := by
  have hlt : d < s.ses.die.length := h.length ▸ (List.getElem?_eq_some_iff.mp hd).1
  obtain ⟨hdies, hindex⟩ := toNat_dieIndex hinv hlt
  rw [dieAt_eq_some, hindex, h.ses]
  exact ⟨hdies, hd⟩

theorem Filled.issuedJob (h : Filled s t now throttle k m) : Machine.issuedJob t = nthJob s m := by
  rw [Machine.issuedJob, h.draws, h.cfg]
  rfl

theorem Filled.sendsNow (h : Filled s t now throttle k m) : t.draws.sends.now = s.draws.sends.nth m := by
  rw [h.draws]
  rfl

/-- One slot more of a die is no slot of another. -/
theorem take_of_otherDie {c : Cfg} {dies : List DieState} {d e j : Nat} {die other : DieState}
    (hd : dies[d]? = some die) (hj : j < (servedCores c throttle die).length) (he : dies[e]? = some other)
    (hne : e ≠ d) :
    (servedCores c throttle other).take (slotsBefore c throttle dies d + j + 1 - slotsBefore c throttle dies e)
      = (servedCores c throttle other).take (slotsBefore c throttle dies d + j - slotsBefore c throttle dies e) := by
  have hnext := slotsBefore_succ (c := c) (throttle := throttle) hd
  have hother := slotsBefore_succ (c := c) (throttle := throttle) he
  rcases Nat.lt_or_gt_of_ne hne with hlt | hgt
  · have hle : slotsBefore c throttle dies (e + 1) ≤ slotsBefore c throttle dies d := slotsBefore_le hlt
    rw [List.take_of_length_le (by omega), List.take_of_length_le (by omega)]
  · have hle : slotsBefore c throttle dies (d + 1) ≤ slotsBefore c throttle dies e := slotsBefore_le hgt
    rw [Nat.sub_eq_zero_of_le (by omega), Nat.sub_eq_zero_of_le (by omega)]

section
variable {die die' : DieState} {j : Nat} {c : Byte} (h : Filled s t now throttle k m) (hinv : sessionInv s.ses)
  (hd : s.ses.die[k]? = some die) (hd' : t.ses.die[k]? = some die')
  (hm : m = slotsBefore s.cfg throttle s.ses.die k + j) (hj : (servedCores s.cfg throttle die)[j]? = some c)
include h hd hd' hm hj

/-- The die an issuance stands at has had its first `j` cores served. -/
theorem Filled.atDie : dieInv s.ses.cores k die'
    ∧ dieIssued s now (slotsBefore s.cfg throttle s.ses.die k) k die die' ((servedCores s.cfg throttle die).take j)
    ∧ ((servedCores s.cfg throttle die).take j).length = j ∧ die'.freeActive = die.freeActive
    ∧ die'.freePending = die.freePending := by
  obtain ⟨hjlt, -⟩ := List.getElem?_eq_some_iff.mp hj
  obtain ⟨found, hfound, hsound, hissued, hlists⟩ := h.dies k die hd
  obtain rfl : die' = found := Option.some.inj (hd'.symm.trans hfound)
  rw [hm, Nat.add_sub_cancel_left] at hissued
  rw [if_neg (Nat.lt_irrefl k)] at hlists
  exact ⟨hsound, hissued, List.length_take_of_le (Nat.le_of_lt hjlt), hlists⟩

/-- One call more is sent: the next slot's frame, answered by the next draw. -/
theorem Filled.issued_sent : (t.issued (BitVec.ofNat 8 k) c now die').sent
    = s.sent ++ (((allSlots s.cfg throttle s.ses.die).take (m + 1)).zipIdx.map
      (fun e => { bytes := slotFrame s e.1 e.2, ok := s.draws.sends.nth e.2 })) := by
  obtain ⟨-, ⟨hseq, -⟩, htaken, -⟩ := h.atDie hd hd' hm hj
  rw [htaken] at hseq
  have hslot := allSlots_getElem? hd hj
  rw [← hm] at hslot
  have hmlt : m ≤ (allSlots s.cfg throttle s.ses.die).length := Nat.le_of_lt (List.getElem?_eq_some_iff.mp hslot).1
  have hframe : wireBytes t.cfg.crc t.cfg.opHash
        (hashBody t.cfg (BitVec.ofNat 8 k) c die'.seqNext (Machine.issuedJob t))
      = slotFrame s { die := BitVec.ofNat 8 k, core := c, sequence := die.seqNext + BitVec.ofNat 16 j } m := by
    rw [h.issuedJob, h.cfg, hseq]
    rfl
  calc (t.issued (BitVec.ofNat 8 k) c now die').sent
      = t.sent ++ [⟨wireBytes t.cfg.crc t.cfg.opHash
          (hashBody t.cfg (BitVec.ofNat 8 k) c die'.seqNext (Machine.issuedJob t)), t.draws.sends.now⟩] := rfl
    _ = _ := by
      rw [hframe, h.sendsNow, h.sent, List.take_add_one, hslot, Option.toList_some, List.zipIdx_append,
        List.length_take_of_le hmlt, Nat.zero_add, List.map_append, List.append_assoc]
      rfl

include hinv

/-- The die is the next one, the others stand. -/
theorem Filled.issued_dies : ∀ (e : Nat) (other : DieState), s.ses.die[e]? = some other →
    ∃ other', (t.issued (BitVec.ofNat 8 k) c now die').ses.die[e]? = some other'
      ∧ dieFilled s now throttle k (m + 1) e other other' := by
  obtain ⟨hjlt, hjc⟩ := List.getElem?_eq_some_iff.mp hj
  obtain ⟨-, hindex⟩ := toNat_dieIndex hinv (List.getElem?_eq_some_iff.mp hd).1
  have hdie := sessionInv_die hinv hd
  have hc : c.toNat < s.ses.cores.toNat := servedCores_lt hdie s.cfg throttle c (List.mem_of_getElem? hj)
  have hbound := servedCores_length_lt hdie s.cfg throttle
  obtain ⟨hsound, hissued, htaken, hlists⟩ := h.atDie hd hd' hm hj
  have hwritten : (t.issued (BitVec.ofNat 8 k) c now die').ses.die
      = t.ses.die.set k (issuedDie die' (BitVec.ofNat 8 k) c now (nthJob s m)) := by
    calc (t.issued (BitVec.ofNat 8 k) c now die').ses.die
        = t.ses.die.set (BitVec.ofNat 8 k).toNat
          (issuedDie die' (BitVec.ofNat 8 k) c now (Machine.issuedJob t)) := rfl
      _ = _ := by rw [hindex, h.issuedJob]
  rw [hwritten]
  refine dies_set h.length h.dies (fun found hfound => ?_) fun e other other' hne he hother => ?_
  · obtain rfl : found = die := Option.some.inj (hfound.symm.trans hd)
    have hsound' := issuedDie_dieInv (BitVec.ofNat 8 k) now (nthJob s m) (hindex.symm ▸ hsound) hc
    have hissued' := dieIssued_snoc hissued hsound hc (by omega)
    rw [hindex] at hsound'
    rw [htaken, ← hm, ← hjc, List.take_concat_get' _ _ hjlt] at hissued'
    refine ⟨hsound', ?_, by rwa [if_neg (Nat.lt_irrefl k)]⟩
    rw [hm, Nat.add_assoc, Nat.add_sub_cancel_left, ← hm, ← hjc]
    exact hissued'
  · obtain ⟨hsound', hissued', hlists'⟩ := hother
    refine ⟨hsound', ?_, hlists'⟩
    rw [hm] at hissued' ⊢
    rw [take_of_otherDie hd hjlt he hne]
    exact hissued'

/-- One slot more filled. -/
theorem Filled.issued : Filled s (t.issued (BitVec.ofNat 8 k) c now die') now throttle k (m + 1) := by
  refine ⟨?_, (List.length_set ..).trans h.length, h.cfg, h.par, h.calls, h.waiting, h.lastNow, h.log, ?_,
    h.issued_sent hd hd' hm hj, h.issued_dies hinv hd hd' hm hj⟩
  · calc (t.issued (BitVec.ofNat 8 k) c now die').ses
        = { t.ses with die := (t.issued (BitVec.ofNat 8 k) c now die').ses.die } := rfl
      _ = _ := by rw [h.ses]
  · calc (t.issued (BitVec.ofNat 8 k) c now die').draws
        = { t.draws with jobs := t.draws.jobs.rest, sends := t.draws.sends.rest } := rfl
      _ = _ := by rw [h.draws, Function.iterate_succ_apply', Function.iterate_succ_apply']

end

/-- A die left: its lists are cleared. -/
theorem Filled.leave (h : Filled s t now throttle k m) (hinv : sessionInv s.ses) (hk : k < s.ses.die.length) :
    Filled s (clearSlots (BitVec.ofNat 8 k) t) now throttle (k + 1) m := by
  obtain ⟨-, hindex⟩ := toNat_dieIndex hinv hk
  obtain ⟨die', hd', hfilled⟩ := h.dies k _ (List.getElem?_eq_getElem hk)
  have hclear : clearSlots (BitVec.ofNat 8 k) t = t.withSes { t.ses with
      die := t.ses.die.set k { die' with freeActive := [], freePending := [] } } := by
    rw [clearSlots, h.dieAt hinv hd']
    simp only [State.withDie, hindex]
  rw [hclear]
  refine ⟨?_, (List.length_set ..).trans h.length, h.cfg, h.par, h.calls, h.waiting, h.lastNow, h.log, h.draws, h.sent,
    ?_⟩
  · rw [State.withSes_ses, h.ses]
  · refine dies_set h.length h.dies (fun die hd => ?_) fun e other other' hne he hother => ?_
    · obtain ⟨die'', hd'', ⟨hlen, hok, hrecords, -⟩, hissued, -⟩ := h.dies k die hd
      obtain rfl : die' = die'' := Option.some.inj (hd'.symm.trans hd'')
      refine ⟨⟨hlen, hok, hrecords, by simp, List.nodup_nil, by simp, List.nodup_nil⟩,
        dieIssued_withLists hissued [] [], ?_⟩
      rw [if_pos (Nat.lt_succ_self k)]
      exact ⟨rfl, rfl⟩
    · obtain ⟨hsound, hissued, hlists⟩ := hother
      refine ⟨hsound, hissued, ?_⟩
      have hiff : e < k + 1 ↔ e < k := by omega
      rwa [if_congr hiff rfl rfl]

end

/-! ## A run of an issuance (44_scheduler R211, R215) -/

/-- The run has left the first `k` dies and filled the first `m` slots, all sends having succeeded; or it stopped in
some die at the first slot whose send failed. -/
def fillsTo (s : State) (now throttle k m : Nat) : Run → Prop
  | .done t => Filled s t now throttle k m ∧ ∀ i, i < m → s.draws.sends.nth i = true
  | .raise e t => e = .transport ∧ ∃ d n, Filled s t now throttle d (n + 1)
      ∧ slotsBefore s.cfg throttle s.ses.die d ≤ n ∧ n < slotsBefore s.cfg throttle s.ses.die (d + 1)
      ∧ d < s.ses.die.length ∧ (∀ i, i < n → s.draws.sends.nth i = true) ∧ s.draws.sends.nth n = false

section
variable {s : State} {now throttle : Nat}

theorem fillsTo.andThen {k m k' m' : Nat} {r : Run} {f : State → Run} (h : fillsTo s now throttle k m r)
    (hf : ∀ t, fillsTo s now throttle k m (.done t) → fillsTo s now throttle k' m' (f t)) :
    fillsTo s now throttle k' m' (r.andThen f) := by
  cases r with
  | done t => exact hf t h
  | raise e t => exact h

variable (hinv : sessionInv s.ses) (hwf : s.cfg.wf) (hfits : 68 + s.cfg.jobPad ≤ s.cfg.maxSendSize)
include hinv hwf hfits

/-- One core of the die an issuance stands at. -/
theorem fillsTo_issueOne {k j : Nat} {die : DieState} {c : Byte} {t : State} (hd : s.ses.die[k]? = some die)
    (hj : (servedCores s.cfg throttle die)[j]? = some c)
    (h : fillsTo s now throttle k (slotsBefore s.cfg throttle s.ses.die k + j) (.done t)) :
    fillsTo s now throttle k (slotsBefore s.cfg throttle s.ses.die k + (j + 1))
      (issueOne (BitVec.ofNat 8 k) c now t) := by
  obtain ⟨hfilled, hsends⟩ := h
  obtain ⟨hklt, -⟩ := List.getElem?_eq_some_iff.mp hd
  obtain ⟨hjlt, -⟩ := List.getElem?_eq_some_iff.mp hj
  obtain ⟨die', hd', -⟩ := hfilled.dies k die hd
  have hnext := hfilled.issued hinv hd hd' rfl hj
  rw [issueOne_of_fits (hfilled.dieAt hinv hd') (hfilled.cfg.symm ▸ hwf) (hfilled.cfg.symm ▸ hfits), hfilled.sendsNow]
  cases hsend : s.draws.sends.nth (slotsBefore s.cfg throttle s.ses.die k + j) with
  | true =>
    refine ⟨hnext, fun i hi => ?_⟩
    rcases Nat.lt_succ_iff_lt_or_eq.mp hi with hlt | rfl
    · exact hsends i hlt
    · exact hsend
  | false =>
    refine ⟨rfl, k, _, hnext, Nat.le_add_right _ _, ?_, hklt, hsends, hsend⟩
    rw [slotsBefore_succ hd]
    omega

/-- The cores of a part of the list served. -/
theorem fillsTo_issueCores {k : Nat} {die : DieState} (hd : s.ses.die[k]? = some die) :
    ∀ (l before after : List Byte) (t : State), servedCores s.cfg throttle die = before ++ l ++ after →
      fillsTo s now throttle k (slotsBefore s.cfg throttle s.ses.die k + before.length) (.done t) →
      fillsTo s now throttle k (slotsBefore s.cfg throttle s.ses.die k + (before ++ l).length)
        (issueCores (BitVec.ofNat 8 k) now l t)
  | [], before, after, t, _, h => by rwa [List.append_nil]
  | c :: l, before, after, t, hserved, h => by
    have hj : (servedCores s.cfg throttle die)[before.length]? = some c := by simp [hserved]
    refine (fillsTo_issueOne hinv hwf hfits hd hj h).andThen fun t' h' => ?_
    have hrest := fillsTo_issueCores hd l (before ++ [c]) after t' (by simpa using hserved) (by simpa using h')
    simpa using hrest

/-- One die (44_scheduler R211, R212). -/
theorem fillsTo_issueDie {k : Nat} (hk : k < s.ses.die.length) {t : State}
    (h : fillsTo s now throttle k (slotsBefore s.cfg throttle s.ses.die k) (.done t)) :
    fillsTo s now throttle (k + 1) (slotsBefore s.cfg throttle s.ses.die (k + 1))
      (issueDie now throttle (BitVec.ofNat 8 k) t) := by
  have hd := List.getElem?_eq_getElem hk
  generalize s.ses.die[k] = die at hd
  -- both lists of the die are as they were until it is left
  have hlists : ∀ {t' : State} {m : Nat}, Filled s t' now throttle k m →
      freeActiveOf t' (BitVec.ofNat 8 k) = die.freeActive ∧ freePendingOf t' (BitVec.ofNat 8 k) = die.freePending := by
    intro t' m hfilled
    obtain ⟨die', hd', -, -, hkept⟩ := hfilled.dies k die hd
    rw [freeActiveOf, freePendingOf, hfilled.dieAt hinv hd']
    rwa [if_neg (Nat.lt_irrefl k)] at hkept
  obtain ⟨hfilled, -⟩ := id h
  obtain ⟨hactive, -⟩ := hlists hfilled
  have hserved := servedCores_eq s.cfg throttle die
  rw [issueDie, hactive, hfilled.cfg]
  have hfirst := fillsTo_issueCores hinv hwf hfits hd (truncate s.cfg die.freeActive throttle) [] _ t hserved h
  refine fillsTo.andThen (k := k) (m := slotsBefore s.cfg throttle s.ses.die (k + 1))
    (hfirst.andThen fun t' h' => ?_) fun t' h' => ?_
  · rw [slotsBefore_succ hd, hserved]
    by_cases hthrottle : throttle = 0
    · obtain ⟨hfilled', -⟩ := id h'
      obtain ⟨-, hpending⟩ := hlists hfilled'
      rw [if_pos hthrottle, if_pos hthrottle, hpending]
      refine fillsTo_issueCores hinv hwf hfits hd die.freePending _ [] t' ?_ h'
      rw [hserved, if_pos hthrottle, List.append_nil]
    · rw [if_neg hthrottle, if_neg hthrottle, List.append_nil]
      exact h'
  · obtain ⟨hfilled', hsends⟩ := h'
    exact ⟨hfilled'.leave hinv hk, hsends⟩

/-- The dies from the `k`-th on. -/
theorem fillsTo_issueDies : ∀ (n k : Nat) (t : State), k + n = s.ses.die.length →
    fillsTo s now throttle k (slotsBefore s.cfg throttle s.ses.die k) (.done t) →
    fillsTo s now throttle s.ses.die.length (slotsBefore s.cfg throttle s.ses.die s.ses.die.length)
      (issueDies now throttle ((List.range' k n).map (BitVec.ofNat 8)) t)
  | 0, k, t, hk, h => by
    obtain rfl : k = s.ses.die.length := hk
    exact h
  | n + 1, k, t, hk, h =>
    (fillsTo_issueDie hinv hwf hfits (by omega) h).andThen fun t' h' =>
      fillsTo_issueDies n (k + 1) t' (by omega) h'

theorem fillsTo_issueAll : fillsTo s now throttle s.ses.die.length (allSlots s.cfg throttle s.ses.die).length
    (issueAll now throttle (s.withLastNow (some now))) := by
  obtain ⟨-, hlen, -⟩ := id hinv
  have hall := fillsTo_issueDies hinv hwf hfits (now := now) (throttle := throttle) s.ses.die.length 0
    (s.withLastNow (some now)) (Nat.zero_add _) ⟨Filled.start hinv, fun i hi => absurd hi (Nat.not_lt_zero i)⟩
  rw [slotsBefore_length] at hall
  rw [issueAll, indicesBelow, List.range_eq_range', State.withLastNow_ses, ← hlen]
  exact hall

end

/-! ## What an issuance leaves (44_scheduler R211) -/

/-- The dies left are those whose slots are all filled and, where a slot's send failed, no more than that. -/
theorem Filled.slotsIssued_of_left {s u : State} {now throttle k m : Nat} (h : Filled s u now throttle k m)
    {left : Bool} (hleft : ∀ d die, s.ses.die[d]? = some die → (d < k ↔ left = true
      ∨ slotsBefore s.cfg throttle s.ses.die d + (servedCores s.cfg throttle die).length < m)) :
    slotsIssued s u now throttle m left := by
  refine ⟨h.ses, h.length, h.cfg, h.par, h.calls, h.waiting, h.lastNow, h.log, h.draws, h.sent, fun d die hd => ?_⟩
  obtain ⟨die', hd', -, hissued, hlists⟩ := h.dies d die hd
  rw [if_congr (hleft d die hd) rfl rfl] at hlists
  exact ⟨die', hd', hissued, hlists⟩

/-- Every die left. -/
theorem Filled.slotsIssued_all {s u : State} {now throttle m : Nat} (h : Filled s u now throttle s.ses.die.length m) :
    slotsIssued s u now throttle m true :=
  h.slotsIssued_of_left fun _ _ hd => iff_of_true (List.getElem?_eq_some_iff.mp hd).1 (.inl rfl)

/-- Stopped in a die, one of its slots just filled. -/
theorem Filled.slotsIssued_part {s u : State} {now throttle k n : Nat} (h : Filled s u now throttle k (n + 1))
    (hlow : slotsBefore s.cfg throttle s.ses.die k ≤ n) (hhigh : n < slotsBefore s.cfg throttle s.ses.die (k + 1)) :
    slotsIssued s u now throttle (n + 1) false := by
  refine h.slotsIssued_of_left fun d die hd => ?_
  rw [← slotsBefore_succ hd]
  constructor
  · intro hlt
    have hle : slotsBefore s.cfg throttle s.ses.die (d + 1) ≤ slotsBefore s.cfg throttle s.ses.die k :=
      slotsBefore_le hlt
    exact .inr (by omega)
  · rintro (hfalse | hlt)
    · cases hfalse
    · by_contra hge
      have hle : slotsBefore s.cfg throttle s.ses.die (k + 1) ≤ slotsBefore s.cfg throttle s.ses.die (d + 1) :=
        slotsBefore_le (by omega)
      omega

/-- Settles O51: the issuance either fills every slot or stops at the first whose send fails. -/
theorem issueAllFillsAndClears : Obligations.IssueAllFillsAndClears := by
  intro s now throttle hstate htime
  rw [exec_cycleIssueAll_running throttle hstate htime]
  refine ⟨⟨_, rfl⟩, fun hinv hwf hfits => ?_⟩
  have hfills := fillsTo_issueAll hinv hwf hfits (now := now) (throttle := throttle)
  cases hrun : issueAll now throttle (s.withLastNow (some now)) with
  | done t =>
    rw [hrun] at hfills
    obtain ⟨hfilled, hsends⟩ := hfills
    have hrunning : t.ses.sstate = .running := by rw [hfilled.ses]; exact hstate
    refine ⟨fun _ => ⟨t, hfilled.slotsIssued_all, cycleEnds_of_live (live_of_running hrunning)⟩,
      fun n hn _ hfail => ?_⟩
    exact absurd ((hsends n hn).symm.trans hfail) (by decide)
  | raise e t =>
    rw [hrun] at hfills
    obtain ⟨rfl, d, n, hfilled, hlow, hhigh, hd, hsends, hfail⟩ := hfills
    have hn : n < (allSlots s.cfg throttle s.ses.die).length := by
      have hle := slotsBefore_le (c := s.cfg) (throttle := throttle) (dies := s.ses.die) hd
      rw [slotsBefore_length] at hle
      exact Nat.lt_of_lt_of_le hhigh hle
    refine ⟨fun hall => absurd ((hall n hn).symm.trans hfail) (by decide), fun n' _ hbefore hfail' => ?_⟩
    obtain rfl : n' = n := by
      rcases Nat.lt_trichotomy n' n with hlt | heq | hgt
      · exact absurd ((hsends n' hlt).symm.trans hfail') (by decide)
      · exact heq
      · exact absurd ((hbefore n hgt).symm.trans hfail) (by decide)
    exact ⟨t, hfilled.slotsIssued_part hlow hhigh, cycleEnds_terminate _ _⟩

end Sys2Proof.Machine
end
